-- ==== Sys2Proof/Word.lean ====
section
/-! DEFINITION. The cell, the one data type of the hardware, and its range (spec 00_scope.md R7, 10_state.md R22).
A cell holds a signed integer. The ISA slices no bits and all its arithmetic is on the integers (R7), so a cell's value is an
`Int` throughout the model; that it lies in the cell range is the predicate `Fits`, kept as an invariant (log entry 2). -/

namespace Sys2Proof

/-- `CELL_MIN = -2^(W-1)` (R6, R7). -/
def cellMin (w : Nat) : Int := -((2 ^ (w - 1) : Nat) : Int)

/-- `CELL_MAX = 2^(W-1) - 1` (R6, R7). -/
def cellMax (w : Nat) : Int := ((2 ^ (w - 1) : Nat) : Int) - 1

/-- `fits(v)`: `v` is a value a cell of `w` bits can hold (R7). -/
abbrev Fits (w : Nat) (v : Int) : Prop := cellMin w ≤ v ∧ v ≤ cellMax w

end Sys2Proof
end

