-- ==== Sys2Proof/Config.lean ====
section
/-! DEFINITION. What an implementation or a run fixes (spec 00_scope.md R6), and the one free value of the model. -/

namespace Sys2Proof

/-- `OVERFLOW_MODE`: what add and mul do on a result outside the cell range (R6, R112, D2). -/
inductive OverflowMode where
  | fault
  | wrap
  deriving DecidableEq, Repr

/-- `UNUSED_MODE_DIGITS`: what decode does with a non-zero digit above the last mode digit (R6, R84, D4). -/
inductive UnusedDigits where
  | fault
  | ignore
  deriving DecidableEq, Repr

/-- The implementation parameters of R6. -/
structure Params where
  /-- `W`, the width of a cell in bits (D1). -/
  w : Nat
  /-- `OVERFLOW_MODE` (D2). -/
  overflow : OverflowMode
  /-- `UNUSED_MODE_DIGITS` (D4). -/
  unused : UnusedDigits
  /-- `MAX_MEM_LEN`, the largest program image in cells (D12). -/
  maxMemLen : Nat
  /-- `OUT_LOG_CAP`; `none` is unbounded (D18). -/
  outLogCap : Option Nat
  /-- `CAP`, the capacity of one channel (D19). -/
  cap : Nat
  /-- `STRICT_EXCESS` (D24). -/
  strictExcess : Bool
  deriving DecidableEq, Repr

/-- The defaults of R6. DESIGN CHOICE: R6 gives `MAX_MEM_LEN` no default, the model takes its largest
legal value at `W = 64`, unsafe (log entry 6). -/
def Params.default : Params where
  w := 64
  overflow := .fault
  unused := .fault
  maxMemLen := 2 ^ 63 - 4
  outLogCap := none
  cap := 1
  strictExcess := true

/-- `TOPOLOGY` (R6, R180). -/
inductive Topology where
  | linear
  | feedback
  deriving DecidableEq, Repr

/-- `PIPE_MODE` (R6, R180). -/
inductive PipeMode where
  | sync
  | concurrent
  deriving DecidableEq, Repr

/-- The configuration of a pipeline (R180). -/
structure PipeConfig where
  /-- `N`, the number of cores. -/
  n : Nat
  topology : Topology
  mode : PipeMode
  /-- `PHASES`, one value per core. -/
  phases : List Int
  deriving DecidableEq, Repr

/-- FREE VALUE: the scheduler's choice at each choice it makes (R40, R185, D26: any enabled core may step next).
No body, so no proof can see it: a statement about `step` holds for every schedule (log entry 3). -/
opaque Config.schedule : Nat → Nat

end Sys2Proof
end

