-- ==== Sys2Proof/Syntax.lean ====
section
/-! DEFINITION. The instructions: one constructor per row of spec/opcode_table.json (30_encoding.md R80, R86, R89). -/

namespace Sys2Proof

/-- A decoded parameter: "tagged value, one of `Position(address)` or `Immediate(value)`" (R86). -/
inductive Param where
  /-- The operand is the cell at this address. -/
  | position (address : Int)
  /-- The operand is this value. -/
  | immediate (value : Int)
  deriving DecidableEq, Repr

/-- The parameter cell, taken whole and used verbatim (R93). -/
def Param.raw : Param → Int
  | .position a => a
  | .immediate v => v

/-- The nine instructions of the opcode map (R89). `inp` is the table's `in`, a Lean keyword. -/
inductive Instr where
  /-- opcode 1 (R110) -/
  | add (p1 p2 p3 : Param)
  /-- opcode 2 (R111) -/
  | mul (p1 p2 p3 : Param)
  /-- `in`, opcode 3 (R121) -/
  | inp (p1 : Param)
  /-- opcode 4 (R125) -/
  | out (p1 : Param)
  /-- opcode 5 (R130) -/
  | jt (p1 p2 : Param)
  /-- opcode 6 (R131) -/
  | jf (p1 p2 : Param)
  /-- opcode 7 (R140) -/
  | lt (p1 p2 p3 : Param)
  /-- opcode 8 (R141) -/
  | eq (p1 p2 p3 : Param)
  /-- opcode 99 (R150) -/
  | halt
  deriving DecidableEq, Repr

/-- The parameters `p1, p2, …` of an instruction, in order. -/
def Instr.operands : Instr → List Param
  | .add p1 p2 p3 => [p1, p2, p3]
  | .mul p1 p2 p3 => [p1, p2, p3]
  | .inp p1 => [p1]
  | .out p1 => [p1]
  | .jt p1 p2 => [p1, p2]
  | .jf p1 p2 => [p1, p2]
  | .lt p1 p2 p3 => [p1, p2, p3]
  | .eq p1 p2 p3 => [p1, p2, p3]
  | .halt => []

end Sys2Proof
end

