-- ==== Sys2Proof/WellFormed.lean ====
section
/-! DEFINITION. Which instructions, parameters and pipeline configurations are legal. -/

namespace Sys2Proof

/-- A parameter is well formed when its cell is a cell value (R22, R93): any cell value is legal in either mode. -/
abbrev Param.Wf (w : Nat) (p : Param) : Prop := Fits w p.raw

/-- An instruction is well formed when each of its parameter cells is a cell value. An immediate destination is legal
syntax, it raises InvalidStoreTarget when it is executed (R90, R95). -/
abbrev Instr.Wf (w : Nat) (i : Instr) : Prop := ∀ p ∈ i.operands, p.Wf w

/-- The conditions R6 puts on the parameters: a width, `MAX_MEM_LEN ≤ 2^(W-1) - 4` and `CAP ≥ 1`. -/
abbrev Params.Wf (p : Params) : Prop :=
  1 ≤ p.w ∧ p.maxMemLen + 4 ≤ 2 ^ (p.w - 1) ∧ 1 ≤ p.cap

/-- What a pipeline configuration must meet (R180, D36): `N ≥ 1`, one phase cell per core, and no feedback in sync mode. -/
abbrev PipeConfig.Wf (w : Nat) (c : PipeConfig) : Prop :=
  1 ≤ c.n ∧ c.phases.length = c.n ∧ (∀ v ∈ c.phases, Fits w v) ∧ ¬(c.mode = .sync ∧ c.topology = .feedback)

end Sys2Proof
end

