-- ==== Sys2Proof/Decode.lean ====
section
/-! DEFINITION. Decode and encode: decimal digits, the opcode map, the checks P2 to P4 of a step (spec 30_encoding.md). -/

namespace Sys2Proof

/-- `trem(a, b) = a - b * (a div b)`, the remainder with the sign of `a`; `div` rounds toward zero (R8). -/
def trem (a b : Int) : Int := a - b * Int.tdiv a b

/-- `digit(c, j)`, the j-th decimal digit of `c ≥ 0`, units first (R8). -/
def digit (c : Int) (j : Nat) : Int :=
  Int.tdiv c ((10 ^ j : Nat) : Int) - 10 * Int.tdiv c ((10 ^ (j + 1) : Nat) : Int)

/-- The operations of the opcode map (R89). -/
inductive Op where
  | add
  | mul
  | inp
  | out
  | jt
  | jf
  | lt
  | eq
  | halt
  deriving DecidableEq, Repr

/-- The opcode value of an operation (R89). -/
def Op.code : Op → Int
  | .add => 1
  | .mul => 2
  | .inp => 3
  | .out => 4
  | .jt => 5
  | .jf => 6
  | .lt => 7
  | .eq => 8
  | .halt => 99

/-- `k`, the number of parameters (R89). The opcode alone fixes it (R91). -/
def Op.nparams : Op → Nat
  | .add => 3
  | .mul => 3
  | .inp => 1
  | .out => 1
  | .jt => 2
  | .jf => 2
  | .lt => 3
  | .eq => 3
  | .halt => 0

/-- The operation of an opcode value; every other value is illegal (R89, R90). -/
def Op.ofCode (op : Int) : Option Op :=
  if op = 1 then some .add
  else if op = 2 then some .mul
  else if op = 3 then some .inp
  else if op = 4 then some .out
  else if op = 5 then some .jt
  else if op = 6 then some .jf
  else if op = 7 then some .lt
  else if op = 8 then some .eq
  else if op = 99 then some .halt
  else none

/-- Why decode refuses a window. -/
inductive DecodeError where
  /-- The window is empty. A step never meets this: the fetch check P1 comes first (R53). -/
  | noOpcodeCell
  /-- Check P2: the opcode value is not in the opcode map (R90). -/
  | unknownOpcode (op : Int)
  /-- Check P3: a mode digit is not 0 or 1, or an unused digit is not 0; `n` is the source's 0-based parameter index,
  the digit's decimal place minus 2 (R83, R84). -/
  | unknownParameterMode (n : Nat)
  /-- Check P4: the cell of parameter `p_i` does not exist (R85). -/
  | missingParameter (i : Nat)
  deriving DecidableEq, Repr

/-- P3, first half: the modes of `p_i, p_(i+1), …` for the next `todo` parameters are 0 or 1, lowest first (R83). -/
def checkModes (c : Int) : (i todo : Nat) → Except DecodeError Unit
  | _, 0 => .ok ()
  | i, todo + 1 =>
    if digit c (i + 1) = 0 ∨ digit c (i + 1) = 1 then checkModes c (i + 1) todo
    else .error (.unknownParameterMode (i - 1))

/-- The least decimal place `≥ j` at which the number whose digits from place `j` up are those of `n` has a non-zero digit.
`fuel ≥ n` is more than enough, since `n < 10^n`. -/
def leastNonzeroPlace : (fuel n j : Nat) → Nat
  | 0, _, j => j
  | fuel + 1, n, j => if n % 10 ≠ 0 then j else leastNonzeroPlace fuel (n / 10) (j + 1)

/-- The digits of the opcode cell above those of its `k` parameters, as a number: `c div 10^(k+2)` (R84). -/
def digitsAbove (c : Int) (k : Nat) : Int := Int.tdiv c ((10 ^ (k + 2) : Nat) : Int)

/-- P3, second half: the digits above the last parameter's (R84). The reported index is `j - 2` for the least non-zero
digit `j ≥ k + 2`. -/
def checkUnused (u : UnusedDigits) (c : Int) (k : Nat) : Except DecodeError Unit :=
  match u with
  | .ignore => .ok ()
  | .fault =>
    if digitsAbove c k = 0 then .ok ()
    else .error (.unknownParameterMode
      (leastNonzeroPlace (digitsAbove c k).natAbs (digitsAbove c k).natAbs (k + 2) - 2))

/-- P4 for parameter `p_i`: its cell exists, and its mode digit tags it (R85, R86). `ps` are the window's cells after
the opcode cell. -/
def decodeParam (c : Int) (ps : List Int) (i : Nat) : Except DecodeError Param :=
  match ps[i - 1]? with
  | none => .error (.missingParameter i)
  | some raw => .ok (if digit c (i + 1) = 0 then .position raw else .immediate raw)

/-- P4 for all parameters, lowest first, and the instruction they make. -/
def decodeOperands (c : Int) (ps : List Int) : Op → Except DecodeError Instr
  | .add => do return .add (← decodeParam c ps 1) (← decodeParam c ps 2) (← decodeParam c ps 3)
  | .mul => do return .mul (← decodeParam c ps 1) (← decodeParam c ps 2) (← decodeParam c ps 3)
  | .inp => do return .inp (← decodeParam c ps 1)
  | .out => do return .out (← decodeParam c ps 1)
  | .jt => do return .jt (← decodeParam c ps 1) (← decodeParam c ps 2)
  | .jf => do return .jf (← decodeParam c ps 1) (← decodeParam c ps 2)
  | .lt => do return .lt (← decodeParam c ps 1) (← decodeParam c ps 2) (← decodeParam c ps 3)
  | .eq => do return .eq (← decodeParam c ps 1) (← decodeParam c ps 2) (← decodeParam c ps 3)
  | .halt => .ok .halt

/-- Decode the instruction at the start of a window of cells: the checks P2, P3, P4 in that order (R92). -/
def decode (u : UnusedDigits) : List Int → Except DecodeError Instr
  | [] => .error .noOpcodeCell
  | c :: ps =>
    match Op.ofCode (trem c 100) with
    | none => .error (.unknownOpcode (trem c 100))
    | some op => do
      checkModes c 1 op.nparams
      checkUnused u c op.nparams
      decodeOperands c ps op

/-- The operation of an instruction. -/
def Instr.op : Instr → Op
  | .add _ _ _ => .add
  | .mul _ _ _ => .mul
  | .inp _ => .inp
  | .out _ => .out
  | .jt _ _ => .jt
  | .jf _ _ => .jf
  | .lt _ _ _ => .lt
  | .eq _ _ _ => .eq
  | .halt => .halt

/-- The length of an instruction in cells, `1 + k` (R80, R91). -/
def Instr.length (i : Instr) : Nat := 1 + i.op.nparams

/-- The mode digit of a parameter (R83). -/
def Param.modeDigit : Param → Int
  | .position _ => 0
  | .immediate _ => 1

/-- `100*m_1 + 1000*m_2 + …` for parameters whose first has the decimal weight `weight` (R95). -/
def modeDigits : (weight : Int) → List Param → Int
  | _, [] => 0
  | weight, p :: ps => weight * p.modeDigit + modeDigits (10 * weight) ps

/-- The cells of an operation and its operands (R95). -/
def encodeOp (op : Op) (ps : List Param) : List Int :=
  (op.code + modeDigits 100 ps) :: ps.map Param.raw

/-- The cells of an instruction: `[op + 100*m_1 + 1000*m_2 + 10000*m_3, raw_1, …, raw_k]` (R95). -/
def encode (i : Instr) : List Int := encodeOp i.op i.operands

/-- The signed value of the low `w` bits of `x` (R7, two's complement). -/
def signedOf (w x : Nat) : Int :=
  let u := x % 2 ^ w
  if u < 2 ^ (w - 1) then (u : Int) else (u : Int) - ((2 ^ w : Nat) : Int)

/-- The four cells of `w` bits of an instruction window whose bits are `x`, of which the lowest `nbits` count: the first
cell is the lowest `w` bits. The spec's table numbers no bits, it reads the opcode cell as a decimal number (log entry 12). -/
def tableCells (w nbits x : Nat) : List Int :=
  let y := x % 2 ^ nbits
  (List.range 4).map fun i => signedOf w (y / 2 ^ (w * i))

/-- The instruction the decoder reads from an instruction whose bits are `x`, under the default parameters of R6. -/
def decodeTableWord (nbits x : Nat) : Option Instr :=
  match decode Params.default.unused (tableCells Params.default.w nbits x) with
  | .ok i => some i
  | .error _ => none

end Sys2Proof
end

