-- ==== Sys2Proof/Machine/State.lean ====
section
/-! DEFINITION. The state of the hardware, as plain data: cores, channels, pipeline controller (spec 10_state.md). -/

namespace Sys2Proof.Machine

/-- `status` of a core (R26), encoded as `Status.code` in Machine/Ops.lean says. A blocked core is Running: blocking is derived, not stored (R34, R35). -/
inductive Status where
  /-- 0, the reset value. -/
  | running
  /-- 1 -/
  | halted
  /-- 2 -/
  | faulted
  deriving DecidableEq, Repr

/-- The fault codes (R161), numbered as `FaultCode.code` in Machine/Ops.lean says. -/
inductive FaultCode where
  /-- 0, the reset value: no fault. -/
  | none
  /-- 1 -/
  | outOfBounds
  /-- 2 -/
  | unknownOpcode
  /-- 3 -/
  | unknownParameterMode
  /-- 4 -/
  | invalidStoreTarget
  /-- 5 -/
  | inputExhausted
  /-- 6 -/
  | overflow
  /-- 7 -/
  | excessOutput
  /-- 8 -/
  | deadlock
  /-- 9 -/
  | outputLogFull
  deriving DecidableEq, Repr

/-- The fault record of a core (R28). `none` of the spec is `none` here. -/
structure FaultRecord where
  fcode : FaultCode
  /-- The pc of the faulting instruction. -/
  fpc : Option Int
  /-- The opcode cell as fetched. -/
  fcell : Option Int
  /-- `trem(fcell, 100)`. -/
  fop : Option Int
  /-- The source's 0-based parameter index. -/
  fparam : Option Nat
  /-- The offending address of OutOfBounds. -/
  faddr : Option Int
  deriving DecidableEq, Repr

/-- The record after reset (R28, R230). -/
def FaultRecord.empty : FaultRecord := ⟨.none, .none, .none, .none, .none, .none⟩

/-- The I/O binding of a core (R29). -/
inductive IoBinding where
  | queue
  | channel
  deriving DecidableEq, Repr

/-- A core's memory `mem[0..L-1]` (R23, R50). `cells` lists addresses and cell values in one canonical form (`Memory.wf`
in Machine/Ops.lean): addresses strictly rising and below `len`, no entry equal to `Memory.blank`, which is what an
unlisted address below `len` holds (log entry 11). An address at or above `len` does not exist (R55). -/
structure Memory where
  /-- `L`, the number of cells, fixed between loads (R23). -/
  len : Nat
  cells : List (Nat × Int)
  deriving DecidableEq, Repr

/-- The state of one core, the VM (R21, R23 to R31). -/
structure Vm where
  mem : Memory
  /-- The instruction pointer (R24). -/
  pc : Int
  /-- The completion flag (R25). -/
  done : Bool
  status : Status
  /-- Set by the core's first step (R27). -/
  started : Bool
  fault : FaultRecord
  io : IoBinding
  /-- `in_q` (R30). -/
  inQ : List Int
  /-- `out_log` (R31). -/
  outLog : List Int
  deriving DecidableEq, Repr

/-- The consumer of a channel (R38, R170). -/
inductive Consumer where
  | core (k : Nat)
  | sink
  deriving DecidableEq, Repr

/-- A channel (R38, R170). Its capacity is the parameter `CAP`. -/
structure Channel where
  buf : List Int
  producer : Option Nat
  consumer : Consumer
  deriving DecidableEq, Repr

/-- `pstatus` of the pipeline controller (R39). -/
inductive PStatus where
  | idle
  | running
  | terminated
  | aborted
  deriving DecidableEq, Repr

/-- The `abort` record of the controller (R39). -/
structure AbortRecord where
  acode : FaultCode
  avm : Option Nat
  afault : Option FaultRecord
  deriving DecidableEq, Repr

/-- The abort record after reset (R39). -/
def AbortRecord.empty : AbortRecord := ⟨.none, .none, .none⟩

/-- The pipeline controller (R39), less its cores and channels, which are `State.cores` and `State.chans`. -/
structure Controller where
  pstatus : PStatus
  /-- `N`, `TOPOLOGY`, `PIPE_MODE`, `PHASES`. -/
  config : PipeConfig
  /-- The sink of concurrent linear mode (R178). -/
  sink : List Int
  /-- The result tap (R179). -/
  result : Option Int
  abort : AbortRecord
  /-- The running core of sync mode. -/
  cur : Nat
  deriving DecidableEq, Repr

/-- Which arrangement the machine is: one core and the host (R193), or a pipeline (R180). MODEL's own field (log entry 5). -/
inductive Setting where
  | standalone
  | pipeline
  deriving DecidableEq, Repr

/-- The whole machine. -/
structure State where
  /-- The parameters of R6, which no step changes (log entry 1). -/
  params : Params
  setting : Setting
  /-- `vm[0..N-1]` (R39); a standalone machine has one core. -/
  cores : List Vm
  /-- `ch[0..N-1]` (R39): channel `k` is the input of core `k`. Concurrent mode only. -/
  chans : List Channel
  ctl : Controller
  /-- The core whose step is being run. MODEL's own field (log entry 4). -/
  active : Nat
  /-- How many scheduler choices were made: `Config.schedule` is applied to it. MODEL's own field (log entry 3). -/
  choices : Nat
  deriving DecidableEq, Repr

/-- Why a step stops without a next state. The spec lets no step stop so: its own faults are next states (R162). Each of
these is met only in a State that no host action builds (log entry 10). -/
inductive Fault where
  /-- Raised by every operation on a core number that is not there. Safe: the hardware has no such core to differ from. -/
  | noCore
  /-- Raised by `in` and `out` of a Channel-bound core whose channel is not there. Safe, as `noCore`. -/
  | noChannel
  /-- Raised by the controller of a sync run whose next core has no phase value. Safe, as `noCore`. -/
  | noPhase
  deriving DecidableEq, Repr

/-- Why an instruction is refused. -/
inductive Refusal where
  /-- Raised by exec's arm of an instruction that has no meaning yet. No arm is of this kind: every instruction has its
  meaning. Safe: the model would stop where the hardware goes on. -/
  | notModelled (mnemonic : String)
  deriving DecidableEq, Repr

/-- The controller after reset, with no pipeline configured (R39, R231). DESIGN CHOICE: the spec gives the configuration
no value before `configure_pipeline`, the model takes `N = 0`, linear, sync, no phases (log entry 5). -/
def Controller.reset : Controller where
  pstatus := .idle
  config := { n := 0, topology := .linear, mode := .sync, phases := [] }
  sink := []
  result := none
  abort := .empty
  cur := 0

/-- A core after reset with the memory `mem` and the input `input` (R230). -/
def Vm.resetWith (io : IoBinding) (input : List Int) (mem : Memory) : Vm where
  mem := mem
  pc := 0
  done := false
  status := .running
  started := false
  fault := .empty
  io := io
  inQ := input
  outLog := []

/-- The machine under the parameters `p` with no image loaded: a standalone core in Queue binding with `L = 0`. -/
def State.resetFor (p : Params) : State where
  params := p
  setting := .standalone
  cores := [Vm.resetWith .queue [] { len := 0, cells := [] }]
  chans := []
  ctl := .reset
  active := 0
  choices := 0

/-- The machine right after reset, under the defaults of R6, with no image loaded (log entry 5). -/
def State.reset : State := State.resetFor Params.default

end Sys2Proof.Machine
end

