-- ==== Sys2Proof/Machine/Ops.lean ====
section
/-! DEFINITION. The named operations over memory and cores, and the raise of a fault (spec 20_memory.md, 60_exceptions.md R160 to R165). -/

namespace Sys2Proof.Machine

/-! ## Memory -/

/-- What an address below `len` that is not listed holds. A representation choice only: a load writes every cell, so no
cell of the hardware is ever unwritten (R230, log entry 11). -/
def Memory.blank : Int := 0

/-- The canonical form: addresses strictly rising and below `len`, no entry equal to `Memory.blank`. -/
abbrev Memory.wf (m : Memory) : Prop :=
  m.cells.Pairwise (fun x y => x.1 < y.1) ∧ ∀ e ∈ m.cells, e.1 < m.len ∧ e.2 ≠ Memory.blank

/-- The value a list of cells gives the address `a`. -/
def Memory.lookup : List (Nat × Int) → Nat → Int
  | [], _ => Memory.blank
  | (b, v) :: rest, a => if b = a then v else Memory.lookup rest a

/-- `mem[a]` for an address below `len`. -/
def Memory.get (m : Memory) (a : Nat) : Int := Memory.lookup m.cells a

/-- Put an entry before the first entry of a greater address. -/
def Memory.place : List (Nat × Int) → Nat → Int → List (Nat × Int)
  | [], a, v => [(a, v)]
  | (b, u) :: rest, a, v => if a < b then (a, v) :: (b, u) :: rest else (b, u) :: Memory.place rest a v

/-- `mem[a] <- v` for an address below `len`: "in-place mutation, no resizing" (R52). -/
def Memory.set (m : Memory) (a : Nat) (v : Int) : Memory :=
  let others := m.cells.filter (fun e => e.1 ≠ a)
  { m with cells := if v = Memory.blank then others else Memory.place others a v }

/-- The address condition of every access: `0 ≤ a < L` (R50, R51, D5). -/
abbrev Memory.InBounds (m : Memory) (a : Int) : Prop := 0 ≤ a ∧ a < (m.len : Int)

/-- `MemRead(a, 1)` (R51): `none` is its OutOfBounds. -/
def Memory.read (m : Memory) (a : Int) : Option Int :=
  if m.InBounds a then some (m.get a.toNat) else none

/-- The cells from address `a` on, `n` of them. -/
def Memory.cellsFrom (m : Memory) (a n : Nat) : List Int :=
  (List.range n).map fun i => m.get (a + i)

/-- `Slice(a, n)` (R53): clamped to the end of memory; `none` is its OutOfBounds on an invalid start. -/
def Memory.slice (m : Memory) (a : Int) (n : Nat) : Option (List Int) :=
  if m.InBounds a then some (m.cellsFrom a.toNat (min n (m.len - a.toNat))) else none

/-- Write a list of cells from address `a` on. -/
def Memory.setAll (m : Memory) (a : Nat) : List Int → Memory
  | [] => m
  | v :: rest => (m.set a v).setAll (a + 1) rest

/-- The memory a program image loads (R23, R230): cell `a` holds the image's cell `a`. -/
def Memory.ofImage (image : List Int) : Memory :=
  Memory.setAll { len := image.length, cells := [] } 0 image

/-! ## The encodings of the status and the fault codes -/

/-- The encoding of `status` (R26, D10). -/
def Status.code : Status → Nat
  | .running => 0
  | .halted => 1
  | .faulted => 2

/-- The number of a fault code, as `fcode` and `acode` hold it (R28, R39, R161). -/
def FaultCode.code : FaultCode → Nat
  | .none => 0
  | .outOfBounds => 1
  | .unknownOpcode => 2
  | .unknownParameterMode => 3
  | .invalidStoreTarget => 4
  | .inputExhausted => 5
  | .overflow => 6
  | .excessOutput => 7
  | .deadlock => 8
  | .outputLogFull => 9

/-! ## How a step ends other than by its commit -/

/-- The fault code and the operands of a raise (R162, R163). -/
structure Raise where
  code : FaultCode
  param : Option Nat
  addr : Option Int
  deriving DecidableEq, Repr

/-- A step that does not commit raises or blocks (R9, R10). The third case is the model's own: a state with a missing part. -/
inductive Stop where
  /-- `raise F(info)`. -/
  | raise (r : Raise)
  /-- `block`. -/
  | block
  /-- A part of the state that is not there (log entry 10). -/
  | fault (f : Fault)
  deriving DecidableEq, Repr

/-- The raise of OutOfBounds at address `a` for parameter index `n` (R51, R163). -/
def outOfBounds (n : Option Nat) (a : Int) : Stop := .raise ⟨.outOfBounds, n, some a⟩

/-! ## The active core -/

/-- Core `k`, if it is there. -/
def State.core? (s : State) (k : Nat) : Option Vm := s.cores[k]?

/-- The core whose step is being run. -/
def State.vm (s : State) : Except Stop Vm :=
  match s.core? s.active with
  | some c => .ok c
  | none => .error (.fault .noCore)

/-- Write back the core whose step is being run. -/
def State.setVm (s : State) (c : Vm) : State := { s with cores := s.cores.set s.active c }

/-- The commit `mem[d] <- v ; pc <- pc + len` of an instruction that stores. -/
def Vm.store (c : Vm) (d : Nat) (v : Int) (len : Int) : Vm := { c with mem := c.mem.set d v, pc := c.pc + len }

/-- The commit `pc <- t`. -/
def Vm.goto (c : Vm) (t : Int) : Vm := { c with pc := t }

/-! ## Taking a fault -/

/-- The fault record a raise of a core fills (R163): `fcell` and `fop` are absent when the fetch itself failed. -/
def Vm.recordOf (c : Vm) (r : Raise) : FaultRecord where
  fcode := r.code
  fpc := some c.pc
  fcell := c.mem.read c.pc
  fop := (c.mem.read c.pc).map fun x => trem x 100
  fparam := r.param
  faddr := r.addr

/-- The abort of the pipeline by a core's fault: no partial results (R188). -/
def Controller.abortBy (p : Controller) (k : Nat) (f : FaultRecord) : Controller :=
  { p with pstatus := .aborted, abort := ⟨f.fcode, some k, some f⟩, result := none }

/-- What a raise does (R162): `status <- Faulted` and the fault record, nothing else of the core; in a pipeline the same
step aborts the run (R188). There is no handler and no return (R165). -/
def State.takeFault (s : State) (c : Vm) (r : Raise) : State :=
  let f := c.recordOf r
  let s' := s.setVm { c with status := .faulted, fault := f }
  match s.setting with
  | .standalone => s'
  | .pipeline => { s' with ctl := s.ctl.abortBy s.active f }

/-- The end of a step: its commit, its raise as a next state, or a block, which changes nothing (R9, R10, R123, R162). -/
def State.conclude (s : State) : Except Stop State → Host.Outcome State Fault Refusal
  | .ok s' => .next s'
  | .error .block => .next s
  | .error (.fault f) => .fault f
  | .error (.raise r) =>
    match s.core? s.active with
    | some c => .next (s.takeFault c r)
    | none => .fault .noCore

end Sys2Proof.Machine
end

