-- ==== Sys2Proof/Machine/Flags.lean ====
section
/-! DEFINITION. Results of computations: overflow and wrap, and the 0 or 1 of a comparison. The core has no flags
(spec 10_state.md R32), so these stand where other machines have flag computations. -/

namespace Sys2Proof.Machine

/-- `wrap(v)`: the unique `u` with `fits(u)` and `u ≡ v (mod 2^W)` (R7). -/
def wrap (w : Nat) (v : Int) : Int :=
  (v + ((2 ^ (w - 1) : Nat) : Int)) % ((2 ^ w : Nat) : Int) - ((2 ^ (w - 1) : Nat) : Int)

/-- Check P6 of add and mul: the exact result is stored unchanged when it fits, else it raises Overflow or wraps, as
`OVERFLOW_MODE` says (R112, D2). -/
def narrow (p : Params) (r : Int) : Except Stop Int :=
  if Fits p.w r then .ok r
  else match p.overflow with
    | .fault => .error (.raise ⟨.overflow, none, none⟩)
    | .wrap => .ok (wrap p.w r)

/-- "They write exactly 1 for true and 0 for false" (R142). -/
def truth (b : Bool) : Int := if b then 1 else 0

end Sys2Proof.Machine
end

