-- ==== Sys2Proof/Machine/Operands.lean ====
section
/-! DEFINITION. The two operand forms, as a source and as a destination (spec 30_encoding.md R86 to R88). -/

namespace Sys2Proof.Machine

/-- `Fetch(i)` for the parameter of 0-based index `n` (R87, check P5). -/
def fetch (c : Vm) (n : Nat) : Param → Except Stop Int
  | .immediate v => .ok v
  | .position a =>
    match c.mem.read a with
    | some v => .ok v
    | none => .error (outOfBounds (some n) a)

/-- `StoreTarget(i)` for the parameter of 0-based index `n` (R88): the mode check P7, then the bounds check P8. -/
def storeTarget (c : Vm) (n : Nat) : Param → Except Stop Nat
  | .immediate _ => .error (.raise ⟨.invalidStoreTarget, some n, none⟩)
  | .position a => if c.mem.InBounds a then .ok a.toNat else .error (outOfBounds (some n) a)

end Sys2Proof.Machine
end

