-- ==== Sys2Proof/Machine/Arith.lean ====
section
/-! DEFINITION. add and mul (spec 40_arithmetic.md). -/

namespace Sys2Proof.Machine

/-- The shape of add, mul, lt and eq (R110, R111, R140, R141): both sources are read (P5), the result is computed (P6),
the destination is checked (P7, P8), then `mem[d] <- r ; pc <- pc + 4`. -/
def storeBinary (f : Int → Int → Except Stop Int) (p1 p2 p3 : Param) (s : State) : Except Stop State := do
  let c ← s.vm
  let a ← fetch c 0 p1
  let b ← fetch c 1 p2
  let r ← f a b
  let d ← storeTarget c 2 p3
  .ok (s.setVm (c.store d r 4))

/-- add (R110). -/
def execAdd (p1 p2 p3 : Param) (s : State) : Host.Outcome State Fault Refusal :=
  s.conclude (storeBinary (fun a b => narrow s.params (a + b)) p1 p2 p3 s)

/-- mul (R111). -/
def execMul (p1 p2 p3 : Param) (s : State) : Host.Outcome State Fault Refusal :=
  s.conclude (storeBinary (fun a b => narrow s.params (a * b)) p1 p2 p3 s)

end Sys2Proof.Machine
end

