-- ==== Sys2Proof/Machine/Compare.lean ====
section
/-! DEFINITION. lt and eq (spec 43_compare.md). -/

namespace Sys2Proof.Machine

/-- lt (R140): a signed comparison, which never raises at P6 (R142). -/
def execLt (p1 p2 p3 : Param) (s : State) : Host.Outcome State Fault Refusal :=
  s.conclude (storeBinary (fun a b => .ok (truth (decide (a < b)))) p1 p2 p3 s)

/-- eq (R141). -/
def execEq (p1 p2 p3 : Param) (s : State) : Host.Outcome State Fault Refusal :=
  s.conclude (storeBinary (fun a b => .ok (truth (decide (a = b)))) p1 p2 p3 s)

end Sys2Proof.Machine
end

