-- ==== Sys2Proof/Machine/Halt.lean ====
section
/-! DEFINITION. halt (spec 44_halt.md). -/

namespace Sys2Proof.Machine

/-- The commit of halt: `status <- Halted ; done <- true`; the pc is not changed (R150). -/
def Vm.halt (c : Vm) : Vm := { c with status := .halted, done := true }

/-- The step of halt (R150). -/
def haltEffect (s : State) : Except Stop State := do
  let c ← s.vm
  .ok (s.setVm c.halt)

/-- halt (R150). -/
def execHalt (s : State) : Host.Outcome State Fault Refusal := s.conclude (haltEffect s)

end Sys2Proof.Machine
end

