-- ==== Sys2Proof/Machine/Ports.lean ====
section
/-! DEFINITION. The channel synchronizer and the two ports of a core (spec 60_exceptions.md R170 to R179, 41_io.md R120 to R126). -/

namespace Sys2Proof.Machine

/-- Core `k` is there and its status is Running: a live core, blocked or not (R176). -/
def State.isRunning (s : State) (k : Nat) : Bool :=
  match s.core? k with
  | some c => c.status == .running
  | none => false

/-- `producer_live` (R176). -/
def State.producerLive (s : State) (ch : Channel) : Bool :=
  match ch.producer with
  | some k => s.isRunning k
  | none => false

/-- `consumer_live` (R176): the sink is always live. -/
def State.consumerLive (s : State) (ch : Channel) : Bool :=
  match ch.consumer with
  | .core k => s.isRunning k
  | .sink => true

/-- `avail` (R174). -/
def Channel.avail (ch : Channel) : Bool := !ch.buf.isEmpty

/-- `head`, when `avail` (R174). -/
def Channel.head? (ch : Channel) : Option Int := ch.buf.head?

/-- `eos` (R174): no value now, and none can come. -/
def State.eos (s : State) (ch : Channel) : Bool := ch.buf.isEmpty && !s.producerLive ch

/-- `space` (R171, R175); the sink always has space. -/
def State.space (s : State) (ch : Channel) : Bool :=
  match ch.consumer with
  | .core _ => decide (ch.buf.length < s.params.cap)
  | .sink => true

/-- `dead` (R175): full, with no live consumer. -/
def State.dead (s : State) (ch : Channel) : Bool := !s.space ch && !s.consumerLive ch

/-- Push (R172). -/
def Channel.push (ch : Channel) (v : Int) : Channel := { ch with buf := ch.buf ++ [v] }

/-- Pop (R173). -/
def Channel.pop (ch : Channel) : Channel := { ch with buf := ch.buf.tail }

/-- Where the output port of a Channel-bound core leads (R182, R183). -/
inductive OutPort where
  | channel (j : Nat)
  | sink
  deriving DecidableEq, Repr

/-- The wiring of core `k`'s output: the next core's channel; the last core's is `ch[0]` in a feedback ring and the sink
in a linear chain (R182, R183). -/
def Controller.outPort (p : Controller) (k : Nat) : OutPort :=
  if k + 1 < p.config.n then .channel (k + 1)
  else match p.config.topology with
    | .feedback => .channel 0
    | .linear => .sink

/-- What an input transaction takes: the value, and the core and the channels once it is consumed. -/
structure Taken where
  value : Int
  vm : Vm
  chans : List Channel
  deriving DecidableEq, Repr

/-- `InTake()` (R122, check P9) for the active core `c`. -/
def inTake (s : State) (c : Vm) : Except Stop Taken :=
  match c.io with
  | .queue =>
    match c.inQ with
    | [] => .error (.raise ⟨.inputExhausted, some 0, none⟩)
    | v :: rest => .ok ⟨v, { c with inQ := rest }, s.chans⟩
  | .channel =>
    match s.chans[s.active]? with
    | none => .error (.fault .noChannel)
    | some ch =>
      match ch.head? with
      | some v => .ok ⟨v, c, s.chans.set s.active ch.pop⟩
      | none => if s.eos ch then .error (.raise ⟨.inputExhausted, some 0, none⟩) else .error .block

/-- What an output transaction commits: the core, the channels and the controller once the value is emitted. -/
structure Emitted where
  vm : Vm
  chans : List Channel
  ctl : Controller
  deriving DecidableEq, Repr

/-- The result tap: an emission of core `N-1` of a pipeline sets `result`, in both topologies and both modes (R179). -/
def State.tapped (s : State) (v : Int) : Controller :=
  match s.setting with
  | .standalone => s.ctl
  | .pipeline => if s.active + 1 = s.ctl.config.n then { s.ctl with result := some v } else s.ctl

/-- `out_log` is at a finite `OUT_LOG_CAP` (R126, D18). -/
def Vm.logFull (c : Vm) (p : Params) : Bool :=
  match p.outLogCap with
  | none => false
  | some n => c.outLog.length == n

/-- `OutPut(v)` (R126, check P9) for the active core `c`. -/
def outPut (s : State) (c : Vm) (v : Int) : Except Stop Emitted :=
  match c.io with
  | .queue =>
    if c.logFull s.params then .error (.raise ⟨.outputLogFull, some 0, none⟩)
    else .ok ⟨{ c with outLog := c.outLog ++ [v] }, s.chans, s.tapped v⟩
  | .channel =>
    match s.ctl.outPort s.active with
    | .sink => .ok ⟨c, s.chans, { s.tapped v with sink := s.ctl.sink ++ [v] }⟩
    | .channel j =>
      match s.chans[j]? with
      | none => .error (.fault .noChannel)
      | some ch =>
        if s.space ch then .ok ⟨c, s.chans.set j (ch.push v), s.tapped v⟩
        else if s.dead ch then .error (.raise ⟨.excessOutput, some 0, none⟩)
        else .error .block

end Sys2Proof.Machine
end

