-- ==== Sys2Proof/Machine/Io.lean ====
section
/-! DEFINITION. in and out (spec 41_io.md). -/

namespace Sys2Proof.Machine

/-- The step of in (R121): the destination is checked before a value is taken (D16), then
`mem[d] <- v ; consume v ; pc <- pc + 2`. -/
def inEffect (p1 : Param) (s : State) : Except Stop State := do
  let c ← s.vm
  let d ← storeTarget c 0 p1
  let t ← inTake s c
  .ok ({ s with chans := t.chans }.setVm (t.vm.store d t.value 2))

/-- The step of out (R125): the source is read, then the value is emitted and `pc <- pc + 2`. -/
def outEffect (p1 : Param) (s : State) : Except Stop State := do
  let c ← s.vm
  let v ← fetch c 0 p1
  let e ← outPut s c v
  .ok ({ s with chans := e.chans, ctl := e.ctl }.setVm (e.vm.goto (e.vm.pc + 2)))

/-- in (R121). -/
def execIn (p1 : Param) (s : State) : Host.Outcome State Fault Refusal := s.conclude (inEffect p1 s)

/-- out (R125). -/
def execOut (p1 : Param) (s : State) : Host.Outcome State Fault Refusal := s.conclude (outEffect p1 s)

end Sys2Proof.Machine
end

