-- ==== Sys2Proof/Machine/Jump.lean ====
section
/-! DEFINITION. jt and jf (spec 42_jumps.md). -/

namespace Sys2Proof.Machine

/-- The shape of jt and jf (R130, R131): both parameters are read, taken or not (D15); then the pc is the target, which
nothing checks here, or the next instruction. -/
def jumpIf (taken : Int → Bool) (p1 p2 : Param) (s : State) : Except Stop State := do
  let c ← s.vm
  let a ← fetch c 0 p1
  let t ← fetch c 1 p2
  .ok (s.setVm (c.goto (if taken a then t else c.pc + 3)))

/-- jt (R130). -/
def execJt (p1 p2 : Param) (s : State) : Host.Outcome State Fault Refusal :=
  s.conclude (jumpIf (fun a => decide (a ≠ 0)) p1 p2 s)

/-- jf (R131). -/
def execJf (p1 p2 : Param) (s : State) : Host.Outcome State Fault Refusal :=
  s.conclude (jumpIf (fun a => decide (a = 0)) p1 p2 s)

end Sys2Proof.Machine
end

