-- ==== Sys2Proof/Machine/Dispatch.lean ====
section
/-! DEFINITION. The meaning of each instruction, as the active core's step after decode (spec 30_encoding.md R92, `Execute_op`). -/

namespace Sys2Proof.Machine

def exec (i : Instr) (s : State) : Host.Outcome State Fault Refusal :=
  match i with
  | .add p1 p2 p3 => Sys2Proof.Machine.execAdd p1 p2 p3 s
  | .mul p1 p2 p3 => Sys2Proof.Machine.execMul p1 p2 p3 s
  | .inp p1 => Sys2Proof.Machine.execIn p1 s
  | .out p1 => Sys2Proof.Machine.execOut p1 s
  | .jt p1 p2 => Sys2Proof.Machine.execJt p1 p2 s
  | .jf p1 p2 => Sys2Proof.Machine.execJf p1 p2 s
  | .lt p1 p2 p3 => Sys2Proof.Machine.execLt p1 p2 p3 s
  | .eq p1 p2 p3 => Sys2Proof.Machine.execEq p1 p2 p3 s
  | .halt => Sys2Proof.Machine.execHalt s

end Sys2Proof.Machine
end

