-- ==== Sys2Proof/Machine/Fetch.lean ====
section
/-! DEFINITION. The fetch and decode of a step, checks P1 to P4 (spec 30_encoding.md R92). -/

namespace Sys2Proof.Machine

/-- The raise of a decode error of the instruction at `pc` (R83 to R85, R90, R163). -/
def decodeRaise (pc : Int) : DecodeError → Raise
  | .noOpcodeCell => ⟨.outOfBounds, none, some pc⟩
  | .unknownOpcode _ => ⟨.unknownOpcode, none, none⟩
  | .unknownParameterMode n => ⟨.unknownParameterMode, some n, none⟩
  | .missingParameter i => ⟨.outOfBounds, some (i - 1), some (pc + i)⟩

/-- Decode the instruction at a core's pc, "fresh from a memory window each step" (R53, R66, R92). -/
def Vm.fetchInstr (u : UnusedDigits) (c : Vm) : Except Stop Instr :=
  match c.mem.slice c.pc 4 with
  | none => .error (outOfBounds none c.pc)
  | some window =>
    match decode u window with
    | .ok i => .ok i
    | .error e => .error (.raise (decodeRaise c.pc e))

/-- P1 to P4 of the active core. -/
def State.fetchInstr (s : State) : Except Stop Instr := do
  let c ← s.vm
  c.fetchInstr s.params.unused

/-- Begin a step of core `k`: it is the one whose step runs, and it is started (R27, R36, R185, R190). -/
def State.select (s : State) (k : Nat) : State :=
  { s with active := k, cores := s.cores.modify k fun c => { c with started := true } }

/-- A core made ready to run the instruction whose cells are given: they stand at its pc, its memory reaches over them and
the core is Running (log entry 12). -/
def Vm.placed (c : Vm) (window : List Int) : Vm :=
  let at' := c.pc.toNat
  { c with
    mem := { c.mem with len := max c.mem.len (at' + window.length) }.setAll at' window
    pc := (at' : Int)
    status := .running
    done := false }

end Sys2Proof.Machine
end

