-- ==== Sys2Proof/Machine/Schedule.lean ====
section
/-! DEFINITION. Which agent takes the next step: blocked and enabled cores, the scheduler's choice, the controller
(spec 10_state.md R34, 60_exceptions.md R185 to R190). -/

namespace Sys2Proof.Machine

/-- The end of a step is `block`. -/
def endsInBlock : Except Stop State → Bool
  | .error .block => true
  | _ => false

/-- The step of this instruction by the active core would end in `block`: only in and out can (R34). -/
def instrBlocks (s : State) : Instr → Bool
  | .add _ _ _ => false
  | .mul _ _ _ => false
  | .inp p1 => endsInBlock (inEffect p1 s)
  | .out p1 => endsInBlock (outEffect p1 s)
  | .jt _ _ => false
  | .jf _ _ => false
  | .lt _ _ _ => false
  | .eq _ _ _ => false
  | .halt => false

/-- Core `k`'s step on this state would end in `block` (R34); a raise is no block. -/
def State.wouldBlock (s : State) (k : Nat) : Bool :=
  match (s.select k).fetchInstr with
  | .ok i => instrBlocks (s.select k) i
  | .error _ => false

/-- Core `k` is blocked (R34). -/
def State.blocked (s : State) (k : Nat) : Bool := s.isRunning k && s.wouldBlock k

/-- Core `k` is enabled (R34). -/
def State.enabled (s : State) (k : Nat) : Bool := s.isRunning k && !s.wouldBlock k

/-- The enabled cores, lowest first. -/
def State.enabledCores (s : State) : List Nat := (List.range s.cores.length).filter fun k => s.enabled k

/-- Every core has halted. -/
def State.allHalted (s : State) : Bool := s.cores.all fun c => c.status == .halted

/-- The core a choice takes from the enabled cores: any, as the choice says; the only one, when there is one (R185). -/
def pick (choice : Nat) : List Nat → Option Nat
  | [] => none
  | [k] => some k
  | ks => ks[choice % ks.length]?

/-! ## Controller steps -/

/-- The controller's abort without a core's fault (R187, R189, R190). -/
def Controller.abortWith (p : Controller) (code : FaultCode) (k : Option Nat) : Controller :=
  { p with pstatus := .aborted, abort := ⟨code, k, none⟩, result := none }

/-- The least channel that still holds values and is not the final edge, which is `ch[0]` of a feedback ring (R187). -/
def State.leftover? (s : State) : Option Nat :=
  (List.range s.chans.length).find? fun k =>
    match s.chans[k]? with
    | some ch => !ch.buf.isEmpty && !(s.ctl.config.topology == .feedback && k == 0)
    | none => false

/-- Termination of a concurrent run (R187). -/
def State.terminate (s : State) : State :=
  match s.params.strictExcess, s.leftover? with
  | true, some k => { s with ctl := s.ctl.abortWith .excessOutput (some k) }
  | _, _ => { s with ctl := { s.ctl with pstatus := .terminated } }

/-- Deadlock of a concurrent run (R189). -/
def State.deadlock (s : State) : State := { s with ctl := s.ctl.abortWith .deadlock none }

/-- The controller's step of a sync run whose core `cur` halted (R190, points 4 to 6): the excess check, then the next
core's input is its phase and this core's output log, or the run ends. -/
def State.advanceSync (s : State) (c : Vm) : Except Fault State :=
  if s.params.strictExcess && !c.inQ.isEmpty then
    .ok { s with ctl := s.ctl.abortWith .excessOutput (some s.ctl.cur) }
  else if s.ctl.cur + 1 < s.ctl.config.n then
    match s.core? (s.ctl.cur + 1), s.ctl.config.phases[s.ctl.cur + 1]? with
    | none, _ => .error .noCore
    | some _, none => .error .noPhase
    | some d, some phase =>
      .ok { s with
        cores := s.cores.set (s.ctl.cur + 1) { d with inQ := phase :: c.outLog }
        ctl := { s.ctl with cur := s.ctl.cur + 1 } }
  else .ok { s with ctl := { s.ctl with pstatus := .terminated } }

/-! ## The next step -/

/-- Who takes the next step. -/
inductive Plan where
  /-- Nobody: the machine has stopped or was not started. -/
  | idle
  /-- Core `k` runs one instruction. -/
  | core (k : Nat)
  /-- The controller takes a step to this state. -/
  | control (s : State)
  /-- A part of the state is not there. -/
  | stuck (f : Fault)
  deriving DecidableEq, Repr

/-- The next step of a standalone machine, the host's `step()` (R36): nothing unless the core is Running. -/
def State.planStandalone (s : State) : Plan :=
  match s.core? 0 with
  | none => .stuck .noCore
  | some c => if c.status = .running then .core 0 else .idle

/-- The next step of a sync run (R190). -/
def State.planSync (s : State) : Plan :=
  match s.core? s.ctl.cur with
  | none => .stuck .noCore
  | some c =>
    match c.status with
    | .running => .core s.ctl.cur
    | .faulted => .control { s with ctl := s.ctl.abortBy s.ctl.cur c.fault }
    | .halted =>
      match s.advanceSync c with
      | .ok s' => .control s'
      | .error f => .stuck f

/-- The next step of a concurrent run: an enabled core, freely chosen, else the controller (R185, R187, R189). -/
def State.planConcurrent (choice : Nat) (s : State) : Plan :=
  match pick choice s.enabledCores with
  | some k => .core k
  | none => .control (if s.allHalted then s.terminate else s.deadlock)

/-- Who takes the next step, under a scheduler's choice. A pipeline moves only while `pstatus = Running` (R185, R188). -/
def State.plan (choice : Nat) (s : State) : Plan :=
  match s.setting with
  | .standalone => s.planStandalone
  | .pipeline =>
    match s.ctl.pstatus with
    | .running =>
      match s.ctl.config.mode with
      | .sync => s.planSync
      | .concurrent => s.planConcurrent choice
    | .idle => .idle
    | .terminated => .idle
    | .aborted => .idle

/-- A concurrent run has made a scheduler's choice: its next one reads the next free value (log entry 3). -/
def State.chose (s : State) : State :=
  match s.setting, s.ctl.config.mode with
  | .pipeline, .concurrent => { s with choices := s.choices + 1 }
  | _, _ => s

end Sys2Proof.Machine
end

