-- ==== Sys2Proof/Machine/Step.lean ====
section
/-! DEFINITION. One step of the machine (spec 30_encoding.md R92, 10_state.md R36, 60_exceptions.md R185 to R190). -/

namespace Sys2Proof.Machine

/-- The step of the active core: fetch and decode (P1 to P4), then the instruction (R92). -/
def State.runActive (s : State) : Host.Outcome State Fault Refusal :=
  match s.fetchInstr with
  | .ok i => exec i s
  | .error e => s.conclude (.error e)

/-- One step under a scheduler's choice: a core's instruction, a controller step, or nothing. -/
def stepWith (choice : Nat) (s : State) : Host.Outcome State Fault Refusal :=
  match s.plan choice with
  | .idle => .next s
  | .stuck f => .fault f
  | .control s' => .next s'
  | .core k => (s.chose.select k).runActive

/-- One step of the machine. The scheduler's choice is the free value `Config.schedule` (R185). -/
def step (s : State) : Host.Outcome State Fault Refusal := stepWith (Config.schedule s.choices) s

/-- `s` with the instruction whose bits are `w` where the next step fetches: the machine is standalone and its core 0 is
Running with the instruction's window at its pc (log entry 12). -/
def State.withFetchWord (s : State) (nbits w : Nat) : State :=
  let window := tableCells s.params.w nbits w
  let c := (s.core? 0).getD (Vm.resetWith .queue [] { len := 0, cells := [] })
  { s with setting := .standalone, cores := c.placed window :: s.cores.tail }

end Sys2Proof.Machine
end

