-- ==== Sys2Proof/Machine/Loader.lean ====
section
/-! DEFINITION. The host's loader: the text of a program image (spec 60_exceptions.md R197). Texts are lists of characters. -/

namespace Sys2Proof.Machine

/-- Why a host action answers an error and changes nothing (R196 to R198, R180). -/
inductive HostError where
  /-- `peek` or `poke` outside `[0, L)` (R196, R198). -/
  | outOfBounds (a : Int)
  /-- `MalformedProgramText(field text, field index)` (R197). DEDUCED: the index counts from 0, which R197 does not
  say (log entry 15). -/
  | malformedProgramText (field : List Char) (index : Nat)
  /-- `ImageTooLarge` (R197). -/
  | imageTooLarge
  /-- A value of an image, a `poke`, an input list or a phase that no cell can hold (R22, log entry 17). -/
  | notACell (v : Int)
  /-- The action is not allowed in this state (R196, D32). -/
  | notAllowed
  /-- There is no such core. -/
  | noCore (k : Nat)
  /-- The configuration is refused (R180, D36). -/
  | badConfiguration
  deriving DecidableEq, Repr

/-- Line terminators are removed and the lines concatenated (R197). -/
def dropLineEnds (text : List Char) : List Char := text.filter fun c => !(c == '\n' || c == '\r')

/-- Split a text at every separator; an empty text is one empty field (R197). -/
def splitAtEvery (sep : Char) : List Char → List (List Char)
  | [] => [[]]
  | c :: rest =>
    if c = sep then [] :: splitAtEvery sep rest
    else match splitAtEvery sep rest with
      | [] => [[c]]
      | f :: fs => (c :: f) :: fs

/-- A space or a tab. -/
def isBlank (c : Char) : Bool := c == ' ' || c == '\t'

/-- A field with its leading and trailing spaces and tabs removed (R197). -/
def trimBlanks (f : List Char) : List Char := ((f.dropWhile isBlank).reverse.dropWhile isBlank).reverse

/-- The value of a decimal digit. -/
def digitValue (c : Char) : Option Nat :=
  if 48 ≤ c.toNat ∧ c.toNat ≤ 57 then some (c.toNat - 48) else none

/-- The number whose digits follow those of `acc`. -/
def digitsFrom (acc : Nat) : List Char → Option Nat
  | [] => some acc
  | c :: rest =>
    match digitValue c with
    | some d => digitsFrom (10 * acc + d) rest
    | none => none

/-- `[0-9]+` -/
def parseNat : List Char → Option Nat
  | [] => none
  | cs => digitsFrom 0 cs

/-- `[+-]?[0-9]+` (R197). -/
def parseInt : List Char → Option Int
  | '-' :: rest => (parseNat rest).map fun n => -(n : Int)
  | '+' :: rest => (parseNat rest).map fun n => (n : Int)
  | cs => (parseNat cs).map fun n => (n : Int)

/-- The cell of one field: an integer that fits (R197). -/
def parseField (w : Nat) (f : List Char) : Option Int :=
  match parseInt (trimBlanks f) with
  | some v => if Fits w v then some v else none
  | none => none

/-- The cells of the fields from index `at'` on; the first malformed field is reported, as it stands in the text (R197, log entry 15). -/
def parseFields (w : Nat) : (at' : Nat) → List (List Char) → Except HostError (List Int)
  | _, [] => .ok []
  | at', f :: fs =>
    match parseField w f with
    | none => .error (.malformedProgramText f at')
    | some v =>
      match parseFields w (at' + 1) fs with
      | .ok vs => .ok (v :: vs)
      | .error e => .error e

/-- An image is one the core can hold (R23, R197, R230). DESIGN CHOICE: of an image that both holds a value no cell can hold
and is too long, the value is answered (log entry 30). -/
def checkImage (p : Params) (image : List Int) : Except HostError Unit :=
  match image.find? fun v => ¬Fits p.w v with
  | some v => .error (.notACell v)
  | none => if image.length ≤ p.maxMemLen then .ok () else .error .imageTooLarge

/-- The image of a program text (R197). DEDUCED: the fields are numbered from 0 (log entry 15). -/
def parseProgram (p : Params) (text : List Char) : Except HostError (List Int) :=
  match parseFields p.w 0 (splitAtEvery ',' (dropLineEnds text)) with
  | .error e => .error e
  | .ok image =>
    match checkImage p image with
    | .error e => .error e
    | .ok _ => .ok image

end Sys2Proof.Machine
end

