-- ==== Sys2Proof/Machine/Actions.lean ====
section
/-! DEFINITION. The host's actions (spec 60_exceptions.md R180 to R184, R196, R198; 70_reset_and_hazards.md R230, R231).
Each answers the new state, or an error and no change. They are outside `step`: the spec gives no queue of them (log entry 13). -/

namespace Sys2Proof.Machine

/-- The run of a pipeline has ended (R196): after that no core takes a step, and its cores are stopped, also those whose
status is still Running (R188). -/
abbrev State.RunEnded (s : State) : Prop :=
  s.setting = .pipeline ∧ (s.ctl.pstatus = .terminated ∨ s.ctl.pstatus = .aborted)

/-- The core `c` may be loaded: it is not started, or it has stopped (R196), by its own status or with its pipeline's run. -/
abbrev State.MayLoad (s : State) (c : Vm) : Prop := c.started = false ∨ c.status ≠ .running ∨ s.RunEnded

/-- `load(image)` into core `k` (R193, R196): the core reset of R230, with its binding as configured. Nothing else changes,
also when the core is one of a pipeline (log entry 13). DESIGN CHOICE: the input is empty then; a list that `set_input` gave
before the load is not the host-supplied list of R30 and R230, the host supplies its list after the load (R232, log entry
29). -/
def load (k : Nat) (image : List Int) (s : State) : Except HostError State :=
  match s.core? k with
  | none => .error (.noCore k)
  | some c =>
    if s.MayLoad c then
      match checkImage s.params image with
      | .error e => .error e
      | .ok _ => .ok { s with cores := s.cores.set k (Vm.resetWith c.io [] (Memory.ofImage image)) }
    else .error .notAllowed

/-- `load_text(text)` into core `k` (R196, R197). DESIGN CHOICE: the text's error is answered before any of `load`'s (log
entry 30). -/
def loadText (k : Nat) (text : List Char) (s : State) : Except HostError State := do
  let image ← parseProgram s.params text
  load k image s

/-- `poke(a, v)` on core `k`, only before its first step (R196, R198). It sets no fault record. DESIGN CHOICE: a value no
cell can hold is answered before an address outside memory (log entry 30). -/
def poke (k : Nat) (a v : Int) (s : State) : Except HostError State :=
  match s.core? k with
  | none => .error (.noCore k)
  | some c =>
    if c.started then .error .notAllowed
    else if ¬Fits s.params.w v then .error (.notACell v)
    else if c.mem.InBounds a then .ok { s with cores := s.cores.set k { c with mem := c.mem.set a.toNat v } }
    else .error (.outOfBounds a)

/-- `set_input(list)` on core `k`, only in Queue binding and before its first step (R196). DESIGN CHOICE: the table of R196
asks nothing more, so it is allowed on a core of a Running sync pipeline that has not started, and replaces there the input
that the controller handed over, although R196 also says that the host supplies no input during a run (log entry 25). -/
def setInput (k : Nat) (input : List Int) (s : State) : Except HostError State :=
  match s.core? k with
  | none => .error (.noCore k)
  | some c =>
    if c.started ∨ c.io ≠ .queue then .error .notAllowed
    else match input.find? fun v => ¬Fits s.params.w v with
      | some v => .error (.notACell v)
      | none => .ok { s with cores := s.cores.set k { c with inQ := input } }

/-- `peek(a)` of core `k`: no state change; outside `[0, L)` an OutOfBounds error to the host (R196). -/
def peek (k : Nat) (a : Int) (s : State) : Except HostError Int :=
  match s.core? k with
  | none => .error (.noCore k)
  | some c =>
    match c.mem.read a with
    | some v => .ok v
    | none => .error (.outOfBounds a)

/-- The seeds of core `k`'s input (R184, R190): the phase, and for core 0 the initial signal 0. -/
def seeds (config : PipeConfig) (k : Nat) : List Int :=
  let phase := (config.phases[k]?).toList
  if k = 0 then phase ++ [0] else phase

/-- The producer of `ch[k]` (R182, R183). -/
def wiredProducer (config : PipeConfig) (k : Nat) : Option Nat :=
  if k = 0 then
    match config.topology with
    | .linear => none
    | .feedback => some (config.n - 1)
  else some (k - 1)

/-- The channels of a pipeline after reset: wired and seeded in concurrent mode, none in sync mode (R182 to R184, R231). -/
def wiredChannels (config : PipeConfig) : List Channel :=
  match config.mode with
  | .sync => []
  | .concurrent => (List.range config.n).map fun k => ⟨seeds config k, wiredProducer config k, .core k⟩

/-- Core `k` of a pipeline after reset (R181, R231): Channel binding in concurrent mode, Queue binding in sync mode, where
core 0's input is prepared (R190). -/
def pipelineCore (config : PipeConfig) (image : List Int) (k : Nat) : Vm :=
  match config.mode with
  | .concurrent => Vm.resetWith .channel [] (Memory.ofImage image)
  | .sync => Vm.resetWith .queue (if k = 0 then seeds config 0 else []) (Memory.ofImage image)

/-- `configure_pipeline` (R180 to R184, R196, R231). DESIGN CHOICE: the condition of R196 is on `pstatus` only, which a
standalone machine has at Idle, so the action is allowed there too, also while the standalone core is started and Running;
that core and its memory are gone then (log entry 27). A refused configuration is answered before a refused image, which the
spec does not order (log entry 30). -/
def configurePipeline (image : List Int) (config : PipeConfig) (s : State) : Except HostError State := do
  if s.ctl.pstatus = .running then .error .notAllowed
  else if ¬config.Wf s.params.w then .error .badConfiguration
  else
    checkImage s.params image
    .ok { s with
      setting := .pipeline
      cores := (List.range config.n).map (pipelineCore config image)
      chans := wiredChannels config
      ctl := { Controller.reset with config := config }
      active := 0 }

/-- `start_pipeline()` (R196): of a pipeline that is configured and Idle. -/
def startPipeline (s : State) : Except HostError State :=
  if s.setting = .pipeline ∧ s.ctl.pstatus = .idle then .ok { s with ctl := { s.ctl with pstatus := .running } }
  else .error .notAllowed

/-- The host actions that change the state, but for `step()` and `run()` (R196). -/
inductive HostAction where
  | load (k : Nat) (image : List Int)
  | loadText (k : Nat) (text : List Char)
  | poke (k : Nat) (a v : Int)
  | setInput (k : Nat) (input : List Int)
  | configurePipeline (image : List Int) (config : PipeConfig)
  | startPipeline
  deriving DecidableEq, Repr

/-- What a host action does. -/
def act (a : HostAction) (s : State) : Except HostError State :=
  match a with
  | .load k image => load k image s
  | .loadText k text => loadText k text s
  | .poke k a v => poke k a v s
  | .setInput k input => setInput k input s
  | .configurePipeline image config => configurePipeline image config s
  | .startPipeline => startPipeline s

/-- The host's `run()` of a standalone core, at most `fuel` steps: `step()` until `status ≠ Running` (R37). -/
def run : (fuel : Nat) → State → Host.Outcome State Fault Refusal
  | 0, s => .next s
  | fuel + 1, s =>
    if s.isRunning 0 then
      match step s with
      | .next s' => run fuel s'
      | .fault f => .fault f
      | .refused r => .refused r
    else .next s

end Sys2Proof.Machine
end

