-- ==== Sys2Proof/Safety.lean ====
section
/-! DEFINITION. What claims are stated in: the invariants of the machine, reachable states, runs and their fairness. -/

namespace Sys2Proof.Machine

/-- Every cell of a fault record is a cell value (R22, R28). -/
abbrev FaultRecord.CellsFit (w : Nat) (f : FaultRecord) : Prop :=
  (∀ v ∈ f.fpc, Fits w v) ∧ (∀ v ∈ f.fcell, Fits w v) ∧ (∀ v ∈ f.fop, Fits w v) ∧ (∀ v ∈ f.faddr, Fits w v)

/-- The data of a core are in range: "every memory cell, every channel value, every input and output value and the pc are
cells" (R22), memory is canonical and no longer than `MAX_MEM_LEN` (R23), the log is within `OUT_LOG_CAP` (R31). -/
structure Vm.DataOk (p : Params) (c : Vm) : Prop where
  memWf : c.mem.wf
  memLen : c.mem.len ≤ p.maxMemLen
  memFits : ∀ e ∈ c.mem.cells, Fits p.w e.2
  pcFits : Fits p.w c.pc
  inFits : ∀ v ∈ c.inQ, Fits p.w v
  outFits : ∀ v ∈ c.outLog, Fits p.w v
  logCap : ∀ n ∈ p.outLogCap, c.outLog.length ≤ n
  faultFits : c.fault.CellsFit p.w

/-- The data of a channel are in range: of a channel that a core reads, only seeds, at most two, make the buffer longer
than `CAP` (R172, R177, R184). -/
structure Channel.DataOk (p : Params) (ch : Channel) : Prop where
  bufFits : ∀ v ∈ ch.buf, Fits p.w v
  bufLen : ch.consumer ≠ .sink → ch.buf.length ≤ max 2 p.cap

/-- Every value the machine holds is in range. -/
structure State.DataOk (s : State) : Prop where
  params : s.params.Wf
  cores : ∀ c ∈ s.cores, c.DataOk s.params
  chans : ∀ ch ∈ s.chans, ch.DataOk s.params
  sink : ∀ v ∈ s.ctl.sink, Fits s.params.w v
  result : ∀ v ∈ s.ctl.result, Fits s.params.w v
  phases : ∀ v ∈ s.ctl.config.phases, Fits s.params.w v
  abort : ∀ f ∈ s.ctl.abort.afault, f.CellsFit s.params.w

/-- The status bits and the fault record of a core agree: `done = (status = Halted)` (R26), and the record is written only
by a raise, with the pc the core stops at (R28, R162). -/
structure Vm.StatusOk (c : Vm) : Prop where
  done : c.done = true ↔ c.status = .halted
  faulted : c.status = .faulted ↔ c.fault.fcode ≠ .none
  faultPc : c.status = .faulted → c.fault.fpc = some c.pc
  clean : c.fault.fcode = .none → c.fault = .empty

/-- A pipeline is arranged as it was configured (R180 to R183, R190) and its status says what R187 to R190 make it say. -/
structure State.PipelineOk (s : State) : Prop where
  config : s.ctl.config.Wf s.params.w
  count : s.cores.length = s.ctl.config.n
  sync : s.ctl.config.mode = .sync →
    s.chans = [] ∧ (∀ c ∈ s.cores, c.io = .queue) ∧ s.ctl.cur < s.ctl.config.n ∧
    (s.ctl.pstatus = .running → ∀ k c, s.core? k = some c → s.ctl.cur < k → c.status = .running)
  concurrent : s.ctl.config.mode = .concurrent →
    s.chans.length = s.ctl.config.n ∧ (∀ c ∈ s.cores, c.io = .channel) ∧
    ∀ k ch, s.chans[k]? = some ch → ch.producer = wiredProducer s.ctl.config k ∧ ch.consumer = .core k
  unfaulted : s.ctl.pstatus = .idle ∨ s.ctl.pstatus = .running → ∀ c ∈ s.cores, c.status ≠ .faulted
  idle : s.ctl.pstatus = .idle → s.ctl.cur = 0 ∧ ∀ c ∈ s.cores, c.status = .running
  aborted : s.ctl.pstatus = .aborted → s.ctl.abort.acode ≠ .none ∧ s.ctl.result = none
  notAborted : s.ctl.pstatus ≠ .aborted → s.ctl.abort = .empty

/-- The machine is arranged legally: a standalone core in Queue binding with no channels (R193), or a pipeline. -/
structure State.ControlOk (s : State) : Prop where
  cores : ∀ c ∈ s.cores, c.StatusOk
  standalone : s.setting = .standalone →
    (∃ c, s.cores = [c] ∧ c.io = .queue) ∧ s.chans = [] ∧ s.ctl = .reset
  pipeline : s.setting = .pipeline → s.PipelineOk

/-- The cores of a pipeline that a run is done with have halted: those before the current one of a sync run, all of a
terminated run (R187, R190). Every step keeps it; a `load` into a stopped core, which R196 allows, does not. -/
def State.RunOrder (s : State) : Prop :=
  s.setting = .pipeline →
    (s.ctl.config.mode = .sync → s.ctl.pstatus = .running → ∀ k c, s.core? k = some c → k < s.ctl.cur → c.status = .halted) ∧
    (s.ctl.pstatus = .terminated → ∀ c ∈ s.cores, c.status = .halted)

/-- The invariant of the machine. -/
structure State.Ok (s : State) : Prop where
  data : s.DataOk
  control : s.ControlOk

/-- The states the hardware of parameters `p` reaches from reset by its steps, under every scheduler's choice (R185), and
by the host's actions (R196). -/
inductive Reachable (p : Params) : State → Prop where
  | reset : Reachable p (State.resetFor p)
  | step (choice : Nat) {s s' : State} : Reachable p s → stepWith choice s = .next s' → Reachable p s'
  | act (a : HostAction) {s s' : State} : Reachable p s → act a s = .ok s' → Reachable p s'

/-- A concurrent pipeline in its run. -/
def State.ConcurrentRun (s : State) : Prop :=
  s.setting = .pipeline ∧ s.ctl.pstatus = .running ∧ s.ctl.config.mode = .concurrent

/-- A sync pipeline in its run. -/
def State.SyncRun (s : State) : Prop :=
  s.setting = .pipeline ∧ s.ctl.pstatus = .running ∧ s.ctl.config.mode = .sync

/-- An infinite run of the machine under a scheduler. -/
def IsRun (choice : Nat → Nat) (run : Nat → State) : Prop :=
  ∀ n, stepWith (choice n) (run n) = .next (run (n + 1))

/-- Weak fairness (R186): in a concurrent run, a core that stays enabled while the run goes on is eventually chosen. A run
that has ended, by an abort too, owes no core a step (R188). An assumption of claims, not of the machine (log entry 18). -/
def WeaklyFair (choice : Nat → Nat) (run : Nat → State) : Prop :=
  ∀ k n, ∃ m, n ≤ m ∧
    (¬(run m).ConcurrentRun ∨ (run m).enabled k = false ∨ (run m).plan (choice m) = .core k)

/-- No core has faulted and no run was aborted: what a claim about results assumes or proves. -/
def State.Clean (s : State) : Prop := (∀ c ∈ s.cores, c.status ≠ .faulted) ∧ s.ctl.pstatus ≠ .aborted

/-- The parameter reads as `v`: the literal, or the cell at its address, which must exist (R87). -/
def ReadsAs (c : Vm) (p : Param) (v : Int) : Prop :=
  match p with
  | .immediate x => v = x
  | .position a => c.mem.InBounds a ∧ v = c.mem.get a.toNat

/-- The parameter is a destination, and its address is `d` (R88). -/
def StoresAt (c : Vm) (p : Param) (d : Nat) : Prop :=
  match p with
  | .immediate _ => False
  | .position a => c.mem.InBounds a ∧ d = a.toNat

/-- The core `c` of `s` is the one whose step is being run. -/
def State.Active (s : State) (c : Vm) : Prop := s.core? s.active = some c

/-- Core `c` ends its step with a fault: `status <- Faulted` and a record that holds the code, the pc and the opcode cell
before the step, the parameter index and the address (R162, R163). -/
def Vm.faultedBy (c : Vm) (code : FaultCode) (param : Option Nat) (addr : Option Int) : Vm :=
  { c with
    status := .faulted
    fault := ⟨code, some c.pc, c.mem.read c.pc, (c.mem.read c.pc).map fun x => trem x 100, param, addr⟩ }

/-- The machine `t` is `s` after its active core `c` raised a fault: the core is faulted, and if it is in a pipeline the
run is aborted with that core and its record and has no result; nothing else differs (R162, R188). -/
def RaisedIn (s : State) (c : Vm) (code : FaultCode) (param : Option Nat) (addr : Option Int) (t : State) : Prop :=
  t = { s with
    cores := s.cores.set s.active (c.faultedBy code param addr)
    ctl := match s.setting with
      | .standalone => s.ctl
      | .pipeline =>
        { s.ctl with
          pstatus := .aborted
          abort := ⟨code, some s.active, some (c.faultedBy code param addr).fault⟩
          result := none } }

/-- Channel `k` still holds values and is not the final edge (R187). -/
def State.Leftover (s : State) (k : Nat) : Prop :=
  ∃ ch, s.chans[k]? = some ch ∧ ch.buf ≠ [] ∧ ¬(s.ctl.config.topology = .feedback ∧ k = 0)

/-- Nothing but core `k` of the cores differs. -/
def SameOtherCores (k : Nat) (s t : State) : Prop := ∀ j, j ≠ k → t.core? j = s.core? j

/-- Nothing of the machine but its active core, its channels and its controller differs. -/
def SameMachine (s t : State) : Prop :=
  t.params = s.params ∧ t.setting = s.setting ∧ t.active = s.active ∧ t.choices = s.choices ∧
    t.cores.length = s.cores.length ∧ SameOtherCores s.active s t

/-- Nothing of a core but its memory, pc, status, done flag, fault record, input queue and output log differs, and its
memory keeps its length. -/
def SameFixed (c d : Vm) : Prop := d.started = c.started ∧ d.io = c.io ∧ d.mem.len = c.mem.len

/-- The core `d` is `c` after a step that did not complete: only its status and fault record may differ (R123, R162). -/
def SameButFault (c d : Vm) : Prop := d = { c with status := d.status, fault := d.fault }

end Sys2Proof.Machine
end

