-- ==== Sys2Proof/Certificates/Slice0/Obligations.lean ====
section
/-! DEFINITION. The statements about the model, for the provers: what each says and the rules of spec/ it rests on are in OBLIGATIONS.json. -/

open Sys2Proof Sys2Proof.Machine

/-! ## Encoding (30_encoding.md) -/

/-- Encoding an instruction and decoding it gives it back, whatever cells follow and whatever `UNUSED_MODE_DIGITS` is (R95). -/
def Obligations.DecodeOfEncodeIsIdentity : Prop :=
  ∀ (u : UnusedDigits) (i : Instr) (rest : List Int), decode u (encode i ++ rest) = .ok i

/-- With `UNUSED_MODE_DIGITS = fault`, every window that decodes begins with the encoding of what it decodes to (R81 to R86, R95). -/
def Obligations.DecodedWindowIsAnEncoding : Prop :=
  ∀ (window : List Int) (i : Instr), decode .fault window = .ok i → ∃ rest, window = encode i ++ rest

/-- Words written out from the encodings of R80, R81 and R89 decode to the instructions they stand for. -/
def Obligations.SpecWordsDecode : Prop :=
  decode .fault [1, 9, 10, 4] = .ok (.add (.position 9) (.position 10) (.position 4)) ∧
  decode .fault [1002, 4, 3, 4, 33] = .ok (.mul (.position 4) (.immediate 3) (.position 4)) ∧
  decode .fault [3, 9] = .ok (.inp (.position 9)) ∧
  decode .fault [104, -7, 99] = .ok (.out (.immediate (-7))) ∧
  decode .fault [1105, 1, 4, 0] = .ok (.jt (.immediate 1) (.immediate 4)) ∧
  decode .fault [6, 11, 12, 104] = .ok (.jf (.position 11) (.position 12)) ∧
  decode .fault [107, 0, 27, 29] = .ok (.lt (.immediate 0) (.position 27) (.position 29)) ∧
  decode .fault [11108, 1, 1, 5] = .ok (.eq (.immediate 1) (.immediate 1) (.immediate 5)) ∧
  decode .fault [99] = .ok .halt

/-- The opcode value is the truncated remainder: 0 to 99 for a cell `≥ 0`, -99 to 0 for a negative cell, and every negative
opcode cell is an unknown opcode, whatever its mode digits (R82). -/
def Obligations.NegativeOpcodeCellsAreUnknown : Prop :=
  ∀ c : Int,
    (0 ≤ c → trem c 100 = c % 100 ∧ 0 ≤ trem c 100 ∧ trem c 100 ≤ 99) ∧
    (c < 0 → -99 ≤ trem c 100 ∧ trem c 100 ≤ 0 ∧
      ∀ (u : UnusedDigits) (ps : List Int), decode u (c :: ps) = .error (.unknownOpcode (trem c 100)))

/-- A window decodes past check P2 only with an opcode value of the map: every value outside {1, …, 8, 99} is an unknown
opcode, and no value of the map is (R89, R90). -/
def Obligations.IllegalOpcodesAreUnknown : Prop :=
  ∀ (u : UnusedDigits) (c : Int) (ps : List Int),
    decode u (c :: ps) = .error (.unknownOpcode (trem c 100)) ↔
      trem c 100 ∉ ([1, 2, 3, 4, 5, 6, 7, 8, 99] : List Int)

/-- The first mode digit that is not 0 or 1 is reported, with the 0-based index of its parameter (R83). -/
def Obligations.FirstBadModeDigitIsReported : Prop :=
  ∀ (u : UnusedDigits) (c : Int) (ps : List Int) (op : Op) (i : Nat),
    Op.ofCode (trem c 100) = some op → 1 ≤ i → i ≤ op.nparams →
    (∀ j, 1 ≤ j → j < i → digit c (j + 1) = 0 ∨ digit c (j + 1) = 1) →
    ¬(digit c (i + 1) = 0 ∨ digit c (i + 1) = 1) →
    decode u (c :: ps) = .error (.unknownParameterMode (i - 1))

/-- With `UNUSED_MODE_DIGITS = fault`, the least non-zero digit above the last parameter's is reported with its place
minus 2; with `ignore`, the window decodes as the one whose opcode cell lacks those digits (R84). -/
def Obligations.UnusedDigitsFaultOrAreIgnored : Prop :=
  ∀ (c : Int) (ps : List Int) (op : Op), Op.ofCode (trem c 100) = some op →
    (∀ j, op.nparams + 2 ≤ j → digit c j ≠ 0 → (∀ i, op.nparams + 2 ≤ i → i < j → digit c i = 0) →
      (∀ i, 1 ≤ i → i ≤ op.nparams → digit c (i + 1) = 0 ∨ digit c (i + 1) = 1) →
      decode .fault (c :: ps) = .error (.unknownParameterMode (j - 2))) ∧
    decode .ignore (c :: ps) = decode .fault (trem c ((10 ^ (op.nparams + 2) : Nat) : Int) :: ps)

/-- When a parameter cell does not exist, decode stops at the least such parameter, and the fetch of a core raises
OutOfBounds at `pc + i` (R85, R163). -/
def Obligations.MissingParameterCellRaises : Prop :=
  ∀ (c : Vm) (op : Op) (u : UnusedDigits) (i : Nat),
    c.mem.InBounds c.pc →
    Op.ofCode (trem (c.mem.get c.pc.toNat) 100) = some op →
    checkModes (c.mem.get c.pc.toNat) 1 op.nparams = .ok () →
    checkUnused u (c.mem.get c.pc.toNat) op.nparams = .ok () →
    1 ≤ i → i ≤ op.nparams → c.pc + i = c.mem.len →
    c.fetchInstr u = .error (.raise ⟨.outOfBounds, some (i - 1), some (c.pc + i)⟩)

/-! ## Memory (20_memory.md) -/

/-- The set-get law, and a write changes only the cell at its address (R54). -/
def Obligations.SetThenGet : Prop :=
  ∀ (m : Memory) (a : Int) (v : Int), m.InBounds a →
    (m.set a.toNat v).read a = some v ∧ ∀ b, b ≠ a → (m.set a.toNat v).read b = m.read b

/-- A read raises OutOfBounds exactly below 0 and at or above `L`, and else answers the cell (R51). -/
def Obligations.ReadIsBoundsChecked : Prop :=
  ∀ (c : Vm) (n : Nat) (a : Int),
    ((a < 0 ∨ (c.mem.len : Int) ≤ a) → fetch c n (.position a) = .error (.raise ⟨.outOfBounds, some n, some a⟩)) ∧
    (¬(a < 0 ∨ (c.mem.len : Int) ≤ a) → fetch c n (.position a) = .ok (c.mem.get a.toNat))

/-- The decode window is clamped to the end of memory, holds the cells from its start on, and fails only on an invalid
start (R53). -/
def Obligations.SliceIsClamped : Prop :=
  ∀ (m : Memory) (a : Int) (n : Nat),
    ((a < 0 ∨ (m.len : Int) ≤ a) → m.slice a n = none) ∧
    (¬(a < 0 ∨ (m.len : Int) ≤ a) → ∃ window, m.slice a n = some window ∧
      window.length = min n (m.len - a.toNat) ∧
      ∀ (i : Nat) (v : Int), window[i]? = some v → m.read (a + i) = some v)

/-! ## Results of the instructions: each completes here (40 to 44) -/

/-- add stores the sum when it fits, and the pc advances by 4 (R110). -/
def Obligations.AddStoresSum : Prop :=
  ∀ (s : State) (c : Vm) (p1 p2 p3 : Param) (a b : Int) (d : Nat),
    s.Active c → ReadsAs c p1 a → ReadsAs c p2 b → Fits s.params.w (a + b) → StoresAt c p3 d →
    exec (.add p1 p2 p3) s =
      .next { s with cores := s.cores.set s.active { c with mem := c.mem.set d (a + b), pc := c.pc + 4 } }

/-- mul stores the product when it fits, and the pc advances by 4 (R111). -/
def Obligations.MulStoresProduct : Prop :=
  ∀ (s : State) (c : Vm) (p1 p2 p3 : Param) (a b : Int) (d : Nat),
    s.Active c → ReadsAs c p1 a → ReadsAs c p2 b → Fits s.params.w (a * b) → StoresAt c p3 d →
    exec (.mul p1 p2 p3) s =
      .next { s with cores := s.cores.set s.active { c with mem := c.mem.set d (a * b), pc := c.pc + 4 } }

/-- When the exact result does not fit, add and mul raise Overflow, with no write, before the destination is looked at; or
they store its wrap-around (R112). -/
def Obligations.AddMulOutsideTheRange : Prop :=
  ∀ (s : State) (c : Vm) (p1 p2 p3 : Param) (a b : Int),
    s.Active c → ReadsAs c p1 a → ReadsAs c p2 b →
    (s.params.overflow = .fault →
      (¬Fits s.params.w (a + b) → ∃ t, exec (.add p1 p2 p3) s = .next t ∧ RaisedIn s c .overflow none none t) ∧
      (¬Fits s.params.w (a * b) → ∃ t, exec (.mul p1 p2 p3) s = .next t ∧ RaisedIn s c .overflow none none t)) ∧
    (s.params.overflow = .wrap → ∀ d, StoresAt c p3 d →
      (¬Fits s.params.w (a + b) → exec (.add p1 p2 p3) s = .next { s with
        cores := s.cores.set s.active { c with mem := c.mem.set d (wrap s.params.w (a + b)), pc := c.pc + 4 } }) ∧
      (¬Fits s.params.w (a * b) → exec (.mul p1 p2 p3) s = .next { s with
        cores := s.cores.set s.active { c with mem := c.mem.set d (wrap s.params.w (a * b)), pc := c.pc + 4 } }))

/-- `wrap(v)` is the unique value in the cell range that is congruent to `v` modulo `2^W` (R7). -/
def Obligations.WrapIsTheCongruentCell : Prop :=
  ∀ (w : Nat) (v : Int), 1 ≤ w →
    Fits w (wrap w v) ∧ ((2 ^ w : Nat) : Int) ∣ wrap w v - v ∧
    ∀ u : Int, Fits w u → ((2 ^ w : Nat) : Int) ∣ u - v → u = wrap w v

/-- in, Queue binding: the head of `in_q` is stored and consumed, and the pc advances by 2 (R121, R122). -/
def Obligations.InTakesFromTheQueue : Prop :=
  ∀ (s : State) (c : Vm) (p1 : Param) (d : Nat) (v : Int) (rest : List Int),
    s.Active c → StoresAt c p1 d → c.io = .queue → c.inQ = v :: rest →
    exec (.inp p1) s = .next { s with
      cores := s.cores.set s.active { c with mem := c.mem.set d v, inQ := rest, pc := c.pc + 2 } }

/-- in, Channel binding: the head of the core's channel is stored and consumed (R121, R122, R173). -/
def Obligations.InTakesFromTheChannel : Prop :=
  ∀ (s : State) (c : Vm) (p1 : Param) (d : Nat) (ch : Channel) (v : Int) (rest : List Int),
    s.Active c → StoresAt c p1 d → c.io = .channel → s.chans[s.active]? = some ch → ch.buf = v :: rest →
    exec (.inp p1) s = .next { s with
      chans := s.chans.set s.active { ch with buf := rest }
      cores := s.cores.set s.active { c with mem := c.mem.set d v, pc := c.pc + 2 } }

/-- out, Queue binding: the value is appended to `out_log` unless the log is at `OUT_LOG_CAP`; in a pipeline the last
core's value is the result (R125, R126, R179). -/
def Obligations.OutAppendsToTheLog : Prop :=
  ∀ (s : State) (c : Vm) (p1 : Param) (v : Int),
    s.Active c → ReadsAs c p1 v → c.io = .queue → s.params.outLogCap ≠ some c.outLog.length →
    exec (.out p1) s = .next { s with
      cores := s.cores.set s.active { c with outLog := c.outLog ++ [v], pc := c.pc + 2 }
      ctl := { s.ctl with
        result := if s.setting = .pipeline ∧ s.active + 1 = s.ctl.config.n then some v else s.ctl.result } }

/-- out, Channel binding: the value is pushed into the output channel when it has space; the last core's value is the
result, also in a feedback ring (R125, R126, R172, R179, R182, R183). -/
def Obligations.OutPushesIntoTheChannel : Prop :=
  ∀ (s : State) (c : Vm) (p1 : Param) (v : Int) (j k : Nat) (ch : Channel),
    s.Active c → ReadsAs c p1 v → c.io = .channel →
    ((s.active + 1 < s.ctl.config.n ∧ j = s.active + 1) ∨
      (¬s.active + 1 < s.ctl.config.n ∧ s.ctl.config.topology = .feedback ∧ j = 0)) →
    s.chans[j]? = some ch → ch.consumer = .core k → ch.buf.length < s.params.cap →
    exec (.out p1) s = .next { s with
      cores := s.cores.set s.active { c with pc := c.pc + 2 }
      chans := s.chans.set j { ch with buf := ch.buf ++ [v] }
      ctl := { s.ctl with
        result := if s.setting = .pipeline ∧ s.active + 1 = s.ctl.config.n then some v else s.ctl.result } }

/-- out of the last core of a linear chain goes to the sink, never blocks, and is the result (R178, R179). -/
def Obligations.OutOfTheLastCoreGoesToTheSink : Prop :=
  ∀ (s : State) (c : Vm) (p1 : Param) (v : Int),
    s.Active c → ReadsAs c p1 v → c.io = .channel → s.setting = .pipeline →
    s.active + 1 = s.ctl.config.n → s.ctl.config.topology = .linear →
    exec (.out p1) s = .next { s with
      cores := s.cores.set s.active { c with pc := c.pc + 2 }
      ctl := { s.ctl with sink := s.ctl.sink ++ [v], result := some v } }

/-- jt goes to the target when the condition is not 0, jf when it is 0; else the pc advances by 3 (R130, R131). -/
def Obligations.JumpsGoByTheCondition : Prop :=
  ∀ (s : State) (c : Vm) (p1 p2 : Param) (a t : Int),
    s.Active c → ReadsAs c p1 a → ReadsAs c p2 t →
    exec (.jt p1 p2) s = .next { s with
      cores := s.cores.set s.active { c with pc := if a ≠ 0 then t else c.pc + 3 } } ∧
    exec (.jf p1 p2) s = .next { s with
      cores := s.cores.set s.active { c with pc := if a = 0 then t else c.pc + 3 } }

/-- lt and eq store exactly 1 for true and 0 for false, lt by the signed comparison, and the pc advances by 4 (R140 to R142). -/
def Obligations.ComparisonsStoreOneOrZero : Prop :=
  ∀ (s : State) (c : Vm) (p1 p2 p3 : Param) (a b : Int) (d : Nat),
    s.Active c → ReadsAs c p1 a → ReadsAs c p2 b → StoresAt c p3 d →
    exec (.lt p1 p2 p3) s = .next { s with
      cores := s.cores.set s.active { c with mem := c.mem.set d (if a < b then 1 else 0), pc := c.pc + 4 } } ∧
    exec (.eq p1 p2 p3) s = .next { s with
      cores := s.cores.set s.active { c with mem := c.mem.set d (if a = b then 1 else 0), pc := c.pc + 4 } }

/-- halt sets `status <- Halted` and `done <- true`, and does not change the pc (R150). -/
def Obligations.HaltStopsTheCore : Prop :=
  ∀ (s : State) (c : Vm), s.Active c →
    exec .halt s = .next { s with cores := s.cores.set s.active { c with status := .halted, done := true } }

/-! ## Faults and blocks of the instructions (41, 60) -/

/-- A position-mode source whose address does not exist raises OutOfBounds with that address, `p1` before `p2` and before
anything that is checked later; a jump reads `p2` taken or not (R87, R110, R125, R130, R163). -/
def Obligations.SourceOutOfBoundsRaises : Prop :=
  ∀ (s : State) (c : Vm) (p p2 p3 : Param) (a v : Int), s.Active c → ¬c.mem.InBounds a →
    (∀ i ∈ [Instr.add (.position a) p2 p3, .mul (.position a) p2 p3, .lt (.position a) p2 p3, .eq (.position a) p2 p3,
        .jt (.position a) p2, .jf (.position a) p2, .out (.position a)],
      ∃ t, exec i s = .next t ∧ RaisedIn s c .outOfBounds (some 0) (some a) t) ∧
    (ReadsAs c p v → ∀ i ∈ [Instr.add p (.position a) p3, .mul p (.position a) p3, .lt p (.position a) p3,
        .eq p (.position a) p3, .jt p (.position a), .jf p (.position a)],
      ∃ t, exec i s = .next t ∧ RaisedIn s c .outOfBounds (some 1) (some a) t)

/-- An immediate destination raises InvalidStoreTarget, a destination whose address does not exist raises OutOfBounds, after
the sources were read and the result was computed (fitting, or wrapped), and before in takes a value (R88, R110, R121, R140,
R163). -/
def Obligations.BadDestinationRaises : Prop :=
  ∀ (s : State) (c : Vm) (p1 p2 : Param) (x a b : Int), s.Active c → ReadsAs c p1 a → ReadsAs c p2 b →
    (∀ i, (i ∈ [Instr.lt p1 p2 (.immediate x), .eq p1 p2 (.immediate x)] ∨
        (i = .add p1 p2 (.immediate x) ∧ (Fits s.params.w (a + b) ∨ s.params.overflow = .wrap)) ∨
        (i = .mul p1 p2 (.immediate x) ∧ (Fits s.params.w (a * b) ∨ s.params.overflow = .wrap))) →
      ∃ t, exec i s = .next t ∧ RaisedIn s c .invalidStoreTarget (some 2) none t) ∧
    (∃ t, exec (.inp (.immediate x)) s = .next t ∧ RaisedIn s c .invalidStoreTarget (some 0) none t) ∧
    (¬c.mem.InBounds x →
      (∀ i, (i ∈ [Instr.lt p1 p2 (.position x), .eq p1 p2 (.position x)] ∨
          (i = .add p1 p2 (.position x) ∧ (Fits s.params.w (a + b) ∨ s.params.overflow = .wrap)) ∨
          (i = .mul p1 p2 (.position x) ∧ (Fits s.params.w (a * b) ∨ s.params.overflow = .wrap))) →
        ∃ t, exec i s = .next t ∧ RaisedIn s c .outOfBounds (some 2) (some x) t) ∧
      ∃ t, exec (.inp (.position x)) s = .next t ∧ RaisedIn s c .outOfBounds (some 0) (some x) t)

/-- in raises InputExhausted on an empty queue and on an empty channel whose producer is absent or has halted (R122, R174,
R176); nothing is written but the core's status and record. -/
def Obligations.InputExhaustedRaises : Prop :=
  ∀ (s : State) (c : Vm) (p1 : Param) (d : Nat), s.Active c → StoresAt c p1 d →
    ((c.io = .queue ∧ c.inQ = []) ∨
      (c.io = .channel ∧ ∃ ch, s.chans[s.active]? = some ch ∧ ch.buf = [] ∧
        ∀ k e, ch.producer = some k → s.core? k = some e → e.status ≠ .running)) →
    ∃ t, exec (.inp p1) s = .next t ∧ RaisedIn s c .inputExhausted (some 0) none t

/-- out raises OutputLogFull at a finite `OUT_LOG_CAP`, and ExcessOutput on a full channel whose consumer has halted, the
channel of the next core or, for the last core of a ring, channel 0 (R126, R175, R182, R183). -/
def Obligations.OutputFaultsRaise : Prop :=
  ∀ (s : State) (c : Vm) (p1 : Param) (v : Int), s.Active c → ReadsAs c p1 v →
    (c.io = .queue → s.params.outLogCap = some c.outLog.length →
      ∃ t, exec (.out p1) s = .next t ∧ RaisedIn s c .outputLogFull (some 0) none t) ∧
    (∀ (j k : Nat) (ch : Channel) (e : Vm), c.io = .channel →
      ((s.active + 1 < s.ctl.config.n ∧ j = s.active + 1) ∨
        (¬s.active + 1 < s.ctl.config.n ∧ s.ctl.config.topology = .feedback ∧ j = 0)) →
      s.chans[j]? = some ch → ch.consumer = .core k → s.params.cap ≤ ch.buf.length →
      s.core? k = some e → e.status ≠ .running →
      ∃ t, exec (.out p1) s = .next t ∧ RaisedIn s c .excessOutput (some 0) none t)

/-- in on an empty channel with a live producer, and out into a full channel with a live consumer, block: the step changes
nothing (R122, R123, R126). -/
def Obligations.BlockedStepChangesNothing : Prop :=
  ∀ (s : State) (c : Vm) (p1 : Param), s.Active c → c.io = .channel →
    (∀ (d k : Nat) (ch : Channel) (e : Vm), StoresAt c p1 d → s.chans[s.active]? = some ch → ch.buf = [] →
      ch.producer = some k → s.core? k = some e → e.status = .running → exec (.inp p1) s = .next s) ∧
    (∀ (v : Int) (j k : Nat) (ch : Channel) (e : Vm), ReadsAs c p1 v →
      ((s.active + 1 < s.ctl.config.n ∧ j = s.active + 1) ∨
        (¬s.active + 1 < s.ctl.config.n ∧ s.ctl.config.topology = .feedback ∧ j = 0)) →
      s.chans[j]? = some ch → ch.consumer = .core k → s.params.cap ≤ ch.buf.length →
      s.core? k = some e → e.status = .running → exec (.out p1) s = .next s)

/-- A step that faults is precise: when the active core is Faulted after an instruction and was not before, nothing but its
status and record, and in a pipeline the abort, differs (R162, R163, R188). -/
def Obligations.FaultsArePrecise : Prop :=
  ∀ (i : Instr) (s t : State) (c d : Vm), s.Active c → c.status ≠ .faulted → exec i s = .next t →
    t.Active d → d.status = .faulted →
    ∃ code param addr, RaisedIn s c code param addr t ∧
      code ∈ [FaultCode.outOfBounds, .invalidStoreTarget, .inputExhausted, .overflow, .excessOutput, .outputLogFull]

/-- A fetch or decode fault is raised by the step of the core that runs, standalone or in a pipeline of either mode:
OutOfBounds at P1, UnknownOpcode at P2, UnknownParameterMode at P3, OutOfBounds at P4 (R92, R161, R163, R188). -/
def Obligations.DecodeFaultsRaise : Prop :=
  ∀ (choice : Nat) (s : State) (k : Nat) (c : Vm), s.plan choice = .core k → s.core? k = some c →
    ((¬c.mem.InBounds c.pc) →
      ∃ t, stepWith choice s = .next t ∧
        RaisedIn (s.chose.select k) { c with started := true } .outOfBounds none (some c.pc) t) ∧
    ∀ window, c.mem.slice c.pc 4 = some window →
      (∀ op, decode s.params.unused window = .error (.unknownOpcode op) →
        ∃ t, stepWith choice s = .next t ∧
          RaisedIn (s.chose.select k) { c with started := true } .unknownOpcode none none t) ∧
      (∀ n, decode s.params.unused window = .error (.unknownParameterMode n) →
        ∃ t, stepWith choice s = .next t ∧
          RaisedIn (s.chose.select k) { c with started := true } .unknownParameterMode (some n) none t) ∧
      (∀ i, decode s.params.unused window = .error (.missingParameter i) →
        ∃ t, stepWith choice s = .next t ∧
          RaisedIn (s.chose.select k) { c with started := true } .outOfBounds (some (i - 1)) (some (c.pc + i)) t)

/-- A jump validates its target only at the next fetch: the jump itself completes, and the next step raises OutOfBounds with
the target as the pc and the address (R24, R130, R131). -/
def Obligations.JumpTargetIsCheckedAtTheNextFetch : Prop :=
  ∀ (s t : State) (c : Vm) (p1 p2 : Param) (a x : Int),
    s.setting = .standalone → s.active = 0 → s.Active c → c.status = .running →
    ReadsAs c p1 a → ReadsAs c p2 x → ¬c.mem.InBounds x →
    ((a ≠ 0 ∧ exec (.jt p1 p2) s = .next t) ∨ (a = 0 ∧ exec (.jf p1 p2) s = .next t)) →
    t.core? 0 = some { c with pc := x } ∧
      ∃ u, step t = .next u ∧
        RaisedIn (t.select 0) { c with pc := x, started := true } .outOfBounds none (some x) u

/-! ## Frames -/

/-- add, mul, lt and eq leave everything but the active core alone, and of it all but the pc and the cell at the destination
address; when they do not complete, only the status, the record and the controller may differ. -/
def Obligations.StoringInstructionsFrame : Prop :=
  ∀ (s t : State) (c : Vm) (p1 p2 p3 : Param) (i : Instr),
    i ∈ [Instr.add p1 p2 p3, .mul p1 p2 p3, .lt p1 p2 p3, .eq p1 p2 p3] → s.Active c → exec i s = .next t →
    SameMachine s t ∧ t.chans = s.chans ∧
    ∃ d, t.Active d ∧ SameFixed c d ∧ d.done = c.done ∧ d.inQ = c.inQ ∧ d.outLog = c.outLog ∧
      (∀ a : Int, (∀ x, StoresAt c p3 x → a ≠ (x : Int)) → d.mem.read a = c.mem.read a) ∧
      ((d.status = c.status ∧ d.fault = c.fault ∧ t.ctl = s.ctl ∧ d.pc = c.pc + 4) ∨ SameButFault c d)

/-- in leaves everything but the active core and its input port alone: of the core only the pc, the cell at the destination
address and the input queue differ, of the channels only its own (R120 to R122). -/
def Obligations.InFrame : Prop :=
  ∀ (s t : State) (c : Vm) (p1 : Param), s.Active c → exec (.inp p1) s = .next t →
    SameMachine s t ∧ (∀ j, j ≠ s.active → t.chans[j]? = s.chans[j]?) ∧ (c.io = .queue → t.chans = s.chans) ∧
    ∃ d, t.Active d ∧ SameFixed c d ∧ d.done = c.done ∧ d.outLog = c.outLog ∧ (c.io = .channel → d.inQ = c.inQ) ∧
      (∀ a : Int, (∀ x, StoresAt c p1 x → a ≠ (x : Int)) → d.mem.read a = c.mem.read a) ∧
      ((d.status = c.status ∧ d.fault = c.fault ∧ t.ctl = s.ctl ∧ d.pc = c.pc + 2) ∨
        (SameButFault c d ∧ t.chans = s.chans))

/-- out writes no memory: of the core only the pc and, in Queue binding, the output log differ, of the channels only the one
its output port leads to, of the controller only the sink, where the port leads, and the last core's result (R125, R126). -/
def Obligations.OutFrame : Prop :=
  ∀ (s t : State) (c : Vm) (p1 : Param), s.Active c → exec (.out p1) s = .next t →
    SameMachine s t ∧ (∀ j, s.ctl.outPort s.active ≠ .channel j → t.chans[j]? = s.chans[j]?) ∧
    (c.io = .queue → t.chans = s.chans ∧ t.ctl.sink = s.ctl.sink) ∧
    (s.ctl.outPort s.active ≠ .sink → t.ctl.sink = s.ctl.sink) ∧
    ∃ d, t.Active d ∧ SameFixed c d ∧ d.done = c.done ∧ d.inQ = c.inQ ∧ d.mem = c.mem ∧
      (c.io = .channel → d.outLog = c.outLog) ∧
      ((d.status = c.status ∧ d.fault = c.fault ∧ d.pc = c.pc + 2 ∧
          t.ctl = { s.ctl with
            sink := t.ctl.sink
            result := if s.setting = .pipeline ∧ s.active + 1 = s.ctl.config.n then t.ctl.result else s.ctl.result }) ∨
        (SameButFault c d ∧ t.chans = s.chans))

/-- jt and jf write nothing but the pc; halt nothing but the status and the done flag (R130, R131, R150). -/
def Obligations.JumpAndHaltFrame : Prop :=
  ∀ (s t : State) (c : Vm) (p1 p2 : Param) (i : Instr), i ∈ [Instr.jt p1 p2, .jf p1 p2, .halt] → s.Active c →
    exec i s = .next t →
    SameMachine s t ∧ t.chans = s.chans ∧
    ∃ d, t.Active d ∧
      ((d = { c with pc := d.pc } ∧ t.ctl = s.ctl ∧ i ≠ .halt) ∨
        (d = { c with status := .halted, done := true } ∧ t.ctl = s.ctl ∧ i = .halt) ∨ (SameButFault c d ∧ i ≠ .halt))

/-- A stored cell is seen by the next fetch of it: the window at any pc that reaches over the destination holds the stored
value there (R66, R234). -/
def Obligations.StoreIsSeenByTheNextFetch : Prop :=
  ∀ (c : Vm) (p : Param) (d n : Nat) (v len a : Int) (window : List Int), StoresAt c p d →
    (c.store d v len).mem.slice a n = some window → a ≤ d → (d : Int) < a + window.length →
    window[((d : Int) - a).toNat]? = some v

/-! ## The step (30_encoding.md R92, 10_state.md R36) -/

/-- When the plan is a core's step and its window decodes, the step is the meaning of that instruction at the state in which
that core is active and started, and a concurrent run has counted its choice; nothing else is around it (R92, R185). -/
def Obligations.StepRunsTheDecodedInstruction : Prop :=
  ∀ (choice : Nat) (s : State) (k : Nat) (c : Vm) (window : List Int) (i : Instr),
    s.plan choice = .core k → s.core? k = some c → c.mem.slice c.pc 4 = some window →
    decode s.params.unused window = .ok i →
    stepWith choice s = exec i { s with
      active := k
      cores := s.cores.set k { c with started := true }
      choices := if s.setting = .pipeline ∧ s.ctl.config.mode = .concurrent then s.choices + 1 else s.choices }

/-- The host's `step()` on a standalone core: it changes nothing when the core is not Running; else it sets `started` and
performs the step; a step that blocks changes nothing but `started` (R36). `active` is the model's own field (log entry 4). -/
def Obligations.HostStepOfAStandaloneCore : Prop :=
  ∀ (s : State) (c : Vm), s.setting = .standalone → s.core? 0 = some c →
    (c.status ≠ .running → step s = .next s) ∧
    (c.status = .running → (∀ choice, s.plan choice = .core 0) ∧ step s = (s.select 0).runActive ∧
      s.select 0 = { s with active := 0, cores := s.cores.set 0 { c with started := true } }) ∧
    (s.blocked 0 = true → step s = .next { s with active := 0, cores := s.cores.set 0 { c with started := true } })

/-! ## Invariants -/

/-- Reset, under any legal parameters, meets the invariant and the order of a run; the defaults of R6 are legal. The
arrangement at reset and `MAX_MEM_LEN` are the model's choice (log entries 5 and 6). -/
def Obligations.ResetIsOk : Prop :=
  (∀ p : Params, p.Wf → (State.resetFor p).Ok ∧ (State.resetFor p).RunOrder) ∧
    Params.default.Wf ∧ State.reset.Ok ∧ State.reset.RunOrder

/-- Every step keeps every value in the cell range, memory canonical and of its length bound, the logs and the channels
within their capacities (R22, R23, R24, R31, R172). -/
def Obligations.StepKeepsDataInRange : Prop :=
  ∀ (choice : Nat) (s t : State), s.DataOk → stepWith choice s = .next t → t.DataOk

/-- Every step keeps status, done flag and fault record in agreement, and the pipeline's arrangement and status as R180 to
R190 say; and it keeps the order in which a run's cores halt (R26, R28, R35, R39, R187, R190). -/
def Obligations.StepKeepsControlConsistent : Prop :=
  ∀ (choice : Nat) (s t : State), s.ControlOk → stepWith choice s = .next t →
    t.ControlOk ∧ (s.RunOrder → t.RunOrder)

/-- From every legally arranged state, under every choice, a step answers a next state: no instruction and no controller
step is refused or stops the machine. -/
def Obligations.EveryStepAnswersANextState : Prop :=
  ∀ (choice : Nat) (s : State), s.ControlOk → ∃ t, stepWith choice s = .next t

/-- The host's actions keep the invariant (R196). -/
def Obligations.HostActionsKeepOk : Prop :=
  ∀ (a : HostAction) (s t : State), s.Ok → act a s = .ok t → t.Ok

/-- Every state the hardware reaches meets the invariant, and a step from it answers a next state, under every schedule. The
state it is reached from and what the host may do between steps are the model's choice (log entries 5 and 13). -/
def Obligations.ReachableStatesAreOk : Prop :=
  ∀ (p : Params) (s : State), p.Wf → Reachable p s → s.Ok ∧ s.params = p ∧ ∀ choice, ∃ t, stepWith choice s = .next t

/-! ## Whole-machine rules -/

/-- `Halted` and `Faulted` are terminal: no step of any agent changes a core that is not Running (R35, R151, R165). -/
def Obligations.StoppedCoresNeverChange : Prop :=
  ∀ (choice : Nat) (s t : State) (k : Nat) (c : Vm), s.ControlOk → stepWith choice s = .next t → s.core? k = some c →
    c.status ≠ .running → t.core? k = some c

/-- Cores share no memory: the step of a core changes no other core; a step of no core changes nothing of any core but the
input queue of the next core of a sync run (R61, R63, R190). -/
def Obligations.StepChangesOneCore : Prop :=
  ∀ (choice : Nat) (s t : State), stepWith choice s = .next t →
    (∀ k, s.plan choice = .core k → SameOtherCores k s t) ∧
    ((∀ k, s.plan choice ≠ .core k) → ∀ j c, s.core? j = some c →
      ∃ d, t.core? j = some d ∧ d = { c with inQ := d.inQ } ∧
        (d.inQ = c.inQ ∨ (s.SyncRun ∧ j = s.ctl.cur + 1)))

/-- No step changes the parameters, the arrangement, a memory's length, a core's binding or a channel's wiring; `started`
and `done` are never cleared, and only the raise of a Running core writes its record (R23, R25, R27, R28, R29, R38). -/
def Obligations.StepKeepsWhatIsFixed : Prop :=
  ∀ (choice : Nat) (s t : State), stepWith choice s = .next t →
    t.params = s.params ∧ t.setting = s.setting ∧ t.ctl.config = s.ctl.config ∧
    t.cores.length = s.cores.length ∧ t.chans.length = s.chans.length ∧
    (∀ k c, s.core? k = some c → ∃ d, t.core? k = some d ∧ d.mem.len = c.mem.len ∧ d.io = c.io ∧
      (c.started = true → d.started = true) ∧ (c.done = true → d.done = true) ∧
      (d.fault = c.fault ∨ (c.status = .running ∧ d.status = .faulted))) ∧
    ∀ (k : Nat) (ch : Channel), s.chans[k]? = some ch →
      ∃ ch', t.chans[k]? = some ch' ∧ ch'.producer = ch.producer ∧ ch'.consumer = ch.consumer

/-- Channels are FIFO: in one step a channel is unchanged, loses its head, or gains one value at its end, and it gains one
only while it holds fewer than `CAP` (or its consumer is the sink) (R65, R172, R173). -/
def Obligations.ChannelsAreFifo : Prop :=
  ∀ (choice : Nat) (s t : State) (k : Nat) (ch : Channel), stepWith choice s = .next t → s.chans[k]? = some ch →
    ∃ ch', t.chans[k]? = some ch' ∧
      (ch'.buf = ch.buf ∨ (∃ v, ch.buf = v :: ch'.buf) ∨
        ∃ v, ch'.buf = ch.buf ++ [v] ∧ (ch.buf.length < s.params.cap ∨ ch.consumer = .sink))

/-- A concurrent run steps only enabled cores, any enabled core may be the one, and while one is enabled the controller does
not step (R185). -/
def Obligations.SchedulerMayChooseAnyEnabledCore : Prop :=
  ∀ s : State, s.ConcurrentRun →
    (∀ choice k, s.plan choice = .core k → s.enabled k = true) ∧
    (∀ k, s.enabled k = true → ∃ choice, s.plan choice = .core k) ∧
    (∀ k, s.enabled k = true → ∀ choice, ∃ j, s.plan choice = .core j)

/-- A core that is enabled stays enabled until it is chosen, as long as the run goes on: no step of another core disables it. -/
def Obligations.EnabledCoreStaysEnabled : Prop :=
  ∀ (choice : Nat) (s t : State) (j k : Nat), s.ControlOk → s.ConcurrentRun → s.enabled j = true →
    s.plan choice = .core k → k ≠ j → stepWith choice s = .next t → t.ctl.pstatus = .running → t.enabled j = true

/-! ## Channels and pipeline (60_exceptions.md) -/

/-- The port signals of a channel between two cores (R174, R175, R176). -/
def Obligations.ChannelSignals : Prop :=
  ∀ (s : State) (ch : Channel) (k : Nat), ch.consumer = .core k →
    (ch.avail = true ↔ ch.buf ≠ []) ∧
    (ch.avail = true → ch.head? = ch.buf[0]?) ∧
    (s.producerLive ch = true ↔ ∃ j e, ch.producer = some j ∧ s.core? j = some e ∧ e.status = .running) ∧
    (s.consumerLive ch = true ↔ ∃ e, s.core? k = some e ∧ e.status = .running) ∧
    (s.eos ch = true ↔ ch.buf = [] ∧ s.producerLive ch = false) ∧
    (s.space ch = true ↔ ch.buf.length < s.params.cap) ∧
    (s.dead ch = true ↔ s.space ch = false ∧ s.consumerLive ch = false) ∧
    (∀ e : Channel, e.consumer = .sink → s.space e = true ∧ s.dead e = false ∧ s.consumerLive e = true)

/-- Termination of a concurrent run whose cores have all halted: the least channel, other than the final edge, that still
holds values aborts it under `STRICT_EXCESS`; else it is Terminated and keeps the result (R187). -/
def Obligations.ConcurrentTermination : Prop :=
  ∀ (choice : Nat) (s : State), s.ConcurrentRun → (∀ c ∈ s.cores, c.status = .halted) →
    (∀ k, s.params.strictExcess = true → s.Leftover k → (∀ j, j < k → ¬s.Leftover j) →
      stepWith choice s = .next { s with
        ctl := { s.ctl with pstatus := .aborted, abort := ⟨.excessOutput, some k, none⟩, result := none } }) ∧
    ((s.params.strictExcess = false ∨ ∀ k, ¬s.Leftover k) →
      stepWith choice s = .next { s with ctl := { s.ctl with pstatus := .terminated } })

/-- Deadlock: when no core is enabled and some core has not halted, the run is aborted with Deadlock, and every core that has
not halted is blocked (R189). -/
def Obligations.DeadlockAborts : Prop :=
  ∀ (choice : Nat) (s : State), s.ControlOk → s.ConcurrentRun → (∀ k, s.enabled k = false) →
    (∃ c ∈ s.cores, c.status ≠ .halted) →
    stepWith choice s = .next { s with
      ctl := { s.ctl with pstatus := .aborted, abort := ⟨.deadlock, none, none⟩, result := none } } ∧
    ∀ k c, s.core? k = some c → c.status ≠ .halted → s.blocked k = true

/-- A core's fault aborts the pipeline in the same step, with the core, its code and a copy of its record and no result; the
other cores and the channels keep their state, and no step changes the machine after that (R188). -/
def Obligations.FaultAbortsThePipeline : Prop :=
  ∀ (choice : Nat) (s t : State) (k : Nat) (c d : Vm), s.setting = .pipeline → stepWith choice s = .next t →
    s.core? k = some c → c.status ≠ .faulted → t.core? k = some d → d.status = .faulted →
    t.ctl.pstatus = .aborted ∧ t.ctl.abort = ⟨d.fault.fcode, some k, some d.fault⟩ ∧ t.ctl.result = none ∧
      SameOtherCores k s t ∧ t.chans = s.chans ∧ ∀ choice', stepWith choice' t = .next t

/-- The controller's step of a sync run whose current core halted: the excess check, then the hand-over of the output log
behind the next phase, or the end (R190). -/
def Obligations.SyncHandOver : Prop :=
  ∀ (choice : Nat) (s : State) (c : Vm), s.SyncRun → s.core? s.ctl.cur = some c → c.status = .halted →
    (s.params.strictExcess = true → c.inQ ≠ [] →
      stepWith choice s = .next { s with
        ctl := { s.ctl with pstatus := .aborted, abort := ⟨.excessOutput, some s.ctl.cur, none⟩, result := none } }) ∧
    ((s.params.strictExcess = false ∨ c.inQ = []) →
      (∀ (d : Vm) (phase : Int), s.ctl.cur + 1 < s.ctl.config.n → s.core? (s.ctl.cur + 1) = some d →
        s.ctl.config.phases[s.ctl.cur + 1]? = some phase →
        stepWith choice s = .next { s with
          cores := s.cores.set (s.ctl.cur + 1) { d with inQ := [phase] ++ c.outLog }
          ctl := { s.ctl with cur := s.ctl.cur + 1 } }) ∧
      (¬s.ctl.cur + 1 < s.ctl.config.n →
        stepWith choice s = .next { s with ctl := { s.ctl with pstatus := .terminated } }))

/-- Every committed `out` of core `N-1` sets the result, and no other step sets one: a step leaves the result, clears it in
an abort, or is such an `out` (R179, R187, R188). -/
def Obligations.ResultTap : Prop :=
  ∀ (choice : Nat) (s t : State), stepWith choice s = .next t →
    t.ctl.result = s.ctl.result ∨ (t.ctl.result = none ∧ t.ctl.pstatus = .aborted) ∨
      ∃ (k : Nat) (c : Vm) (window : List Int) (p : Param) (v : Int),
        s.plan choice = .core k ∧ s.core? k = some c ∧ c.mem.slice c.pc 4 = some window ∧
        decode s.params.unused window = .ok (.out p) ∧ ReadsAs c p v ∧
        s.setting = .pipeline ∧ k + 1 = s.ctl.config.n ∧ t.ctl.result = some v

/-! ## Reset and the host (60_exceptions.md R196 to R198, 70_reset_and_hazards.md) -/

/-- `load(image)` into a core that is not started or has stopped, of an image the core can hold, leaves that core with every
field at its reset value, its binding as configured and the image in its memory, and changes nothing else; into a started
core that is Running it is not allowed, unless its pipeline's run has ended, which stops every core (R188, R196, R230). That
the input is empty, whatever `set_input` gave before, is the model's choice (log entry 29). -/
def Obligations.LoadResetsTheCore : Prop :=
  ∀ (s : State) (k : Nat) (c : Vm) (image : List Int), s.core? k = some c →
    (c.started = true → c.status = .running → ¬s.RunEnded → load k image s = .error .notAllowed) ∧
    (c.started = false ∨ c.status ≠ .running ∨ s.RunEnded → (∀ v ∈ image, Fits s.params.w v) → image.length ≤ s.params.maxMemLen →
      ∃ d, load k image s = .ok { s with cores := s.cores.set k d } ∧
        d.mem.len = image.length ∧ (∀ (a : Nat) (v : Int), image[a]? = some v → d.mem.read a = some v) ∧
        d.pc = 0 ∧ d.done = false ∧ d.status = .running ∧ d.started = false ∧ d.fault = .empty ∧ d.io = c.io ∧
        d.inQ = [] ∧ d.outLog = [])

/-- `configure_pipeline` resets N cores with the same image, wires and seeds the channels in concurrent mode, prepares core
0's input in sync mode, and leaves the controller Idle (R181 to R184, R190, R231). -/
def Obligations.ConfigureResetsThePipeline : Prop :=
  ∀ (s t : State) (image : List Int) (config : PipeConfig), configurePipeline image config s = .ok t →
    config.Wf s.params.w ∧ t.setting = .pipeline ∧ t.cores.length = config.n ∧
    t.ctl = { pstatus := .idle, config := config, sink := [], result := none, abort := ⟨.none, none, none⟩, cur := 0 } ∧
    (∀ k, k < config.n → ∃ c phase, t.core? k = some c ∧ config.phases[k]? = some phase ∧
      c.mem.len = image.length ∧ (∀ (a : Nat) (v : Int), image[a]? = some v → c.mem.read a = some v) ∧
      c.pc = 0 ∧ c.done = false ∧ c.status = .running ∧ c.started = false ∧ c.fault = .empty ∧ c.outLog = [] ∧
      (config.mode = .sync → c.io = .queue ∧ c.inQ = if k = 0 then [phase, 0] else []) ∧
      (config.mode = .concurrent → c.io = .channel ∧ c.inQ = [] ∧
        ∃ ch, t.chans[k]? = some ch ∧ ch.consumer = .core k ∧
          ch.buf = (if k = 0 then [phase, 0] else [phase]) ∧
          ch.producer = (if k = 0 then (if config.topology = .feedback then some (config.n - 1) else none) else some (k - 1)))) ∧
    (config.mode = .sync → t.chans = []) ∧ (config.mode = .concurrent → t.chans.length = config.n) ∧ t.RunOrder

/-- `poke` is allowed only before the first step; within bounds it sets that cell of that core and nothing else, outside it
answers OutOfBounds and changes nothing (R198). -/
def Obligations.PokeIsABoundedWriteBeforeTheRun : Prop :=
  ∀ (s : State) (k : Nat) (c : Vm) (a v : Int), s.core? k = some c →
    (c.started = true → poke k a v s = .error .notAllowed) ∧
    (c.started = false → Fits s.params.w v → ¬c.mem.InBounds a → poke k a v s = .error (.outOfBounds a)) ∧
    (c.started = false → Fits s.params.w v → c.mem.InBounds a →
      ∃ t d, poke k a v s = .ok t ∧ t = { s with cores := s.cores.set k d } ∧ d = { c with mem := d.mem } ∧
        d.mem.len = c.mem.len ∧ peek k a t = .ok v ∧ ∀ b, b ≠ a → peek k b t = peek k b s)

/-- A program text that loads has one cell per field, every one in the cell range, and at most `MAX_MEM_LEN` of them; a text
that does not is refused at its first malformed field or for its length (R197). That the field is reported as it stands in the
text, untrimmed, and numbered from 0, and that a malformed field is reported before the length, is the model's choice (log
entry 15). -/
def Obligations.LoaderChecksEveryField : Prop :=
  ∀ (p : Params) (text : List Char),
    (∀ image, parseProgram p text = .ok image →
      image.map some = (splitAtEvery ',' (dropLineEnds text)).map (parseField p.w) ∧
      (∀ v ∈ image, Fits p.w v) ∧ image.length ≤ p.maxMemLen) ∧
    (∀ e, parseProgram p text = .error e →
      (∃ f n, e = .malformedProgramText f n ∧ (splitAtEvery ',' (dropLineEnds text))[n]? = some f ∧
        parseField p.w f = none ∧
        ∀ j g, j < n → (splitAtEvery ',' (dropLineEnds text))[j]? = some g → parseField p.w g ≠ none) ∨
      (e = .imageTooLarge ∧ p.maxMemLen < (splitAtEvery ',' (dropLineEnds text)).length))
end

