-- ==== Sys2Proof/Laws/Memory.lean ====
section
/-! SUPPORT. Memory: the set-get laws, and that every memory operation keeps the canonical form. -/

namespace Sys2Proof.Machine

theorem Memory.lookup_filter_other {l : List (Nat × Int)} {a b : Nat} (h : b ≠ a) :
    Memory.lookup (l.filter fun e => e.1 ≠ a) b = Memory.lookup l b := by
  induction l with
  | nil => rfl
  | cons e rest ih =>
    obtain ⟨x, v⟩ := e
    by_cases hx : x = a
    · subst hx
      simp [Memory.lookup, Ne.symm h] at ih ⊢
      exact ih
    · simp only [ne_eq, hx, not_false_eq_true, decide_true, List.filter_cons_of_pos, Memory.lookup]
      split
      · rfl
      · simpa using ih

theorem Memory.lookup_filter_same {l : List (Nat × Int)} {a : Nat} :
    Memory.lookup (l.filter fun e => e.1 ≠ a) a = Memory.blank := by
  induction l with
  | nil => rfl
  | cons e rest ih =>
    obtain ⟨x, v⟩ := e
    by_cases hx : x = a
    · simpa [hx] using ih
    · simpa [hx, Memory.lookup] using ih

theorem Memory.lookup_place_same {l : List (Nat × Int)} {a : Nat} {v : Int} (h : ∀ e ∈ l, e.1 ≠ a) :
    Memory.lookup (Memory.place l a v) a = v := by
  induction l with
  | nil => simp [Memory.place, Memory.lookup]
  | cons e rest ih =>
    obtain ⟨x, u⟩ := e
    have hx : x ≠ a := h (x, u) (by simp)
    simp only [Memory.place]
    split
    · simp [Memory.lookup]
    · simp only [Memory.lookup, hx, if_false]
      exact ih fun e he => h e (by simp [he])

theorem Memory.lookup_place_other {l : List (Nat × Int)} {a b : Nat} {v : Int} (h : b ≠ a) :
    Memory.lookup (Memory.place l a v) b = Memory.lookup l b := by
  induction l with
  | nil => simp [Memory.place, Memory.lookup, Ne.symm h]
  | cons e rest ih =>
    obtain ⟨x, u⟩ := e
    simp only [Memory.place]
    split
    · simp [Memory.lookup, Ne.symm h]
    · simp [Memory.lookup, ih]

theorem Memory.mem_place {l : List (Nat × Int)} {a : Nat} {v : Int} {e : Nat × Int} :
    e ∈ Memory.place l a v ↔ e = (a, v) ∨ e ∈ l := by
  induction l with
  | nil => simp [Memory.place]
  | cons x rest ih =>
    obtain ⟨b, u⟩ := x
    simp only [Memory.place]
    split
    · simp
    · simp only [List.mem_cons, ih]
      tauto

theorem Memory.place_pairwise {l : List (Nat × Int)} {a : Nat} {v : Int}
    (h : l.Pairwise fun x y => x.1 < y.1) (hne : ∀ e ∈ l, e.1 ≠ a) :
    (Memory.place l a v).Pairwise fun x y => x.1 < y.1 := by
  induction l with
  | nil => simp [Memory.place]
  | cons x rest ih =>
    obtain ⟨b, u⟩ := x
    rw [List.pairwise_cons] at h
    have hb : b ≠ a := hne (b, u) (by simp)
    simp only [Memory.place]
    split
    · rename_i hlt
      refine List.pairwise_cons.2 ⟨?_, List.pairwise_cons.2 h⟩
      intro e he
      rcases List.mem_cons.1 he with rfl | he
      · exact hlt
      · exact lt_trans hlt (h.1 e he)
    · refine List.pairwise_cons.2 ⟨?_, ih h.2 fun e he => hne e (by simp [he])⟩
      intro e he
      rcases Memory.mem_place.1 he with rfl | he
      · show b < a
        omega
      · exact h.1 e he

@[simp] theorem Memory.set_len (m : Memory) (a : Nat) (v : Int) : (m.set a v).len = m.len := rfl

/-- The set-get law (R54). -/
@[simp] theorem Memory.get_set_same (m : Memory) (a : Nat) (v : Int) : (m.set a v).get a = v := by
  simp only [Memory.get, Memory.set]
  split
  · rename_i h; rw [Memory.lookup_filter_same, h]
  · exact Memory.lookup_place_same (by simp)

/-- A write changes only the cell at its address (R54). -/
theorem Memory.get_set_other (m : Memory) {a b : Nat} (v : Int) (h : b ≠ a) : (m.set a v).get b = m.get b := by
  simp only [Memory.get, Memory.set]
  split
  · exact Memory.lookup_filter_other h
  · rw [Memory.lookup_place_other h, Memory.lookup_filter_other h]

/-- An entry after a write is the written one or an older one. -/
theorem Memory.mem_set {m : Memory} {a : Nat} {v : Int} {e : Nat × Int} (h : e ∈ (m.set a v).cells) :
    e = (a, v) ∧ v ≠ Memory.blank ∨ e ∈ m.cells := by
  simp only [Memory.set] at h
  split at h
  · right; exact (List.mem_filter.1 h).1
  · rcases Memory.mem_place.1 h with h | h
    · exact .inl ⟨h, ‹_›⟩
    · right; exact (List.mem_filter.1 h).1

/-- A write to an address that exists keeps the canonical form. -/
theorem Memory.set_wf {m : Memory} {a : Nat} {v : Int} (h : m.wf) (ha : a < m.len) : (m.set a v).wf := by
  refine ⟨?_, ?_⟩
  · simp only [Memory.set]
    have hp := h.1.filter fun e => decide (e.1 ≠ a)
    split
    · simpa using hp
    · exact Memory.place_pairwise (by simpa using hp) (by simp)
  · intro e he
    rcases Memory.mem_set he with ⟨rfl, hv⟩ | he
    · exact ⟨ha, hv⟩
    · exact h.2 e he

@[simp] theorem Memory.setAll_len (m : Memory) (a : Nat) (vs : List Int) : (m.setAll a vs).len = m.len := by
  induction vs generalizing m a with
  | nil => rfl
  | cons v rest ih => simp [Memory.setAll, ih]

/-- Writing a list of cells to addresses that exist keeps the canonical form. -/
theorem Memory.setAll_wf {m : Memory} {a : Nat} {vs : List Int} (h : m.wf) (ha : a + vs.length ≤ m.len) :
    (m.setAll a vs).wf := by
  induction vs generalizing m a with
  | nil => exact h
  | cons v rest ih =>
    simp only [List.length_cons] at ha
    exact ih (Memory.set_wf h (by omega)) (by simp only [Memory.set_len]; omega)

theorem Memory.get_setAll (m : Memory) (a b : Nat) (vs : List Int) :
    (m.setAll a vs).get b = if a ≤ b then (vs[b - a]?).getD (m.get b) else m.get b := by
  induction vs generalizing m a with
  | nil => simp [Memory.setAll]
  | cons v rest ih =>
    simp only [Memory.setAll, ih]
    by_cases h1 : a + 1 ≤ b
    · have h2 : b - a = (b - (a + 1)) + 1 := by omega
      rw [if_pos h1, if_pos (by omega), h2, List.getElem?_cons_succ, Memory.get_set_other _ _ (by omega)]
    · rw [if_neg h1]
      by_cases h2 : b = a
      · subst h2; simp
      · rw [if_neg (by omega), Memory.get_set_other _ _ h2]

/-- The memory of an image is canonical (R230). -/
theorem Memory.ofImage_wf (image : List Int) : (Memory.ofImage image).wf :=
  Memory.setAll_wf (by simp [Memory.wf]) (by simp)

/-- The memory after reset is canonical, under any parameters. -/
theorem State.resetFor_memory_wf (p : Params) : ∀ c ∈ (State.resetFor p).cores, c.mem.wf := by
  intro c hc
  obtain rfl : c = Vm.resetWith .queue [] { len := 0, cells := [] } := by simpa [State.resetFor] using hc
  simp [Vm.resetWith, Memory.wf]

/-- The memory after reset is canonical. -/
theorem State.reset_memory_wf : ∀ c ∈ State.reset.cores, c.mem.wf := State.resetFor_memory_wf Params.default

@[simp] theorem Memory.ofImage_len (image : List Int) : (Memory.ofImage image).len = image.length := by
  simp [Memory.ofImage]

/-- The cell `a` of a loaded memory is the image's cell `a` (R23, R230). -/
theorem Memory.get_ofImage (image : List Int) {a : Nat} (h : a < image.length) : (Memory.ofImage image).get a = image[a] := by
  simp [Memory.ofImage, Memory.get_setAll, List.getElem?_eq_getElem h]

theorem Memory.mem_setAll {m : Memory} {a : Nat} {vs : List Int} {e : Nat × Int} (h : e ∈ (m.setAll a vs).cells) :
    e.2 ∈ vs ∨ e ∈ m.cells := by
  induction vs generalizing m a with
  | nil => exact .inr h
  | cons v rest ih =>
    rcases ih h with h | h
    · exact .inl (by simp [h])
    · rcases Memory.mem_set h with ⟨rfl, -⟩ | h
      · exact .inl (by simp)
      · exact .inr h

/-- Every entry of a loaded memory is a cell of the image. -/
theorem Memory.mem_ofImage {image : List Int} {e : Nat × Int} (h : e ∈ (Memory.ofImage image).cells) : e.2 ∈ image := by
  rcases Memory.mem_setAll h with h | h
  · exact h
  · simp at h

/-- What a memory holds at an address is a listed value or the blank. -/
theorem Memory.get_mem_or_blank (m : Memory) (a : Nat) : (a, m.get a) ∈ m.cells ∨ m.get a = Memory.blank := by
  simp only [Memory.get]
  induction m.cells with
  | nil => exact .inr rfl
  | cons e rest ih =>
    obtain ⟨b, u⟩ := e
    simp only [Memory.lookup]
    split
    · rename_i h; subst h; simp
    · rcases ih with h | h
      · exact .inl (by simp [h])
      · exact .inr h

/-- A read is in bounds and answers the cell (R51). -/
theorem Memory.read_eq_some {m : Memory} {a v : Int} : m.read a = some v ↔ m.InBounds a ∧ v = m.get a.toNat := by
  unfold Memory.read
  by_cases h : m.InBounds a
  · rw [if_pos h, Option.some_inj]; exact ⟨fun e => ⟨h, e.symm⟩, fun e => e.2.symm⟩
  · rw [if_neg h]; exact ⟨fun e => by simp at e, fun e => absurd e.1 h⟩

theorem Memory.read_eq_none {m : Memory} {a : Int} : m.read a = none ↔ ¬m.InBounds a := by
  unfold Memory.read; split <;> simp_all

/-- A read after a write (R54). -/
theorem Memory.read_set (m : Memory) (d : Nat) (v a : Int) :
    (m.set d v).read a = if m.InBounds a then some (if a = d then v else m.get a.toNat) else none := by
  unfold Memory.read
  by_cases h : m.InBounds a
  · rw [if_pos (show (m.set d v).InBounds a from h), if_pos h]
    by_cases hd : a = d
    · subst hd; simp
    · have : a.toNat ≠ d := by have := h.1; omega
      rw [if_neg hd, Memory.get_set_other _ _ this]
  · rw [if_neg (show ¬(m.set d v).InBounds a from h), if_neg h]

/-- The window of an address that exists: its cells, clamped to the end of memory (R53). -/
theorem Memory.slice_eq_some {m : Memory} {a : Int} {n : Nat} {win : List Int} :
    m.slice a n = some win ↔ m.InBounds a ∧ win = m.cellsFrom a.toNat (min n (m.len - a.toNat)) := by
  unfold Memory.slice
  by_cases h : m.InBounds a
  · rw [if_pos h, Option.some_inj]; exact ⟨fun e => ⟨h, e.symm⟩, fun e => e.2.symm⟩
  · rw [if_neg h]; exact ⟨fun e => by simp at e, fun e => absurd e.1 h⟩

theorem Memory.slice_eq_none {m : Memory} {a : Int} {n : Nat} : m.slice a n = none ↔ ¬m.InBounds a := by
  unfold Memory.slice; split <;> simp_all

@[simp] theorem Memory.cellsFrom_length (m : Memory) (a n : Nat) : (m.cellsFrom a n).length = n := by
  simp [Memory.cellsFrom]

theorem Memory.mem_cellsFrom {m : Memory} {a n : Nat} {v : Int} (h : v ∈ m.cellsFrom a n) : ∃ b, v = m.get b := by
  simp only [Memory.cellsFrom, List.mem_map] at h
  obtain ⟨i, -, rfl⟩ := h
  exact ⟨_, rfl⟩

/-! ## The check of an image -/

/-- An image passes its check exactly when a core can hold it (R22, R23). -/
theorem checkImage_eq_ok {p : Params} {image : List Int} {u : Unit} :
    checkImage p image = .ok u ↔ (∀ v ∈ image, Fits p.w v) ∧ image.length ≤ p.maxMemLen := by
  unfold checkImage
  split
  · rename_i v hf
    have hn := List.find?_some hf
    simp only [decide_eq_true_eq] at hn
    refine ⟨fun h => (by cases h), fun h => absurd (h.1 v (List.mem_of_find?_eq_some hf)) hn⟩
  · rename_i hf
    have ha : ∀ v ∈ image, Fits p.w v := fun v hv => by simpa using List.find?_eq_none.1 hf v hv
    split
    · rename_i hl; exact ⟨fun _ => ⟨ha, hl⟩, fun _ => rfl⟩
    · rename_i hl; exact ⟨fun h => (by cases h), fun h => absurd h.2 hl⟩

end Sys2Proof.Machine
end

