-- ==== Sys2Proof/Laws/Actions.lean ====
section
/-! SUPPORT. What each of the host's actions can do, once: the state it answers, and the condition it answers it under. -/

namespace Sys2Proof.Machine

/-- A sequence of two host actions answers when both do. -/
theorem action_bind_eq_ok {α β : Type} {x : Except HostError α} {f : α → Except HostError β} {b : β} :
    (x >>= f) = .ok b ↔ ∃ a, x = .ok a ∧ f a = .ok b := by
  cases x <;> simp [bind, Except.bind]

/-- A load that is allowed: the core's reset, and nothing else (R196, R230). -/
theorem load_ok {k : Nat} {image : List Int} {s t : State} (h : load k image s = .ok t) :
    ∃ c, s.core? k = some c ∧ s.MayLoad c ∧ (∀ v ∈ image, Fits s.params.w v) ∧
      image.length ≤ s.params.maxMemLen ∧
      t = { s with cores := s.cores.set k (Vm.resetWith c.io [] (Memory.ofImage image)) } := by
  unfold load at h
  split at h
  · cases h
  · rename_i c hc
    split at h
    · rename_i hm
      split at h
      · cases h
      · rename_i hi
        cases h
        have h12 := checkImage_eq_ok.1 hi
        exact ⟨c, hc, hm, h12.1, h12.2, rfl⟩
    · cases h

/-- A poke that is allowed writes one cell (R198). -/
theorem poke_ok {k : Nat} {a v : Int} {s t : State} (h : poke k a v s = .ok t) :
    ∃ c, s.core? k = some c ∧ c.started = false ∧ Fits s.params.w v ∧ c.mem.InBounds a ∧
      t = { s with cores := s.cores.set k { c with mem := c.mem.set a.toNat v } } := by
  unfold poke at h
  split at h
  · cases h
  · rename_i c hc
    split at h
    · cases h
    · rename_i hs
      split at h
      · cases h
      · rename_i hv
        split at h
        · rename_i hb
          cases h
          exact ⟨c, hc, by simpa using hs, Classical.not_not.1 hv, hb, rfl⟩
        · cases h

/-- A `set_input` that is allowed replaces the input of a Queue-bound core that is not started (R196). -/
theorem setInput_ok {k : Nat} {input : List Int} {s t : State} (h : setInput k input s = .ok t) :
    ∃ c, s.core? k = some c ∧ c.started = false ∧ c.io = .queue ∧ (∀ v ∈ input, Fits s.params.w v) ∧
      t = { s with cores := s.cores.set k { c with inQ := input } } := by
  unfold setInput at h
  split at h
  · cases h
  · rename_i c hc
    split at h
    · cases h
    · rename_i hs
      split at h
      · cases h
      · rename_i hf
        cases h
        refine ⟨c, hc, ?_, ?_, fun v hv => by simpa using List.find?_eq_none.1 hf v hv, rfl⟩
        · cases hst : c.started
          · rfl
          · exact absurd (.inl hst) hs
        · exact Classical.not_not.1 fun hio => hs (.inr hio)

/-- A configuration that is allowed resets the pipeline (R180 to R184, R231). -/
theorem configurePipeline_ok {image : List Int} {config : PipeConfig} {s t : State}
    (h : configurePipeline image config s = .ok t) :
    s.ctl.pstatus ≠ .running ∧ config.Wf s.params.w ∧ (∀ v ∈ image, Fits s.params.w v) ∧
      image.length ≤ s.params.maxMemLen ∧
      t = { s with
        setting := .pipeline
        cores := (List.range config.n).map (pipelineCore config image)
        chans := wiredChannels config
        ctl := { Controller.reset with config := config }
        active := 0 } := by
  unfold configurePipeline at h
  split at h
  · cases h
  · rename_i hp
    split at h
    · cases h
    · rename_i hw
      obtain ⟨u, hi, h⟩ := action_bind_eq_ok.1 h
      cases h
      have h12 := checkImage_eq_ok.1 hi
      exact ⟨hp, Classical.not_not.1 hw, h12.1, h12.2, rfl⟩

/-- A start that is allowed sets `pstatus` (R196). -/
theorem startPipeline_ok {s t : State} (h : startPipeline s = .ok t) :
    s.setting = .pipeline ∧ s.ctl.pstatus = .idle ∧ t = { s with ctl := { s.ctl with pstatus := .running } } := by
  unfold startPipeline at h
  split at h
  · rename_i hc; cases h; exact ⟨hc.1, hc.2, rfl⟩
  · cases h

end Sys2Proof.Machine
end

