-- ==== Sys2Proof/Laws/Decode.lean ====
section
/-! SUPPORT. What decode answers, once for all: the parameters of a decoded instruction are cells of its window, and a
missing parameter is one of the three an instruction can have. -/

namespace Sys2Proof

/-- A sequence of two checks answers when both do. -/
theorem check_bind_eq_ok {α β : Type} {x : Except DecodeError α} {f : α → Except DecodeError β} {b : β} :
    (x >>= f) = .ok b ↔ ∃ a, x = .ok a ∧ f a = .ok b := by
  cases x <;> simp [bind, Except.bind]

/-- A sequence of two checks fails as its first failing one (R92). -/
theorem check_bind_eq_error {α β : Type} {x : Except DecodeError α} {f : α → Except DecodeError β} {e : DecodeError} :
    (x >>= f) = .error e ↔ x = .error e ∨ ∃ a, x = .ok a ∧ f a = .error e := by
  cases x <;> simp [bind, Except.bind]

/-- The mode check fails only with UnknownParameterMode (R83). -/
theorem checkModes_eq_error {c : Int} {i n : Nat} {e : DecodeError} (h : checkModes c i n = .error e) :
    ∃ k, e = .unknownParameterMode k := by
  induction n generalizing i with
  | zero => cases h
  | succ n ih =>
    unfold checkModes at h
    split at h
    · exact ih h
    · cases h; exact ⟨_, rfl⟩

/-- The unused-digit check fails only with UnknownParameterMode (R84). -/
theorem checkUnused_eq_error {u : UnusedDigits} {c : Int} {k : Nat} {e : DecodeError} (h : checkUnused u c k = .error e) :
    ∃ n, e = .unknownParameterMode n := by
  unfold checkUnused at h
  split at h
  · cases h
  · split at h
    · cases h
    · cases h; exact ⟨_, rfl⟩

/-- A decoded parameter is its cell, taken whole (R93). -/
theorem decodeParam_raw {c : Int} {ps : List Int} {i : Nat} {p : Param} (h : decodeParam c ps i = .ok p) :
    ps[i - 1]? = some p.raw := by
  unfold decodeParam at h
  split at h
  · cases h
  · rename_i raw hr
    cases h
    rw [hr]
    split <;> rfl

/-- A parameter fails to decode only when its cell is missing (R85). -/
theorem decodeParam_eq_error {c : Int} {ps : List Int} {i : Nat} {e : DecodeError} (h : decodeParam c ps i = .error e) :
    e = .missingParameter i ∧ ps[i - 1]? = none := by
  unfold decodeParam at h
  split at h
  · cases h; exact ⟨rfl, ‹_›⟩
  · cases h

/-- The parameter cells of an instruction are cells of the window it decodes from. -/
theorem decodeOperands_raw {c : Int} {ps : List Int} {op : Op} {i : Instr} (h : decodeOperands c ps op = .ok i) :
    ∀ p ∈ i.operands, p.raw ∈ ps := by
  have mem : ∀ {n : Nat} {p : Param}, decodeParam c ps n = .ok p → p.raw ∈ ps :=
    fun h => List.mem_of_getElem? (decodeParam_raw h)
  cases op <;> simp only [decodeOperands, check_bind_eq_ok, pure, Except.pure, Except.ok.injEq] at h
  all_goals first
    | (obtain ⟨a, ha, b, hb, d, hd, rfl⟩ := h; simp [Instr.operands]; exact ⟨mem ha, mem hb, mem hd⟩)
    | (obtain ⟨a, ha, b, hb, rfl⟩ := h; simp [Instr.operands]; exact ⟨mem ha, mem hb⟩)
    | (obtain ⟨a, ha, rfl⟩ := h; simp [Instr.operands]; exact mem ha)
    | (subst h; simp [Instr.operands])

/-- P4 stops at one of the three parameters an instruction can have (R85). -/
theorem decodeOperands_eq_error {c : Int} {ps : List Int} {op : Op} {e : DecodeError}
    (h : decodeOperands c ps op = .error e) : ∃ i, e = .missingParameter i ∧ i ≤ 3 := by
  cases op <;> simp only [decodeOperands, check_bind_eq_error, pure, Except.pure] at h
  case halt => cases h
  case inp | out =>
    rcases h with h | ⟨_, -, h⟩
    · exact ⟨1, (decodeParam_eq_error h).1, by omega⟩
    · cases h
  case jt | jf =>
    rcases h with h | ⟨_, -, h | ⟨_, -, h⟩⟩
    · exact ⟨1, (decodeParam_eq_error h).1, by omega⟩
    · exact ⟨2, (decodeParam_eq_error h).1, by omega⟩
    · cases h
  all_goals
    rcases h with h | ⟨_, -, h | ⟨_, -, h | ⟨_, -, h⟩⟩⟩
    · exact ⟨1, (decodeParam_eq_error h).1, by omega⟩
    · exact ⟨2, (decodeParam_eq_error h).1, by omega⟩
    · exact ⟨3, (decodeParam_eq_error h).1, by omega⟩
    · cases h

/-- The parameter cells of a decoded instruction are cells of its window. -/
theorem decode_raw {u : UnusedDigits} {window : List Int} {i : Instr} (h : decode u window = .ok i) :
    ∀ p ∈ i.operands, p.raw ∈ window := by
  unfold decode at h
  split at h
  · cases h
  · split at h
    · cases h
    · obtain ⟨_, -, h⟩ := check_bind_eq_ok.1 h
      obtain ⟨_, -, h⟩ := check_bind_eq_ok.1 h
      exact fun p hp => List.mem_cons_of_mem _ (decodeOperands_raw h p hp)

/-- A missing parameter is one of three, so its address is at most `pc + 3` (R85). -/
theorem decode_missing_le {u : UnusedDigits} {window : List Int} {i : Nat}
    (h : decode u window = .error (.missingParameter i)) : i ≤ 3 := by
  unfold decode at h
  split at h
  · cases h
  · split at h
    · cases h
    · rcases check_bind_eq_error.1 h with h | ⟨_, -, h⟩
      · obtain ⟨k, hk⟩ := checkModes_eq_error h; cases hk
      · rcases check_bind_eq_error.1 h with h | ⟨_, -, h⟩
        · obtain ⟨k, hk⟩ := checkUnused_eq_error h; cases hk
        · obtain ⟨k, hk, hl⟩ := decodeOperands_eq_error h
          cases hk; exact hl

end Sys2Proof
end

