-- ==== Sys2Proof/Laws/State.lean ====
section
/-! SUPPORT. The small lemmas of the state's updates: one per field per update. -/

namespace Sys2Proof.Machine

/-! ## Cores -/

@[simp] theorem Vm.store_mem (c : Vm) (d : Nat) (v : Int) (n : Int) : (c.store d v n).mem = c.mem.set d v := rfl
@[simp] theorem Vm.store_pc (c : Vm) (d : Nat) (v : Int) (n : Int) : (c.store d v n).pc = c.pc + n := rfl
@[simp] theorem Vm.store_done (c : Vm) (d : Nat) (v : Int) (n : Int) : (c.store d v n).done = c.done := rfl
@[simp] theorem Vm.store_status (c : Vm) (d : Nat) (v : Int) (n : Int) : (c.store d v n).status = c.status := rfl
@[simp] theorem Vm.store_started (c : Vm) (d : Nat) (v : Int) (n : Int) : (c.store d v n).started = c.started := rfl
@[simp] theorem Vm.store_fault (c : Vm) (d : Nat) (v : Int) (n : Int) : (c.store d v n).fault = c.fault := rfl
@[simp] theorem Vm.store_io (c : Vm) (d : Nat) (v : Int) (n : Int) : (c.store d v n).io = c.io := rfl
@[simp] theorem Vm.store_inQ (c : Vm) (d : Nat) (v : Int) (n : Int) : (c.store d v n).inQ = c.inQ := rfl
@[simp] theorem Vm.store_outLog (c : Vm) (d : Nat) (v : Int) (n : Int) : (c.store d v n).outLog = c.outLog := rfl

@[simp] theorem Vm.goto_mem (c : Vm) (t : Int) : (c.goto t).mem = c.mem := rfl
@[simp] theorem Vm.goto_pc (c : Vm) (t : Int) : (c.goto t).pc = t := rfl
@[simp] theorem Vm.goto_done (c : Vm) (t : Int) : (c.goto t).done = c.done := rfl
@[simp] theorem Vm.goto_status (c : Vm) (t : Int) : (c.goto t).status = c.status := rfl
@[simp] theorem Vm.goto_started (c : Vm) (t : Int) : (c.goto t).started = c.started := rfl
@[simp] theorem Vm.goto_fault (c : Vm) (t : Int) : (c.goto t).fault = c.fault := rfl
@[simp] theorem Vm.goto_io (c : Vm) (t : Int) : (c.goto t).io = c.io := rfl
@[simp] theorem Vm.goto_inQ (c : Vm) (t : Int) : (c.goto t).inQ = c.inQ := rfl
@[simp] theorem Vm.goto_outLog (c : Vm) (t : Int) : (c.goto t).outLog = c.outLog := rfl

@[simp] theorem Vm.halt_mem (c : Vm) : c.halt.mem = c.mem := rfl
@[simp] theorem Vm.halt_pc (c : Vm) : c.halt.pc = c.pc := rfl
@[simp] theorem Vm.halt_done (c : Vm) : c.halt.done = true := rfl
@[simp] theorem Vm.halt_status (c : Vm) : c.halt.status = .halted := rfl
@[simp] theorem Vm.halt_started (c : Vm) : c.halt.started = c.started := rfl
@[simp] theorem Vm.halt_fault (c : Vm) : c.halt.fault = c.fault := rfl
@[simp] theorem Vm.halt_io (c : Vm) : c.halt.io = c.io := rfl
@[simp] theorem Vm.halt_inQ (c : Vm) : c.halt.inQ = c.inQ := rfl
@[simp] theorem Vm.halt_outLog (c : Vm) : c.halt.outLog = c.outLog := rfl

@[simp] theorem Vm.recordOf_fcode (c : Vm) (r : Raise) : (c.recordOf r).fcode = r.code := rfl
@[simp] theorem Vm.recordOf_fpc (c : Vm) (r : Raise) : (c.recordOf r).fpc = some c.pc := rfl
@[simp] theorem Vm.recordOf_fcell (c : Vm) (r : Raise) : (c.recordOf r).fcell = c.mem.read c.pc := rfl
@[simp] theorem Vm.recordOf_fop (c : Vm) (r : Raise) :
    (c.recordOf r).fop = (c.mem.read c.pc).map fun x => trem x 100 := rfl
@[simp] theorem Vm.recordOf_fparam (c : Vm) (r : Raise) : (c.recordOf r).fparam = r.param := rfl
@[simp] theorem Vm.recordOf_faddr (c : Vm) (r : Raise) : (c.recordOf r).faddr = r.addr := rfl

/-! ## Channels -/

@[simp] theorem Channel.push_buf (ch : Channel) (v : Int) : (ch.push v).buf = ch.buf ++ [v] := rfl
@[simp] theorem Channel.push_producer (ch : Channel) (v : Int) : (ch.push v).producer = ch.producer := rfl
@[simp] theorem Channel.push_consumer (ch : Channel) (v : Int) : (ch.push v).consumer = ch.consumer := rfl
@[simp] theorem Channel.pop_buf (ch : Channel) : ch.pop.buf = ch.buf.tail := rfl
@[simp] theorem Channel.pop_producer (ch : Channel) : ch.pop.producer = ch.producer := rfl
@[simp] theorem Channel.pop_consumer (ch : Channel) : ch.pop.consumer = ch.consumer := rfl

/-! ## Controller -/

@[simp] theorem Controller.abortBy_pstatus (p : Controller) (k : Nat) (f : FaultRecord) : (p.abortBy k f).pstatus = .aborted := rfl
@[simp] theorem Controller.abortBy_config (p : Controller) (k : Nat) (f : FaultRecord) : (p.abortBy k f).config = p.config := rfl
@[simp] theorem Controller.abortBy_sink (p : Controller) (k : Nat) (f : FaultRecord) : (p.abortBy k f).sink = p.sink := rfl
@[simp] theorem Controller.abortBy_result (p : Controller) (k : Nat) (f : FaultRecord) : (p.abortBy k f).result = none := rfl
@[simp] theorem Controller.abortBy_abort (p : Controller) (k : Nat) (f : FaultRecord) :
    (p.abortBy k f).abort = ⟨f.fcode, some k, some f⟩ := rfl
@[simp] theorem Controller.abortBy_cur (p : Controller) (k : Nat) (f : FaultRecord) : (p.abortBy k f).cur = p.cur := rfl

@[simp] theorem Controller.abortWith_pstatus (p : Controller) (e : FaultCode) (k : Option Nat) : (p.abortWith e k).pstatus = .aborted := rfl
@[simp] theorem Controller.abortWith_config (p : Controller) (e : FaultCode) (k : Option Nat) : (p.abortWith e k).config = p.config := rfl
@[simp] theorem Controller.abortWith_sink (p : Controller) (e : FaultCode) (k : Option Nat) : (p.abortWith e k).sink = p.sink := rfl
@[simp] theorem Controller.abortWith_result (p : Controller) (e : FaultCode) (k : Option Nat) : (p.abortWith e k).result = none := rfl
@[simp] theorem Controller.abortWith_abort (p : Controller) (e : FaultCode) (k : Option Nat) : (p.abortWith e k).abort = ⟨e, k, none⟩ := rfl
@[simp] theorem Controller.abortWith_cur (p : Controller) (e : FaultCode) (k : Option Nat) : (p.abortWith e k).cur = p.cur := rfl

/-! ## The machine -/

@[simp] theorem State.setVm_params (s : State) (c : Vm) : (s.setVm c).params = s.params := rfl
@[simp] theorem State.setVm_setting (s : State) (c : Vm) : (s.setVm c).setting = s.setting := rfl
@[simp] theorem State.setVm_cores (s : State) (c : Vm) : (s.setVm c).cores = s.cores.set s.active c := rfl
@[simp] theorem State.setVm_chans (s : State) (c : Vm) : (s.setVm c).chans = s.chans := rfl
@[simp] theorem State.setVm_ctl (s : State) (c : Vm) : (s.setVm c).ctl = s.ctl := rfl
@[simp] theorem State.setVm_active (s : State) (c : Vm) : (s.setVm c).active = s.active := rfl
@[simp] theorem State.setVm_choices (s : State) (c : Vm) : (s.setVm c).choices = s.choices := rfl

@[simp] theorem State.select_params (s : State) (k : Nat) : (s.select k).params = s.params := rfl
@[simp] theorem State.select_setting (s : State) (k : Nat) : (s.select k).setting = s.setting := rfl
@[simp] theorem State.select_cores (s : State) (k : Nat) :
    (s.select k).cores = s.cores.modify k fun c => { c with started := true } := rfl
@[simp] theorem State.select_chans (s : State) (k : Nat) : (s.select k).chans = s.chans := rfl
@[simp] theorem State.select_ctl (s : State) (k : Nat) : (s.select k).ctl = s.ctl := rfl
@[simp] theorem State.select_active (s : State) (k : Nat) : (s.select k).active = k := rfl
@[simp] theorem State.select_choices (s : State) (k : Nat) : (s.select k).choices = s.choices := rfl

@[simp] theorem State.chose_params (s : State) : s.chose.params = s.params := by unfold State.chose; split <;> rfl
@[simp] theorem State.chose_setting (s : State) : s.chose.setting = s.setting := by unfold State.chose; split <;> rfl
@[simp] theorem State.chose_cores (s : State) : s.chose.cores = s.cores := by unfold State.chose; split <;> rfl
@[simp] theorem State.chose_chans (s : State) : s.chose.chans = s.chans := by unfold State.chose; split <;> rfl
@[simp] theorem State.chose_ctl (s : State) : s.chose.ctl = s.ctl := by unfold State.chose; split <;> rfl
@[simp] theorem State.chose_active (s : State) : s.chose.active = s.active := by unfold State.chose; split <;> rfl

@[simp] theorem State.takeFault_params (s : State) (c : Vm) (r : Raise) : (s.takeFault c r).params = s.params := by
  simp only [State.takeFault]; split <;> rfl
@[simp] theorem State.takeFault_setting (s : State) (c : Vm) (r : Raise) : (s.takeFault c r).setting = s.setting := by
  simp only [State.takeFault]; split <;> simp_all
@[simp] theorem State.takeFault_cores (s : State) (c : Vm) (r : Raise) :
    (s.takeFault c r).cores = s.cores.set s.active { c with status := .faulted, fault := c.recordOf r } := by
  simp only [State.takeFault]; split <;> rfl
@[simp] theorem State.takeFault_chans (s : State) (c : Vm) (r : Raise) : (s.takeFault c r).chans = s.chans := by
  simp only [State.takeFault]; split <;> rfl
@[simp] theorem State.takeFault_active (s : State) (c : Vm) (r : Raise) : (s.takeFault c r).active = s.active := by
  simp only [State.takeFault]; split <;> rfl
@[simp] theorem State.takeFault_choices (s : State) (c : Vm) (r : Raise) : (s.takeFault c r).choices = s.choices := by
  simp only [State.takeFault]; split <;> rfl
theorem State.takeFault_ctl_standalone (s : State) (c : Vm) (r : Raise) (h : s.setting = .standalone) :
    (s.takeFault c r).ctl = s.ctl := by
  simp only [State.takeFault, h]; rfl
theorem State.takeFault_ctl_pipeline (s : State) (c : Vm) (r : Raise) (h : s.setting = .pipeline) :
    (s.takeFault c r).ctl = s.ctl.abortBy s.active (c.recordOf r) := by
  simp only [State.takeFault, h]

/-- The core that was written back is the active core. -/
@[simp] theorem State.core?_setVm_active {s : State} {c d : Vm} (h : s.core? s.active = some c) :
    (s.setVm d).core? s.active = some d := by
  have := List.getElem?_eq_some_iff.mp h
  simp [State.core?, this.1]

/-- The other cores are not touched by a write back. -/
theorem State.core?_setVm_other {s : State} {d : Vm} {k : Nat} (h : k ≠ s.active) :
    (s.setVm d).core? k = s.core? k := by
  simp [State.core?, Ne.symm h]

/-- Beginning a step starts the core. -/
theorem State.core?_select (s : State) (k : Nat) :
    (s.select k).core? k = (s.core? k).map fun c => { c with started := true } := by
  simp [State.core?]

/-- Beginning a step touches no other core. -/
theorem State.core?_select_other (s : State) {k j : Nat} (h : j ≠ k) : (s.select k).core? j = s.core? j := by
  simp [State.core?, Ne.symm h]

/-! ## Encodings -/

/-- Two statuses of one encoding are one status (R26). -/
theorem Status.code_inj {a b : Status} (h : a.code = b.code) : a = b := by
  cases a <;> cases b <;> first | rfl | cases h

/-- Two fault codes of one number are one fault code (R161). -/
theorem FaultCode.code_inj {a b : FaultCode} (h : a.code = b.code) : a = b := by
  cases a <;> cases b <;> first | rfl | cases h

end Sys2Proof.Machine
end

