-- ==== Sys2Proof/Laws/Ops.lean ====
section
/-! SUPPORT. For each shared operation, once, what it can do: cited by later proofs in place of unfolding it. -/

namespace Sys2Proof.Machine

/-- The end of a step that answers a next state: its commit, a block that changes nothing, or a raise. -/
theorem conclude_next {s t : State} {e : Except Stop State} (h : s.conclude e = .next t) :
    e = .ok t ∨ (e = .error .block ∧ t = s) ∨
      ∃ r c, e = .error (.raise r) ∧ s.Active c ∧ t = s.takeFault c r := by
  unfold State.conclude at h
  split at h
  · cases h; exact .inl rfl
  · cases h; exact .inr (.inl ⟨rfl, rfl⟩)
  · cases h
  · split at h
    · rename_i r _ c hc
      cases h
      exact .inr (.inr ⟨r, c, rfl, hc, rfl⟩)
    · cases h

/-- A raise answers a next state, in which the fault is taken (R162). -/
theorem conclude_raise {s : State} {c : Vm} (r : Raise) (h : s.Active c) :
    s.conclude (.error (.raise r)) = .next (s.takeFault c r) := by
  unfold State.Active at h
  simp [State.conclude, h]

/-- What taking a fault does, in the terms claims use (R162, R163, R188). -/
theorem takeFault_raisedIn (s : State) (c : Vm) (r : Raise) : RaisedIn s c r.code r.param r.addr (s.takeFault c r) := by
  obtain ⟨params, setting, cores, chans, ctl, active, choices⟩ := s
  cases setting <;> rfl

/-- A step that stops for a missing part of the state says so. -/
theorem conclude_not_refused {s : State} {e : Except Stop State} {r : Refusal} : s.conclude e ≠ .refused r := by
  unfold State.conclude
  split
  · simp
  · simp
  · simp
  · split <;> simp

theorem vm_eq_ok {s : State} {c : Vm} : s.vm = .ok c ↔ s.Active c := by
  unfold State.vm State.Active
  split <;> simp_all

theorem vm_eq_error {s : State} {e : Stop} : s.vm = .error e ↔ s.core? s.active = none ∧ e = .fault .noCore := by
  unfold State.vm
  split
  · rename_i c hc; simp [hc]
  · rename_i hc; simp [hc, eq_comm]

/-- `Fetch(i)` answers the literal, or the cell at the address (R87). -/
theorem fetch_eq_ok {c : Vm} {n : Nat} {p : Param} {v : Int} : fetch c n p = .ok v ↔ ReadsAs c p v := by
  cases p with
  | immediate x => simp [fetch, ReadsAs, eq_comm]
  | position a =>
    simp only [fetch, ReadsAs, ← Memory.read_eq_some]
    split <;> simp_all

/-- `Fetch(i)` raises OutOfBounds at an address that does not exist, and nothing else (R87). -/
theorem fetch_eq_error {c : Vm} {n : Nat} {p : Param} {e : Stop} :
    fetch c n p = .error e ↔ ∃ a, p = .position a ∧ ¬c.mem.InBounds a ∧ e = outOfBounds (some n) a := by
  cases p with
  | immediate x => simp [fetch]
  | position a =>
    simp only [fetch, Param.position.injEq, ← Memory.read_eq_none, exists_eq_left']
    split
    · rename_i v hv; simp [hv]
    · rename_i hv; simp [hv, eq_comm]

/-- `StoreTarget(i)` answers an address that exists (R88). -/
theorem storeTarget_eq_ok {c : Vm} {n : Nat} {p : Param} {d : Nat} : storeTarget c n p = .ok d ↔ StoresAt c p d := by
  cases p with
  | immediate x => simp [storeTarget, StoresAt]
  | position a =>
    simp only [storeTarget, StoresAt]
    split
    · rename_i h; exact ⟨fun e => ⟨h, by cases e; rfl⟩, fun e => by rw [e.2]⟩
    · rename_i h; exact ⟨fun e => (by cases e), fun e => absurd e.1 h⟩

/-- `StoreTarget(i)` raises InvalidStoreTarget on a literal and OutOfBounds at an address that does not exist (R88). -/
theorem storeTarget_eq_error {c : Vm} {n : Nat} {p : Param} {e : Stop} :
    storeTarget c n p = .error e ↔
      (∃ v, p = .immediate v ∧ e = .raise ⟨.invalidStoreTarget, some n, none⟩) ∨
      ∃ a, p = .position a ∧ ¬c.mem.InBounds a ∧ e = outOfBounds (some n) a := by
  cases p with
  | immediate x => simp [storeTarget, eq_comm]
  | position a =>
    simp only [storeTarget]
    split
    · rename_i h
      constructor
      · intro e; cases e
      · rintro (⟨v, e, -⟩ | ⟨b, e, hb, -⟩)
        · cases e
        · cases e; exact absurd h hb
    · rename_i h
      constructor
      · intro e; cases e; exact .inr ⟨a, rfl, h, rfl⟩
      · rintro (⟨v, e, -⟩ | ⟨b, e, -, he⟩)
        · cases e
        · cases e; rw [he]

/-- A destination address exists. -/
theorem StoresAt.lt {c : Vm} {p : Param} {d : Nat} (h : StoresAt c p d) : d < c.mem.len := by
  cases p with
  | immediate x => exact h.elim
  | position a =>
    obtain ⟨⟨h0, h1⟩, rfl⟩ := h
    omega

/-! ## Steps of the instructions -/

theorem ok_bind {α β : Type} (a : α) (f : α → Except Stop β) : (Except.ok a >>= f) = f a := rfl
theorem error_bind {α β : Type} (e : Stop) (f : α → Except Stop β) : ((Except.error e : Except Stop α) >>= f) = .error e := rfl

theorem bind_eq_ok {α β : Type} {x : Except Stop α} {f : α → Except Stop β} {b : β} :
    x >>= f = .ok b ↔ ∃ a, x = .ok a ∧ f a = .ok b := by
  cases x with
  | ok a => simp [ok_bind]
  | error e => simp [error_bind]

theorem bind_eq_error {α β : Type} {x : Except Stop α} {f : α → Except Stop β} {e : Stop} :
    x >>= f = .error e ↔ x = .error e ∨ ∃ a, x = .ok a ∧ f a = .error e := by
  cases x with
  | ok a => simp [ok_bind]
  | error e' => simp [error_bind]

/-- What the commit of add, mul, lt and eq is. -/
theorem storeBinary_eq_ok {f : Int → Int → Except Stop Int} {p1 p2 p3 : Param} {s t : State} :
    storeBinary f p1 p2 p3 s = .ok t ↔
      ∃ c a b r d, s.Active c ∧ ReadsAs c p1 a ∧ ReadsAs c p2 b ∧ f a b = .ok r ∧ StoresAt c p3 d ∧
        t = s.setVm (c.store d r 4) := by
  simp only [storeBinary, bind_eq_ok, vm_eq_ok, fetch_eq_ok, storeTarget_eq_ok, Except.ok.injEq]
  constructor
  · rintro ⟨c, hc, a, ha, b, hb, r, hr, d, hd, rfl⟩
    exact ⟨c, a, b, r, d, hc, ha, hb, hr, hd, rfl⟩
  · rintro ⟨c, a, b, r, d, hc, ha, hb, hr, hd, rfl⟩
    exact ⟨c, hc, a, ha, b, hb, r, hr, d, hd, rfl⟩

/-- What the commit of jt and jf is. -/
theorem jumpIf_eq_ok {taken : Int → Bool} {p1 p2 : Param} {s t : State} :
    jumpIf taken p1 p2 s = .ok t ↔
      ∃ c a v, s.Active c ∧ ReadsAs c p1 a ∧ ReadsAs c p2 v ∧
        t = s.setVm (c.goto (if taken a then v else c.pc + 3)) := by
  simp only [jumpIf, bind_eq_ok, vm_eq_ok, fetch_eq_ok, Except.ok.injEq]
  constructor
  · rintro ⟨c, hc, a, ha, v, hv, rfl⟩
    exact ⟨c, a, v, hc, ha, hv, rfl⟩
  · rintro ⟨c, a, v, hc, ha, hv, rfl⟩
    exact ⟨c, hc, a, ha, v, hv, rfl⟩

/-- What the commit of in is. -/
theorem inEffect_eq_ok {p1 : Param} {s t : State} :
    inEffect p1 s = .ok t ↔
      ∃ c d k, s.Active c ∧ StoresAt c p1 d ∧ inTake s c = .ok k ∧
        t = { s with chans := k.chans }.setVm (k.vm.store d k.value 2) := by
  simp only [inEffect, bind_eq_ok, vm_eq_ok, storeTarget_eq_ok, Except.ok.injEq]
  constructor
  · rintro ⟨c, hc, d, hd, k, hk, rfl⟩
    exact ⟨c, d, k, hc, hd, hk, rfl⟩
  · rintro ⟨c, d, k, hc, hd, hk, rfl⟩
    exact ⟨c, hc, d, hd, k, hk, rfl⟩

/-- What the commit of out is. -/
theorem outEffect_eq_ok {p1 : Param} {s t : State} :
    outEffect p1 s = .ok t ↔
      ∃ c v e, s.Active c ∧ ReadsAs c p1 v ∧ outPut s c v = .ok e ∧
        t = { s with chans := e.chans, ctl := e.ctl }.setVm (e.vm.goto (e.vm.pc + 2)) := by
  simp only [outEffect, bind_eq_ok, vm_eq_ok, fetch_eq_ok, Except.ok.injEq]
  constructor
  · rintro ⟨c, hc, v, hv, e, he, rfl⟩
    exact ⟨c, v, e, hc, hv, he, rfl⟩
  · rintro ⟨c, v, e, hc, hv, he, rfl⟩
    exact ⟨c, hc, v, hv, e, he, rfl⟩

/-- What the commit of halt is. -/
theorem haltEffect_eq_ok {s t : State} : haltEffect s = .ok t ↔ ∃ c, s.Active c ∧ t = s.setVm c.halt := by
  simp only [haltEffect, bind_eq_ok, vm_eq_ok, Except.ok.injEq]
  constructor
  · rintro ⟨c, hc, rfl⟩; exact ⟨c, hc, rfl⟩
  · rintro ⟨c, hc, rfl⟩; exact ⟨c, hc, rfl⟩

/-- What an input transaction takes: the head of the queue, or of the core's channel (R122). -/
theorem inTake_eq_ok {s : State} {c : Vm} {k : Taken} (h : inTake s c = .ok k) :
    (c.io = .queue ∧ ∃ rest, c.inQ = k.value :: rest ∧ k.vm = { c with inQ := rest } ∧ k.chans = s.chans) ∨
    (c.io = .channel ∧ ∃ ch rest, s.chans[s.active]? = some ch ∧ ch.buf = k.value :: rest ∧ k.vm = c ∧
      k.chans = s.chans.set s.active ch.pop) := by
  unfold inTake at h
  split at h
  · rename_i hio
    split at h
    · cases h
    · rename_i v rest hq
      cases h
      exact .inl ⟨hio, rest, hq, rfl, rfl⟩
  · rename_i hio
    split at h
    · cases h
    · rename_i ch hch
      split at h
      · rename_i v hv
        cases h
        refine .inr ⟨hio, ch, ch.buf.tail, hch, ?_, rfl, rfl⟩
        simpa [Channel.head?] using List.eq_cons_of_mem_head? hv
      · split at h <;> cases h

/-- Why an input transaction does not take: nothing will come, nothing has come yet, or the channel is not there (R122). -/
theorem inTake_eq_error {s : State} {c : Vm} {e : Stop} (h : inTake s c = .error e) :
    (e = .raise ⟨.inputExhausted, some 0, none⟩ ∧
      ((c.io = .queue ∧ c.inQ = []) ∨ (c.io = .channel ∧ ∃ ch, s.chans[s.active]? = some ch ∧ s.eos ch = true))) ∨
    (e = .block ∧ c.io = .channel ∧ ∃ ch, s.chans[s.active]? = some ch ∧ ch.buf = [] ∧ s.producerLive ch = true) ∨
    (e = .fault .noChannel ∧ c.io = .channel ∧ s.chans[s.active]? = none) := by
  unfold inTake at h
  split at h
  · rename_i hio
    split at h
    · rename_i hq
      cases h
      exact .inl ⟨rfl, .inl ⟨hio, hq⟩⟩
    · cases h
  · rename_i hio
    split at h
    · rename_i hn
      cases h
      exact .inr (.inr ⟨rfl, hio, hn⟩)
    · rename_i ch hch
      split at h
      · cases h
      · rename_i hv
        have hb : ch.buf = [] := by simpa [Channel.head?] using hv
        split at h
        · rename_i he
          cases h
          exact .inl ⟨rfl, .inr ⟨hio, ch, hch, he⟩⟩
        · rename_i he
          cases h
          refine .inr (.inl ⟨rfl, hio, ch, hch, hb, ?_⟩)
          simpa [State.eos, hb] using he

/-- What an output transaction commits: the log, the sink, or a push into a channel with space (R126). -/
theorem outPut_eq_ok {s : State} {c : Vm} {v : Int} {e : Emitted} (h : outPut s c v = .ok e) :
    (c.io = .queue ∧ c.logFull s.params = false ∧
      e = ⟨{ c with outLog := c.outLog ++ [v] }, s.chans, s.tapped v⟩) ∨
    (c.io = .channel ∧ s.ctl.outPort s.active = .sink ∧
      e = ⟨c, s.chans, { s.tapped v with sink := s.ctl.sink ++ [v] }⟩) ∨
    (c.io = .channel ∧ ∃ j ch, s.ctl.outPort s.active = .channel j ∧ s.chans[j]? = some ch ∧ s.space ch = true ∧
      e = ⟨c, s.chans.set j (ch.push v), s.tapped v⟩) := by
  unfold outPut at h
  split at h
  · rename_i hio
    split at h
    · cases h
    · rename_i hf
      cases h
      exact .inl ⟨hio, by simpa using hf, rfl⟩
  · rename_i hio
    split at h
    · rename_i hp
      cases h
      exact .inr (.inl ⟨hio, hp, rfl⟩)
    · rename_i j hp
      split at h
      · cases h
      · rename_i ch hch
        split at h
        · rename_i hs
          cases h
          exact .inr (.inr ⟨hio, j, ch, hp, hch, hs, rfl⟩)
        · split at h <;> cases h

/-- Why an output transaction does not commit: the log is full, the consumer has halted, back-pressure, or the channel is
not there (R126). -/
theorem outPut_eq_error {s : State} {c : Vm} {v : Int} {e : Stop} (h : outPut s c v = .error e) :
    (e = .raise ⟨.outputLogFull, some 0, none⟩ ∧ c.io = .queue ∧ c.logFull s.params = true) ∨
    (c.io = .channel ∧ ∃ j, s.ctl.outPort s.active = .channel j ∧
      ((e = .fault .noChannel ∧ s.chans[j]? = none) ∨
       ∃ ch, s.chans[j]? = some ch ∧ s.space ch = false ∧
        ((e = .raise ⟨.excessOutput, some 0, none⟩ ∧ s.dead ch = true) ∨ (e = .block ∧ s.consumerLive ch = true)))) := by
  unfold outPut at h
  split at h
  · rename_i hio
    split at h
    · rename_i hf
      cases h
      exact .inl ⟨rfl, hio, hf⟩
    · cases h
  · rename_i hio
    split at h
    · cases h
    · rename_i j hp
      refine .inr ⟨hio, j, hp, ?_⟩
      split at h
      · rename_i hn
        cases h
        exact .inl ⟨rfl, hn⟩
      · rename_i ch hch
        refine .inr ⟨ch, hch, ?_⟩
        split at h
        · cases h
        · rename_i hs
          have hs' : s.space ch = false := by simpa using hs
          refine ⟨hs', ?_⟩
          split at h
          · rename_i hd
            cases h
            exact .inl ⟨rfl, hd⟩
          · rename_i hd
            cases h
            refine .inr ⟨rfl, ?_⟩
            simpa [State.dead, hs'] using hd

@[simp] theorem tapped_config (s : State) (v : Int) : (s.tapped v).config = s.ctl.config := by
  unfold State.tapped; split <;> [rfl; (split <;> rfl)]
@[simp] theorem tapped_pstatus (s : State) (v : Int) : (s.tapped v).pstatus = s.ctl.pstatus := by
  unfold State.tapped; split <;> [rfl; (split <;> rfl)]
@[simp] theorem tapped_sink (s : State) (v : Int) : (s.tapped v).sink = s.ctl.sink := by
  unfold State.tapped; split <;> [rfl; (split <;> rfl)]
@[simp] theorem tapped_abort (s : State) (v : Int) : (s.tapped v).abort = s.ctl.abort := by
  unfold State.tapped; split <;> [rfl; (split <;> rfl)]
@[simp] theorem tapped_cur (s : State) (v : Int) : (s.tapped v).cur = s.ctl.cur := by
  unfold State.tapped; split <;> [rfl; (split <;> rfl)]

/-- The result after an emission is the value emitted by the last core, or as before (R179). -/
theorem tapped_result (s : State) (v : Int) : (s.tapped v).result = some v ∨ (s.tapped v).result = s.ctl.result := by
  unfold State.tapped; split <;> [exact .inr rfl; (split <;> [exact .inl rfl; exact .inr rfl])]

/-- The controller after an emission (R179). -/
theorem tapped_eq (s : State) (v : Int) :
    s.tapped v = { s.ctl with
      result := if s.setting = .pipeline ∧ s.active + 1 = s.ctl.config.n then some v else s.ctl.result } := by
  unfold State.tapped
  cases hs : s.setting
  · simp
  · simp only [true_and]; split <;> rfl

/-- A standalone core has no result tap. -/
theorem tapped_standalone {s : State} (h : s.setting = .standalone) (v : Int) : s.tapped v = s.ctl := by
  simp [State.tapped, h]

/-! ## The whole step -/

/-- Fetch and decode answer an instruction of the active core, which is in bounds (R92). -/
theorem fetchInstr_eq_ok {s : State} {i : Instr} :
    s.fetchInstr = .ok i ↔ ∃ c win, s.Active c ∧ c.mem.slice c.pc 4 = some win ∧ decode s.params.unused win = .ok i := by
  simp only [State.fetchInstr, bind_eq_ok, vm_eq_ok, Vm.fetchInstr]
  constructor
  · rintro ⟨c, hc, h⟩
    split at h
    · cases h
    · rename_i win hw
      split at h
      · rename_i j hj
        cases h
        exact ⟨c, win, hc, hw, hj⟩
      · cases h
  · rintro ⟨c, win, hc, hw, hd⟩
    exact ⟨c, hc, by simp [hw, hd]⟩

/-- Fetch and decode raise, at P1 or at P2 to P4; or the active core is not there. -/
theorem fetchInstr_eq_error {s : State} {e : Stop} :
    s.fetchInstr = .error e ↔ (s.core? s.active = none ∧ e = .fault .noCore) ∨
      ∃ c, s.Active c ∧ ((c.mem.slice c.pc 4 = none ∧ e = outOfBounds none c.pc) ∨
        ∃ win x, c.mem.slice c.pc 4 = some win ∧ decode s.params.unused win = .error x ∧ e = .raise (decodeRaise c.pc x)) := by
  simp only [State.fetchInstr, bind_eq_error, vm_eq_error, vm_eq_ok, Vm.fetchInstr]
  refine or_congr Iff.rfl (exists_congr fun c => and_congr Iff.rfl ?_)
  split
  · rename_i hw; simp [hw, eq_comm]
  · rename_i win hw
    split
    · rename_i j hj; simp [hw, hj]
    · rename_i x hx; simp [hw, hx, eq_comm]

/-- One step that answers a next state: nothing happens, the controller steps, or a core runs. -/
theorem stepWith_next {choice : Nat} {s t : State} (h : stepWith choice s = .next t) :
    (s.plan choice = .idle ∧ t = s) ∨ s.plan choice = .control t ∨
      ∃ k, s.plan choice = .core k ∧ (s.chose.select k).runActive = .next t := by
  unfold stepWith at h
  split at h
  · rename_i hp; cases h; exact .inl ⟨hp, rfl⟩
  · cases h
  · rename_i s' hp; cases h; exact .inr (.inl hp)
  · rename_i k hp; exact .inr (.inr ⟨k, hp, h⟩)

/-- The step of the active core that answers a next state: the decoded instruction's, or a raise at fetch or decode. -/
theorem runActive_next {s t : State} (h : s.runActive = .next t) :
    (∃ i, s.fetchInstr = .ok i ∧ exec i s = .next t) ∨ ∃ r c, s.fetchInstr = .error (.raise r) ∧ s.Active c ∧ t = s.takeFault c r := by
  unfold State.runActive at h
  split at h
  · rename_i i hi; exact .inl ⟨i, hi, h⟩
  · rename_i e he
    rcases conclude_next h with hk | ⟨hk, -⟩ | ⟨r, c, hk, hc, rfl⟩
    · cases hk
    · cases hk
      rcases fetchInstr_eq_error.1 he with ⟨-, h⟩ | ⟨c, -, ⟨-, h⟩ | ⟨win, x, -, -, h⟩⟩ <;> cases h
    · cases hk
      exact .inr ⟨r, c, he, hc, rfl⟩

/-- The pick of a choice is one of the enabled cores. -/
theorem pick_mem {choice k : Nat} {ks : List Nat} (h : pick choice ks = some k) : k ∈ ks := by
  unfold pick at h
  split at h
  · cases h
  · cases h; simp
  · exact List.mem_of_getElem? h

/-- A choice picks nothing only when no core is enabled. -/
theorem pick_eq_none {choice : Nat} {ks : List Nat} : pick choice ks = none ↔ ks = [] := by
  unfold pick
  split
  · simp
  · simp
  · rename_i h0 h1
    have hl : 0 < ks.length := by
      rcases ks with _ | ⟨a, l⟩
      · exact absurd rfl h0
      · simp
    simp only [List.getElem?_eq_none_iff]
    constructor
    · intro h; have := Nat.mod_lt choice hl; omega
    · intro h; exact absurd h h0

theorem mem_enabledCores {s : State} {k : Nat} : k ∈ s.enabledCores ↔ k < s.cores.length ∧ s.enabled k = true := by
  simp [State.enabledCores]

/-- A core that is enabled is there and Running (R34). -/
theorem enabled_running {s : State} {k : Nat} (h : s.enabled k = true) : ∃ c, s.core? k = some c ∧ c.status = .running := by
  simp only [State.enabled, Bool.and_eq_true, State.isRunning] at h
  cases hc : s.core? k with
  | none => simp [hc] at h
  | some c =>
    refine ⟨c, rfl, ?_⟩
    have := h.1
    simpa [hc] using this

/-- The core of a plan is there and Running (R36, R185, R190). -/
theorem plan_core_running {choice k : Nat} {s : State} (h : s.plan choice = .core k) :
    ∃ c, s.core? k = some c ∧ c.status = .running := by
  unfold State.plan at h
  split at h
  · unfold State.planStandalone at h
    split at h
    · cases h
    · rename_i c hc
      split at h
      · cases h; exact ⟨c, hc, ‹_›⟩
      · cases h
  · split at h
    · split at h
      · unfold State.planSync at h
        split at h
        · cases h
        · rename_i c hc
          split at h
          · cases h; exact ⟨c, hc, ‹_›⟩
          · cases h
          · split at h <;> cases h
      · unfold State.planConcurrent at h
        split at h
        · rename_i j hj
          cases h
          exact enabled_running (mem_enabledCores.1 (pick_mem hj)).2
        · cases h
    · cases h
    · cases h
    · cases h

end Sys2Proof.Machine
end

