-- ==== Sys2Proof/Laws/Exec.lean ====
section
/-! SUPPORT. What the execution of an instruction can do, once for all instructions: its commit, a block, or a raise. -/

namespace Sys2Proof.Machine

/-- The commits of the nine instructions, for the active core `c` of `s`. -/
inductive Commits (s : State) (c : Vm) : Instr → State → Prop where
  | add {p1 p2 p3 : Param} {a b r : Int} {d : Nat} : ReadsAs c p1 a → ReadsAs c p2 b → narrow s.params (a + b) = .ok r →
      StoresAt c p3 d → Commits s c (.add p1 p2 p3) (s.setVm (c.store d r 4))
  | mul {p1 p2 p3 : Param} {a b r : Int} {d : Nat} : ReadsAs c p1 a → ReadsAs c p2 b → narrow s.params (a * b) = .ok r →
      StoresAt c p3 d → Commits s c (.mul p1 p2 p3) (s.setVm (c.store d r 4))
  | inp {p1 : Param} {d : Nat} {k : Taken} : StoresAt c p1 d → inTake s c = .ok k →
      Commits s c (.inp p1) ({ s with chans := k.chans }.setVm (k.vm.store d k.value 2))
  | out {p1 : Param} {v : Int} {e : Emitted} : ReadsAs c p1 v → outPut s c v = .ok e →
      Commits s c (.out p1) ({ s with chans := e.chans, ctl := e.ctl }.setVm (e.vm.goto (e.vm.pc + 2)))
  | jt {p1 p2 : Param} {a v : Int} : ReadsAs c p1 a → ReadsAs c p2 v →
      Commits s c (.jt p1 p2) (s.setVm (c.goto (if a ≠ 0 then v else c.pc + 3)))
  | jf {p1 p2 : Param} {a v : Int} : ReadsAs c p1 a → ReadsAs c p2 v →
      Commits s c (.jf p1 p2) (s.setVm (c.goto (if a = 0 then v else c.pc + 3)))
  | lt {p1 p2 p3 : Param} {a b : Int} {d : Nat} : ReadsAs c p1 a → ReadsAs c p2 b → StoresAt c p3 d →
      Commits s c (.lt p1 p2 p3) (s.setVm (c.store d (truth (decide (a < b))) 4))
  | eq {p1 p2 p3 : Param} {a b : Int} {d : Nat} : ReadsAs c p1 a → ReadsAs c p2 b → StoresAt c p3 d →
      Commits s c (.eq p1 p2 p3) (s.setVm (c.store d (truth (decide (a = b))) 4))
  | halt : Commits s c .halt (s.setVm c.halt)

/-- The raises of the nine instructions: which codes, and that a reported address is a parameter cell. -/
def Raise.Of (i : Instr) (r : Raise) : Prop :=
  r.code ∈ [FaultCode.outOfBounds, .invalidStoreTarget, .inputExhausted, .overflow, .excessOutput, .outputLogFull] ∧
    ∀ a ∈ r.addr, ∃ p ∈ i.operands, p.raw = a

theorem fetch_raise {c : Vm} {n : Nat} {p : Param} {r : Raise} {i : Instr} (h : fetch c n p = .error (.raise r))
    (hp : p ∈ i.operands) : Raise.Of i r := by
  obtain ⟨a, rfl, -, he⟩ := fetch_eq_error.1 h
  cases he
  exact ⟨by simp, fun b hb => ⟨_, hp, by simpa [Param.raw] using hb⟩⟩

theorem storeTarget_raise {c : Vm} {n : Nat} {p : Param} {r : Raise} {i : Instr}
    (h : storeTarget c n p = .error (.raise r)) (hp : p ∈ i.operands) : Raise.Of i r := by
  rcases storeTarget_eq_error.1 h with ⟨v, rfl, he⟩ | ⟨a, rfl, -, he⟩
  · cases he; exact ⟨by simp, by simp⟩
  · cases he; exact ⟨by simp, fun b hb => ⟨_, hp, by simpa [Param.raw] using hb⟩⟩

theorem fetch_not_block {c : Vm} {n : Nat} {p : Param} : fetch c n p ≠ .error .block := by
  intro h
  obtain ⟨a, -, -, he⟩ := fetch_eq_error.1 h
  cases he

theorem storeTarget_not_block {c : Vm} {n : Nat} {p : Param} : storeTarget c n p ≠ .error .block := by
  intro h
  rcases storeTarget_eq_error.1 h with ⟨v, -, he⟩ | ⟨a, -, -, he⟩ <;> cases he

theorem vm_not_block {s : State} : s.vm ≠ .error .block := by
  intro h
  have := (vm_eq_error.1 h).2
  cases this

theorem vm_not_raise {s : State} {r : Raise} : s.vm ≠ .error (.raise r) := by
  intro h
  have := (vm_eq_error.1 h).2
  cases this

theorem narrow_eq_error {p : Params} {x : Int} {e : Stop} (h : narrow p x = .error e) :
    e = .raise ⟨.overflow, none, none⟩ ∧ ¬Fits p.w x ∧ p.overflow = .fault := by
  unfold narrow at h
  split at h
  · cases h
  · split at h
    · cases h; exact ⟨rfl, ‹_›, ‹_›⟩
    · cases h

/-- An instruction of the store shape never blocks, and raises what its operands and its computation raise. -/
theorem storeBinary_eq_error {f : Int → Int → Except Stop Int} {p1 p2 p3 : Param} {s : State} {e : Stop}
    (h : storeBinary f p1 p2 p3 s = .error e) :
    s.vm = .error e ∨ ∃ c, s.Active c ∧ (fetch c 0 p1 = .error e ∨ ∃ a, ReadsAs c p1 a ∧ (fetch c 1 p2 = .error e ∨
      ∃ b, ReadsAs c p2 b ∧ (f a b = .error e ∨ storeTarget c 2 p3 = .error e))) := by
  simp only [storeBinary, bind_eq_error, vm_eq_ok, fetch_eq_ok] at h
  rcases h with h | ⟨c, hc, h | ⟨a, ha, h | ⟨b, hb, h | ⟨r, -, h | ⟨d, -, h⟩⟩⟩⟩⟩
  · exact .inl h
  · exact .inr ⟨c, hc, .inl h⟩
  · exact .inr ⟨c, hc, .inr ⟨a, ha, .inl h⟩⟩
  · exact .inr ⟨c, hc, .inr ⟨a, ha, .inr ⟨b, hb, .inl h⟩⟩⟩
  · exact .inr ⟨c, hc, .inr ⟨a, ha, .inr ⟨b, hb, .inr h⟩⟩⟩
  · cases h

theorem jumpIf_eq_error {g : Int → Bool} {p1 p2 : Param} {s : State} {e : Stop} (h : jumpIf g p1 p2 s = .error e) :
    s.vm = .error e ∨ ∃ c, s.Active c ∧ (fetch c 0 p1 = .error e ∨ fetch c 1 p2 = .error e) := by
  simp only [jumpIf, bind_eq_error, vm_eq_ok, fetch_eq_ok] at h
  rcases h with h | ⟨c, hc, h | ⟨a, -, h | ⟨b, -, h⟩⟩⟩
  · exact .inl h
  · exact .inr ⟨c, hc, .inl h⟩
  · exact .inr ⟨c, hc, .inr h⟩
  · cases h

theorem inEffect_eq_error {p1 : Param} {s : State} {e : Stop} (h : inEffect p1 s = .error e) :
    s.vm = .error e ∨ ∃ c, s.Active c ∧ (storeTarget c 0 p1 = .error e ∨ ∃ d, StoresAt c p1 d ∧ inTake s c = .error e) := by
  simp only [inEffect, bind_eq_error, vm_eq_ok, storeTarget_eq_ok] at h
  rcases h with h | ⟨c, hc, h | ⟨d, hd, h | ⟨k, -, h⟩⟩⟩
  · exact .inl h
  · exact .inr ⟨c, hc, .inl h⟩
  · exact .inr ⟨c, hc, .inr ⟨d, hd, h⟩⟩
  · cases h

theorem outEffect_eq_error {p1 : Param} {s : State} {e : Stop} (h : outEffect p1 s = .error e) :
    s.vm = .error e ∨ ∃ c, s.Active c ∧ (fetch c 0 p1 = .error e ∨ ∃ v, ReadsAs c p1 v ∧ outPut s c v = .error e) := by
  simp only [outEffect, bind_eq_error, vm_eq_ok, fetch_eq_ok] at h
  rcases h with h | ⟨c, hc, h | ⟨v, hv, h | ⟨k, -, h⟩⟩⟩
  · exact .inl h
  · exact .inr ⟨c, hc, .inl h⟩
  · exact .inr ⟨c, hc, .inr ⟨v, hv, h⟩⟩
  · cases h

theorem inTake_raise {s : State} {c : Vm} {r : Raise} {i : Instr} (h : inTake s c = .error (.raise r)) : Raise.Of i r := by
  rcases inTake_eq_error h with ⟨he, -⟩ | ⟨he, -⟩ | ⟨he, -⟩ <;> cases he
  exact ⟨by decide, by simp⟩

theorem outPut_raise {s : State} {c : Vm} {v : Int} {r : Raise} {i : Instr} (h : outPut s c v = .error (.raise r)) :
    Raise.Of i r := by
  rcases outPut_eq_error h with ⟨he, -⟩ | ⟨-, j, -, ⟨he, -⟩ | ⟨ch, -, -, ⟨he, -⟩ | ⟨he, -⟩⟩⟩ <;> cases he
  · exact ⟨by decide, by simp⟩
  · exact ⟨by decide, by simp⟩

/-- The execution of an instruction that answers a next state: its commit, a block that changes nothing (in and out only,
in a Channel-bound core), or a raise. -/
theorem exec_next {i : Instr} {s t : State} {c : Vm} (hc : s.Active c) (h : exec i s = .next t) :
    Commits s c i t ∨ (t = s ∧ ((∃ p, i = .inp p) ∨ ∃ p, i = .out p)) ∨ ∃ r, t = s.takeFault c r ∧ Raise.Of i r := by
  have vmInj : ∀ {d : Vm}, s.Active d → d = c := fun hd => by
    unfold State.Active at hc hd; rw [hc] at hd; exact (Option.some.inj hd).symm
  have store : ∀ {f : Int → Int → Except Stop Int} {p1 p2 p3 : Param} {j : Instr}, j.operands = [p1, p2, p3] →
      (∀ a b e, f a b = .error e → e = .raise ⟨.overflow, none, none⟩) →
      s.conclude (storeBinary f p1 p2 p3 s) = .next t →
      (∃ a b r d, ReadsAs c p1 a ∧ ReadsAs c p2 b ∧ f a b = .ok r ∧ StoresAt c p3 d ∧ t = s.setVm (c.store d r 4)) ∨
        ∃ r, t = s.takeFault c r ∧ Raise.Of j r := by
    intro f p1 p2 p3 j hj hf h
    rcases conclude_next h with he | ⟨he, -⟩ | ⟨r, d, he, hd, rfl⟩
    · obtain ⟨c', a, b, r, d, hc', h1, h2, h3, h4, rfl⟩ := storeBinary_eq_ok.1 he
      obtain rfl := vmInj hc'
      exact .inl ⟨a, b, r, d, h1, h2, h3, h4, rfl⟩
    · rcases storeBinary_eq_error he with he | ⟨c', -, he | ⟨a, -, he | ⟨b, -, he | he⟩⟩⟩
      · exact absurd he vm_not_block
      · exact absurd he fetch_not_block
      · exact absurd he fetch_not_block
      · have := hf _ _ _ he; cases this
      · exact absurd he storeTarget_not_block
    · obtain rfl := vmInj hd
      refine .inr ⟨r, rfl, ?_⟩
      rcases storeBinary_eq_error he with he | ⟨c', -, he | ⟨a, -, he | ⟨b, -, he | he⟩⟩⟩
      · exact absurd he vm_not_raise
      · exact fetch_raise he (by simp [hj])
      · exact fetch_raise he (by simp [hj])
      · have := hf _ _ _ he; cases this; exact ⟨by decide, by simp⟩
      · exact storeTarget_raise he (by simp [hj])
  have jump : ∀ {g : Int → Bool} {p1 p2 : Param} {j : Instr}, j.operands = [p1, p2] →
      s.conclude (jumpIf g p1 p2 s) = .next t →
      (∃ a v, ReadsAs c p1 a ∧ ReadsAs c p2 v ∧ t = s.setVm (c.goto (if g a then v else c.pc + 3))) ∨
        ∃ r, t = s.takeFault c r ∧ Raise.Of j r := by
    intro g p1 p2 j hj h
    rcases conclude_next h with he | ⟨he, -⟩ | ⟨r, d, he, hd, rfl⟩
    · obtain ⟨c', a, v, hc', h1, h2, rfl⟩ := jumpIf_eq_ok.1 he
      obtain rfl := vmInj hc'
      exact .inl ⟨a, v, h1, h2, rfl⟩
    · rcases jumpIf_eq_error he with he | ⟨c', -, he | he⟩
      · exact absurd he vm_not_block
      · exact absurd he fetch_not_block
      · exact absurd he fetch_not_block
    · obtain rfl := vmInj hd
      refine .inr ⟨r, rfl, ?_⟩
      rcases jumpIf_eq_error he with he | ⟨c', -, he | he⟩
      · exact absurd he vm_not_raise
      · exact fetch_raise he (by simp [hj])
      · exact fetch_raise he (by simp [hj])
  cases i with
  | add p1 p2 p3 =>
    rcases store (j := .add p1 p2 p3) rfl (fun a b e he => (narrow_eq_error he).1) h with ⟨a, b, r, d, h1, h2, h3, h4, rfl⟩ | hr
    · exact .inl (.add h1 h2 h3 h4)
    · exact .inr (.inr hr)
  | mul p1 p2 p3 =>
    rcases store (j := .mul p1 p2 p3) rfl (fun a b e he => (narrow_eq_error he).1) h with ⟨a, b, r, d, h1, h2, h3, h4, rfl⟩ | hr
    · exact .inl (.mul h1 h2 h3 h4)
    · exact .inr (.inr hr)
  | lt p1 p2 p3 =>
    rcases store (j := .lt p1 p2 p3) rfl (fun a b e he => by cases he) h with ⟨a, b, r, d, h1, h2, h3, h4, rfl⟩ | hr
    · cases h3; exact .inl (.lt h1 h2 h4)
    · exact .inr (.inr hr)
  | eq p1 p2 p3 =>
    rcases store (j := .eq p1 p2 p3) rfl (fun a b e he => by cases he) h with ⟨a, b, r, d, h1, h2, h3, h4, rfl⟩ | hr
    · cases h3; exact .inl (.eq h1 h2 h4)
    · exact .inr (.inr hr)
  | jt p1 p2 =>
    rcases jump (j := .jt p1 p2) rfl h with ⟨a, v, h1, h2, rfl⟩ | hr
    · simp only [decide_eq_true_eq]; exact .inl (.jt h1 h2)
    · exact .inr (.inr hr)
  | jf p1 p2 =>
    rcases jump (j := .jf p1 p2) rfl h with ⟨a, v, h1, h2, rfl⟩ | hr
    · simp only [decide_eq_true_eq]; exact .inl (.jf h1 h2)
    · exact .inr (.inr hr)
  | inp p1 =>
    rcases conclude_next h with he | ⟨-, rfl⟩ | ⟨r, d, he, hd, rfl⟩
    · obtain ⟨c', d, k, hc', h1, h2, rfl⟩ := inEffect_eq_ok.1 he
      obtain rfl := vmInj hc'
      exact .inl (.inp h1 h2)
    · exact .inr (.inl ⟨rfl, .inl ⟨p1, rfl⟩⟩)
    · obtain rfl := vmInj hd
      refine .inr (.inr ⟨r, rfl, ?_⟩)
      rcases inEffect_eq_error he with he | ⟨c', -, he | ⟨d, -, he⟩⟩
      · exact absurd he vm_not_raise
      · exact storeTarget_raise he (by simp [Instr.operands])
      · exact inTake_raise he
  | out p1 =>
    rcases conclude_next h with he | ⟨-, rfl⟩ | ⟨r, d, he, hd, rfl⟩
    · obtain ⟨c', v, e, hc', h1, h2, rfl⟩ := outEffect_eq_ok.1 he
      obtain rfl := vmInj hc'
      exact .inl (.out h1 h2)
    · exact .inr (.inl ⟨rfl, .inr ⟨p1, rfl⟩⟩)
    · obtain rfl := vmInj hd
      refine .inr (.inr ⟨r, rfl, ?_⟩)
      rcases outEffect_eq_error he with he | ⟨c', -, he | ⟨d, -, he⟩⟩
      · exact absurd he vm_not_raise
      · exact fetch_raise he (by simp [Instr.operands])
      · exact outPut_raise he
  | halt =>
    rcases conclude_next h with he | ⟨he, -⟩ | ⟨r, d, he, hd, rfl⟩
    · obtain ⟨c', hc', rfl⟩ := haltEffect_eq_ok.1 he
      obtain rfl := vmInj hc'
      exact .inl .halt
    · simp only [haltEffect, bind_eq_error, vm_eq_ok] at he
      rcases he with he | ⟨c', -, he⟩
      · exact absurd he vm_not_block
      · cases he
    · simp only [haltEffect, bind_eq_error, vm_eq_ok] at he
      rcases he with he | ⟨c', -, he⟩
      · exact absurd he vm_not_raise
      · cases he

/-- What a decode error raises is OutOfBounds, UnknownOpcode or UnknownParameterMode. -/
theorem fetchInstr_raise {s : State} {c : Vm} {r : Raise} (hc : s.Active c) (h : s.fetchInstr = .error (.raise r)) :
    r = ⟨.outOfBounds, none, some c.pc⟩ ∧ ¬c.mem.InBounds c.pc ∨
      ∃ win x, c.mem.slice c.pc 4 = some win ∧ decode s.params.unused win = .error x ∧ r = decodeRaise c.pc x := by
  rcases fetchInstr_eq_error.1 h with ⟨-, he⟩ | ⟨c', hc', ⟨hw, he⟩ | ⟨win, x, hw, hd, he⟩⟩
  · cases he
  · unfold State.Active at hc hc'
    rw [hc] at hc'
    cases hc'
    cases he
    exact .inl ⟨rfl, Memory.slice_eq_none.1 hw⟩
  · unfold State.Active at hc hc'
    rw [hc] at hc'
    cases hc'
    cases he
    exact .inr ⟨win, x, hw, hd, rfl⟩

/-- An instruction never refuses, and stops for a missing part only. -/
theorem exec_not_refused {i : Instr} {s : State} {r : Refusal} : exec i s ≠ .refused r := by
  cases i <;> exact conclude_not_refused

end Sys2Proof.Machine
end

