-- ==== Sys2Proof/Laws/PerInstr.lean ====
section
/-! SUPPORT. Statements made per instruction: the encoding of an instruction has the length R80 and R91 give it. -/

/-- The encoding of `i` has `1 + k` cells, as many as the pc advances by (R80, R91). -/
def Sys2Proof.Laws.EncodedLength.Statement (i : Sys2Proof.Instr) : Prop :=
  (Sys2Proof.encode i).length = i.length

theorem Sys2Proof.Laws.EncodedLength.add (p1 p2 p3 : Sys2Proof.Param) :
    Sys2Proof.Laws.EncodedLength.Statement (.add p1 p2 p3) := rfl

theorem Sys2Proof.Laws.EncodedLength.mul (p1 p2 p3 : Sys2Proof.Param) :
    Sys2Proof.Laws.EncodedLength.Statement (.mul p1 p2 p3) := rfl

theorem Sys2Proof.Laws.EncodedLength.inp (p1 : Sys2Proof.Param) :
    Sys2Proof.Laws.EncodedLength.Statement (.inp p1) := rfl

theorem Sys2Proof.Laws.EncodedLength.out (p1 : Sys2Proof.Param) :
    Sys2Proof.Laws.EncodedLength.Statement (.out p1) := rfl

theorem Sys2Proof.Laws.EncodedLength.jt (p1 p2 : Sys2Proof.Param) :
    Sys2Proof.Laws.EncodedLength.Statement (.jt p1 p2) := rfl

theorem Sys2Proof.Laws.EncodedLength.jf (p1 p2 : Sys2Proof.Param) :
    Sys2Proof.Laws.EncodedLength.Statement (.jf p1 p2) := rfl

theorem Sys2Proof.Laws.EncodedLength.lt (p1 p2 p3 : Sys2Proof.Param) :
    Sys2Proof.Laws.EncodedLength.Statement (.lt p1 p2 p3) := rfl

theorem Sys2Proof.Laws.EncodedLength.eq (p1 p2 p3 : Sys2Proof.Param) :
    Sys2Proof.Laws.EncodedLength.Statement (.eq p1 p2 p3) := rfl

theorem Sys2Proof.Laws.EncodedLength.halt : Sys2Proof.Laws.EncodedLength.Statement .halt := rfl
end

