-- ==== Sys2Proof/Laws/Step.lean ====
section
/-! SUPPORT. What one step can do, once for all: a core's commit, block or raise, or one of the controller's steps. -/

namespace Sys2Proof.Machine

/-- What a commit does to a channel list: nothing, the active core's own channel loses its head, or the channel its output
port leads to gains a value at its end (R172, R173). -/
def ChansMove (s : State) (c : Vm) (l : List Channel) : Prop :=
  l = s.chans ∨
  (c.io = .channel ∧ ∃ ch v rest, s.chans[s.active]? = some ch ∧ ch.buf = v :: rest ∧ l = s.chans.set s.active ch.pop) ∨
  (c.io = .channel ∧ ∃ j ch v, s.ctl.outPort s.active = .channel j ∧ s.chans[j]? = some ch ∧ s.space ch = true ∧
    l = s.chans.set j (ch.push v))

/-- What a commit does to the controller: nothing, or the emission of a value `v` by out (R178, R179). -/
def CtlMove (s : State) (c : Vm) (i : Instr) (p : Controller) : Prop :=
  p = s.ctl ∨ ∃ q v, i = .out q ∧ ReadsAs c q v ∧
    (p = s.tapped v ∨ (c.io = .channel ∧ s.ctl.outPort s.active = .sink ∧
      p = { s.tapped v with sink := s.ctl.sink ++ [v] }))

/-- A commit changes the active core, a channel and the controller as these say, and nothing else. -/
theorem Commits.effect {s t : State} {c : Vm} {i : Instr} (h : Commits s c i t) :
    ∃ d, t = { s with cores := s.cores.set s.active d, chans := t.chans, ctl := t.ctl } ∧
      d.io = c.io ∧ d.fault = c.fault ∧ d.mem.len = c.mem.len ∧ d.started = c.started ∧
      ((d.status = c.status ∧ d.done = c.done) ∨ (i = .halt ∧ d = c.halt)) ∧
      ChansMove s c t.chans ∧ CtlMove s c i t.ctl := by
  cases h with
  | add h1 h2 h3 h4 => exact ⟨_, rfl, rfl, rfl, rfl, rfl, .inl ⟨rfl, rfl⟩, .inl rfl, .inl rfl⟩
  | mul h1 h2 h3 h4 => exact ⟨_, rfl, rfl, rfl, rfl, rfl, .inl ⟨rfl, rfl⟩, .inl rfl, .inl rfl⟩
  | jt h1 h2 => exact ⟨_, rfl, rfl, rfl, rfl, rfl, .inl ⟨rfl, rfl⟩, .inl rfl, .inl rfl⟩
  | jf h1 h2 => exact ⟨_, rfl, rfl, rfl, rfl, rfl, .inl ⟨rfl, rfl⟩, .inl rfl, .inl rfl⟩
  | lt h1 h2 h3 => exact ⟨_, rfl, rfl, rfl, rfl, rfl, .inl ⟨rfl, rfl⟩, .inl rfl, .inl rfl⟩
  | eq h1 h2 h3 => exact ⟨_, rfl, rfl, rfl, rfl, rfl, .inl ⟨rfl, rfl⟩, .inl rfl, .inl rfl⟩
  | halt => exact ⟨_, rfl, rfl, rfl, rfl, rfl, .inr ⟨rfl, rfl⟩, .inl rfl, .inl rfl⟩
  | inp h1 h2 =>
    rcases inTake_eq_ok h2 with ⟨hio, rest, hq, e, e'⟩ | ⟨hio, ch, rest, hch, hb, e, e'⟩
    · exact ⟨_, rfl, by simp [e], by simp [e], by simp [e], by simp [e], .inl ⟨by simp [e], by simp [e]⟩,
        .inl (by simp [e']), .inl rfl⟩
    · exact ⟨_, rfl, by simp [e], by simp [e], by simp [e], by simp [e], .inl ⟨by simp [e], by simp [e]⟩,
        .inr (.inl ⟨hio, ch, _, rest, hch, hb, by simp [e']⟩), .inl rfl⟩
  | out h1 h2 =>
    rcases outPut_eq_ok h2 with ⟨hio, hf, rfl⟩ | ⟨hio, hp, rfl⟩ | ⟨hio, j, ch, hp, hch, hs, rfl⟩
    · exact ⟨_, rfl, rfl, rfl, rfl, rfl, .inl ⟨rfl, rfl⟩, .inl rfl, .inr ⟨_, _, rfl, h1, .inl rfl⟩⟩
    · exact ⟨_, rfl, rfl, rfl, rfl, rfl, .inl ⟨rfl, rfl⟩, .inl rfl, .inr ⟨_, _, rfl, h1, .inr ⟨hio, hp, rfl⟩⟩⟩
    · exact ⟨_, rfl, rfl, rfl, rfl, rfl, .inl ⟨rfl, rfl⟩, .inr (.inr ⟨hio, j, ch, _, hp, hch, hs, rfl⟩),
        .inr ⟨_, _, rfl, h1, .inl rfl⟩⟩

/-- The raise of a decode error has a code. -/
theorem decodeRaise_code (pc : Int) (x : DecodeError) : (decodeRaise pc x).code ≠ .none := by
  cases x <;> simp [decodeRaise]

/-- The step of the active core answers a commit, the state itself (a block of in or out), or a raise. -/
theorem runActive_cases {s t : State} {c : Vm} (hc : s.Active c) (h : s.runActive = .next t) :
    (∃ i, s.fetchInstr = .ok i ∧ Commits s c i t) ∨ t = s ∨ ∃ r, t = s.takeFault c r ∧ r.code ≠ .none := by
  rcases runActive_next h with ⟨i, hi, he⟩ | ⟨r, c', hf, hc', rfl⟩
  · rcases exec_next hc he with hm | ⟨rfl, -⟩ | ⟨r, rfl, hr⟩
    · exact .inl ⟨i, hi, hm⟩
    · exact .inr (.inl rfl)
    · refine .inr (.inr ⟨r, rfl, fun hn => ?_⟩)
      have := hr.1
      rw [hn] at this
      simp at this
  · have : c' = c := by
      unfold State.Active at hc hc'
      rw [hc] at hc'
      exact (Option.some.inj hc').symm
    subst this
    refine .inr (.inr ⟨r, rfl, ?_⟩)
    rcases fetchInstr_raise hc hf with ⟨rfl, -⟩ | ⟨win, x, -, -, rfl⟩
    · simp
    · exact decodeRaise_code _ _

/-- The core of a selected step is active and started. -/
theorem selected_active {s : State} {k : Nat} {c : Vm} (h : s.core? k = some c) :
    (s.chose.select k).Active { c with started := true } := by
  unfold State.Active
  have : s.chose.core? k = some c := by unfold State.core?; rw [State.chose_cores]; exact h
  rw [State.select_active, State.core?_select, this]
  rfl

/-- Setting a core after selecting it is setting it. -/
theorem select_set {s : State} {k : Nat} {d : Vm} : (s.select k).cores.set k d = s.cores.set k d := by
  rw [State.select_cores]
  apply List.ext_getElem?
  intro i
  by_cases h : k = i <;> simp [List.getElem?_set, h]

/-- The controller's steps (R187, R189, R190). -/
inductive ControlStep (s : State) : State → Prop where
  | excess {k : Nat} : s.ConcurrentRun → s.enabledCores = [] → s.allHalted = true → s.params.strictExcess = true →
      s.leftover? = some k → ControlStep s { s with ctl := s.ctl.abortWith .excessOutput (some k) }
  | terminated : s.ConcurrentRun → s.enabledCores = [] → s.allHalted = true →
      s.params.strictExcess = false ∨ s.leftover? = none →
      ControlStep s { s with ctl := { s.ctl with pstatus := .terminated } }
  | deadlock : s.ConcurrentRun → s.enabledCores = [] → s.allHalted = false →
      ControlStep s { s with ctl := s.ctl.abortWith .deadlock none }
  | syncFault {c : Vm} : s.SyncRun → s.core? s.ctl.cur = some c → c.status = .faulted →
      ControlStep s { s with ctl := s.ctl.abortBy s.ctl.cur c.fault }
  | syncExcess {c : Vm} : s.SyncRun → s.core? s.ctl.cur = some c → c.status = .halted → s.params.strictExcess = true →
      c.inQ ≠ [] → ControlStep s { s with ctl := s.ctl.abortWith .excessOutput (some s.ctl.cur) }
  | handOver {c d : Vm} {phase : Int} : s.SyncRun → s.core? s.ctl.cur = some c → c.status = .halted →
      s.params.strictExcess = false ∨ c.inQ = [] → s.ctl.cur + 1 < s.ctl.config.n → s.core? (s.ctl.cur + 1) = some d →
      s.ctl.config.phases[s.ctl.cur + 1]? = some phase →
      ControlStep s { s with
        cores := s.cores.set (s.ctl.cur + 1) { d with inQ := phase :: c.outLog }
        ctl := { s.ctl with cur := s.ctl.cur + 1 } }
  | syncEnd {c : Vm} : s.SyncRun → s.core? s.ctl.cur = some c → c.status = .halted →
      s.params.strictExcess = false ∨ c.inQ = [] → ¬s.ctl.cur + 1 < s.ctl.config.n →
      ControlStep s { s with ctl := { s.ctl with pstatus := .terminated } }

/-- A controller's step of the plan is one of the controller's steps. -/
theorem plan_control {choice : Nat} {s t : State} (h : s.plan choice = .control t) : ControlStep s t := by
  unfold State.plan at h
  split at h
  · unfold State.planStandalone at h
    split at h
    · cases h
    · split at h <;> cases h
  · rename_i hset
    split at h
    · rename_i hrun
      split at h
      · rename_i hmode
        have hs : s.SyncRun := ⟨hset, hrun, hmode⟩
        unfold State.planSync at h
        split at h
        · cases h
        · rename_i c hc
          split at h
          · cases h
          · rename_i hst; cases h; exact .syncFault hs hc hst
          · rename_i hst
            split at h
            · rename_i s' ha
              cases h
              unfold State.advanceSync at ha
              split at ha
              · rename_i hx
                simp only [Bool.and_eq_true, Bool.not_eq_true', List.isEmpty_eq_false_iff] at hx
                cases ha
                exact .syncExcess hs hc hst hx.1 hx.2
              · rename_i hx
                have hx' : s.params.strictExcess = false ∨ c.inQ = [] := by
                  cases h1 : s.params.strictExcess
                  · exact .inl rfl
                  · rw [h1] at hx; simp at hx; exact .inr hx
                split at ha
                · rename_i hlt
                  split at ha
                  · cases ha
                  · cases ha
                  · rename_i hd hp; cases ha; exact .handOver hs hc hst hx' hlt hd hp
                · rename_i hlt; cases ha; exact .syncEnd hs hc hst hx' hlt
            · cases h
      · rename_i hmode
        have hs : s.ConcurrentRun := ⟨hset, hrun, hmode⟩
        unfold State.planConcurrent at h
        split at h
        · cases h
        · rename_i hp
          have he := pick_eq_none.1 hp
          cases h
          split
          · rename_i hall
            unfold State.terminate
            split
            · rename_i k h1 h2; exact .excess hs he hall h1 h2
            · rename_i h1
              refine .terminated hs he hall ?_
              cases hx : s.params.strictExcess
              · exact .inl rfl
              · refine .inr ?_
                cases hl : s.leftover?
                · rfl
                · exact absurd hl (h1 _ hx)
          · rename_i hall; exact .deadlock hs he (by simpa using hall)
    · cases h
    · cases h
    · cases h

/-- One step: nothing; a controller's step; or the step of a Running core that is there. -/
theorem stepWith_cases {choice : Nat} {s t : State} (h : stepWith choice s = .next t) :
    (s.plan choice = .idle ∧ t = s) ∨ ControlStep s t ∨
      ∃ k c, s.plan choice = .core k ∧ s.core? k = some c ∧ c.status = .running ∧
        (s.chose.select k).Active { c with started := true } ∧ (s.chose.select k).runActive = .next t := by
  rcases stepWith_next h with ⟨hp, rfl⟩ | hp | ⟨k, hp, hr⟩
  · exact .inl ⟨hp, rfl⟩
  · exact .inr (.inl (plan_control hp))
  · obtain ⟨c, hc, hs⟩ := plan_core_running hp
    exact .inr (.inr ⟨k, c, hp, hc, hs, selected_active hc, hr⟩)

/-- A core made ready for a window has a canonical memory if it had one (log entry 12). -/
theorem Vm.placed_wf {c : Vm} {window : List Int} (h : c.mem.wf) : (c.placed window).mem.wf := by
  refine Memory.setAll_wf ⟨h.1, fun e he => ⟨?_, (h.2 e he).2⟩⟩ ?_
  · have := (h.2 e he).1
    exact Nat.lt_of_lt_of_le this (Nat.le_max_left _ _)
  · exact Nat.le_max_right _ _

end Sys2Proof.Machine
end

