-- ==== Sys2Proof/Machine/Assembler.lean ====
section
/-! DEFINITION. The assembler syntax the spec uses for its examples and the cells it stands for (spec 30_encoding.md R94 to R96). -/

namespace Sys2Proof.Machine

/-- `expr`: a signed decimal integer or a label, which stands for its address (R94). -/
inductive AsmExpr where
  | num (v : Int)
  | label (name : List Char)
  deriving DecidableEq, Repr

/-- `operand`: `[expr]` is position mode, `#expr` immediate mode (R94). -/
inductive AsmOperand where
  | position (e : AsmExpr)
  | immediate (e : AsmExpr)
  deriving DecidableEq, Repr

/-- `instr` or `directive` (R94). There are no pseudo-instructions (R96). -/
inductive AsmItem where
  | instr (op : Op) (operands : List AsmOperand)
  | cells (values : List AsmExpr)
  deriving DecidableEq, Repr

/-- `line := [label ':'] [instr | directive] [';' comment]` (R94), less its comment. -/
structure AsmLine where
  label : Option (List Char)
  item : Option AsmItem
  deriving DecidableEq, Repr

/-- Why a source is not assembled. -/
inductive AsmError where
  /-- A line does not follow the grammar of R94. -/
  | badLine (line : List Char)
  /-- The operand count differs from `k` (R95). -/
  | operandCount (op : Op) (count : Nat)
  /-- A label that no line defines. DESIGN CHOICE: R94 does not say what becomes of it (log entry 16). -/
  | undefinedLabel (name : List Char)
  /-- A label that two lines define. DESIGN CHOICE: R94 does not say what becomes of it (log entry 16). -/
  | duplicateLabel (name : List Char)
  deriving DecidableEq, Repr

/-! ## From lines to cells -/

/-- How many cells an item takes. -/
def AsmItem.size : AsmItem → Nat
  | .instr op _ => 1 + op.nparams
  | .cells values => values.length

/-- The address of each label (R94); `at'` is the address of the first line. -/
def labelTable : (at' : Nat) → List AsmLine → List (List Char × Nat)
  | _, [] => []
  | at', l :: rest =>
    let later := labelTable (at' + (match l.item with | some i => i.size | none => 0)) rest
    match l.label with
    | some name => (name, at') :: later
    | none => later

/-- The value of an expression. DESIGN CHOICE: R94 and R95 do not say what becomes of a value that no cell can hold; it is
emitted as it is, and a `load` of the image refuses it (log entry 28). -/
def AsmExpr.value (table : List (List Char × Nat)) : AsmExpr → Except AsmError Int
  | .num v => .ok v
  | .label name =>
    match table.find? fun e => e.1 == name with
    | some e => .ok (e.2 : Int)
    | none => .error (.undefinedLabel name)

/-- The parameter of an operand. -/
def AsmOperand.param (table : List (List Char × Nat)) : AsmOperand → Except AsmError Param
  | .position e => do return .position (← e.value table)
  | .immediate e => do return .immediate (← e.value table)

/-- The cells of an item: an instruction's are those of `encodeOp`, an immediate destination is accepted (R95). -/
def AsmItem.assemble (table : List (List Char × Nat)) : AsmItem → Except AsmError (List Int)
  | .instr op operands => do
    if operands.length = op.nparams then
      let ps ← operands.mapM (AsmOperand.param table)
      return encodeOp op ps
    else .error (.operandCount op operands.length)
  | .cells values => values.mapM (AsmExpr.value table)

/-- The cells of all lines. -/
def assembleLines (table : List (List Char × Nat)) : List AsmLine → Except AsmError (List Int)
  | [] => .ok []
  | l :: rest => do
    let here ← match l.item with
      | some i => i.assemble table
      | none => .ok []
    let later ← assembleLines table rest
    return here ++ later

/-- The first label defined twice. -/
def duplicateLabel? : List (List Char × Nat) → Option (List Char)
  | [] => none
  | e :: rest => if rest.any fun f => f.1 == e.1 then some e.1 else duplicateLabel? rest

/-- The image of an assembly program whose first line stands at address 0 (R94, R95). DESIGN CHOICE: a label that is
defined twice, or used and not defined, refuses the whole source (log entry 16). -/
def assemble (lines : List AsmLine) : Except AsmError (List Int) :=
  let table := labelTable 0 lines
  match duplicateLabel? table with
  | some name => .error (.duplicateLabel name)
  | none => assembleLines table lines

/-! ## From text to lines -/

/-- The mnemonics (R94). -/
def mnemonicOp : List Char → Option Op
  | ['a', 'd', 'd'] => some .add
  | ['m', 'u', 'l'] => some .mul
  | ['i', 'n'] => some .inp
  | ['o', 'u', 't'] => some .out
  | ['j', 't'] => some .jt
  | ['j', 'f'] => some .jf
  | ['l', 't'] => some .lt
  | ['e', 'q'] => some .eq
  | ['h', 'a', 'l', 't'] => some .halt
  | _ => none

/-- A character of a label. DESIGN CHOICE: R94 does not say, the model takes letters, digits and `_` (log entry 16). -/
def isLabelChar (c : Char) : Bool := c.isAlphanum || c == '_'

/-- A label. DESIGN CHOICE: R94 does not say which words are labels; an integer is none, so no line defines one (log
entry 16). -/
def isLabel (u : List Char) : Bool := !u.isEmpty && u.all isLabelChar && (parseInt u).isNone

/-- `expr` (R94). -/
def parseExpr (t : List Char) : Option AsmExpr :=
  let u := trimBlanks t
  match parseInt u with
  | some v => some (.num v)
  | none => if isLabel u then some (.label u) else none

/-- `operand` (R94). -/
def parseOperand (t : List Char) : Option AsmOperand :=
  match trimBlanks t with
  | '#' :: rest => (parseExpr rest).map .immediate
  | '[' :: rest => if rest.getLast? = some ']' then (parseExpr rest.dropLast).map .position else none
  | _ => none

/-- `[instr | directive]` (R94). DESIGN CHOICE: R94 is silent on white space; a blank must stand between the mnemonic or
`.cell` and what follows it (log entry 16). -/
def parseItem (t : List Char) : Option AsmItem :=
  let head := t.takeWhile fun c => !isBlank c
  let args := trimBlanks (t.dropWhile fun c => !isBlank c)
  if head = ['.', 'c', 'e', 'l', 'l'] then ((splitAtEvery ',' args).mapM parseExpr).map .cells
  else match mnemonicOp head with
    | none => none
    | some op =>
      if args = [] then some (.instr op [])
      else ((splitAtEvery ',' args).mapM parseOperand).map (.instr op)

/-- `line` (R94): what follows `;` is comment, what stands before `:` is a label. DESIGN CHOICE: a line that defines an
integer as a label does not follow the grammar (log entry 16). -/
def parseLine (t : List Char) : Except AsmError AsmLine :=
  let code := t.takeWhile fun c => c ≠ ';'
  let (label, rest) :=
    if code.contains ':' then
      (some (trimBlanks (code.takeWhile fun c => c ≠ ':')), (code.dropWhile fun c => c ≠ ':').tail)
    else (none, code)
  let body := trimBlanks rest
  match label with
  | some name => if isLabel name then finish label body else .error (.badLine t)
  | none => finish label body
where
  /-- The item of a line whose label is read. -/
  finish (label : Option (List Char)) (body : List Char) : Except AsmError AsmLine :=
    if body = [] then .ok ⟨label, none⟩
    else match parseItem body with
      | some i => .ok ⟨label, some i⟩
      | none => .error (.badLine t)

/-- The image of an assembly text, one line of it a line of the grammar (R94, R95). DESIGN CHOICE: lines end at a line feed,
carriage returns are dropped (log entry 16). -/
def assembleText (text : List Char) : Except AsmError (List Int) := do
  let lines ← (splitAtEvery '\n' (text.filter fun c => c ≠ '\r')).mapM parseLine
  assemble lines

end Sys2Proof.Machine
end

