-- ==== Sys2Proof/Tests/Slice0.lean ====
section
/-! SUPPORT. Tests of the model on single steps, with expected results from spec/95_test_vectors.md, and a witness for the
hypotheses of each statement. -/

open Sys2Proof Sys2Proof.Machine

namespace Sys2Proof.Tests

/-! ## Small states -/

/-- A standalone core after reset with an image and an input, under the parameters `p`. -/
def benchWith (p : Params) (image input : List Int) : State :=
  { State.resetFor p with cores := [Vm.resetWith .queue input (Memory.ofImage image)] }

/-- A standalone core after reset with an image and an input, under the defaults. -/
def bench (image input : List Int) : State := benchWith Params.default image input

/-- The core of a standalone machine after one step. -/
def after (s : State) : Option Vm :=
  match step s with
  | .next t => t.core? 0
  | .fault _ => none
  | .refused _ => none

/-- The value of a cell after one step. -/
def cellAfter (s : State) (a : Int) : Option Int := (after s).bind fun c => c.mem.read a

/-- The pc after one step. -/
def pcAfter (s : State) : Option Int := (after s).map fun c => c.pc

/-- The fault after one step: code, fpc, fparam, faddr. -/
def faultAfter (s : State) : Option (FaultCode × Option Int × Option Nat × Option Int) :=
  (after s).map fun c => (c.fault.fcode, c.fault.fpc, c.fault.fparam, c.fault.faddr)

/-- A core of a concurrent pipeline with a status and an image. -/
def chanCore (status : Status) (image : List Int) : Vm :=
  { Vm.resetWith .channel [] (Memory.ofImage image) with status := status, done := status == .halted }

/-- A core of a sync pipeline with a status, an image, an input and an output log. -/
def syncCore (status : Status) (image input output : List Int) : Vm :=
  { Vm.resetWith .queue input (Memory.ofImage image) with status := status, done := status == .halted, outLog := output }

/-- A configuration with a phase 0 for every core. -/
def configOf (n : Nat) (topology : Topology) (mode : PipeMode) : PipeConfig := ⟨n, topology, mode, List.replicate n 0⟩

/-- A running concurrent pipeline of these cores, channel `k` holding the values given. -/
def ringOf (topology : Topology) (cores : List Vm) (bufs : List (List Int)) : State :=
  let config := configOf cores.length topology .concurrent
  { State.reset with
    setting := .pipeline
    cores := cores
    chans := bufs.zipIdx.map fun x => ⟨x.1, wiredProducer config x.2, .core x.2⟩
    ctl := { Controller.reset with pstatus := .running, config := config } }

/-- A running sync pipeline of these cores, of which `cur` is the running one. -/
def chainOf (cores : List Vm) (cur : Nat) : State :=
  { State.reset with
    setting := .pipeline
    cores := cores
    ctl := { Controller.reset with pstatus := .running, config := configOf cores.length .linear .sync, cur := cur } }

/-! ## WellFormed refuses each ill-formed term -/

theorem test_wf_first_parameter : ¬Instr.Wf 8 (.add (.position 128) (.position 0) (.position 0)) ∧
    ¬Instr.Wf 8 (.inp (.position (-129))) ∧ ¬Instr.Wf 8 (.out (.immediate 128)) ∧
    Instr.Wf 8 (.add (.position 127) (.position 0) (.immediate (-128))) := by decide

theorem test_wf_second_parameter : ¬Instr.Wf 8 (.mul (.position 0) (.immediate 128) (.position 0)) ∧
    ¬Instr.Wf 8 (.jt (.position 0) (.position 128)) ∧ ¬Instr.Wf 8 (.jf (.position 0) (.immediate (-129))) ∧
    Instr.Wf 8 (.jt (.position 0) (.position 127)) := by decide

theorem test_wf_third_parameter : ¬Instr.Wf 8 (.lt (.position 0) (.position 0) (.position 128)) ∧
    ¬Instr.Wf 8 (.eq (.position 0) (.position 0) (.position (-129))) ∧ Instr.Wf 8 .halt := by decide

theorem test_wf_params : ¬{ Params.default with w := 0 }.Wf ∧ ¬{ Params.default with maxMemLen := 2 ^ 63 - 3 }.Wf ∧
    ¬{ Params.default with cap := 0 }.Wf ∧ Params.default.Wf := by decide

theorem test_wf_config : ¬PipeConfig.Wf 8 ⟨0, .linear, .sync, []⟩ ∧ ¬PipeConfig.Wf 8 ⟨2, .linear, .sync, [1]⟩ ∧
    ¬PipeConfig.Wf 8 ⟨1, .linear, .sync, [128]⟩ ∧ ¬PipeConfig.Wf 8 ⟨1, .feedback, .sync, [1]⟩ ∧
    PipeConfig.Wf 8 ⟨1, .feedback, .concurrent, [1]⟩ := by decide

/-- The encodings of R26 and R161. -/
theorem test_status_codes : [Status.running, .halted, .faulted].map Status.code = [0, 1, 2] ∧
    [FaultCode.none, .outOfBounds, .unknownOpcode, .unknownParameterMode, .invalidStoreTarget, .inputExhausted, .overflow,
      .excessOutput, .deadlock, .outputLogFull].map FaultCode.code = [0, 1, 2, 3, 4, 5, 6, 7, 8, 9] := ⟨rfl, rfl⟩

/-! ## Decoding: opcode cells written out digit by digit from R81, R83 and R89 -/

theorem test_decode_add : decode .fault [10101, 7, 8, 9] = .ok (.add (.immediate 7) (.position 8) (.immediate 9)) := rfl
theorem test_decode_mul : decode .fault [1002, 4, 3, 4] = .ok (.mul (.position 4) (.immediate 3) (.position 4)) := rfl
theorem test_decode_in : decode .fault [3, 9, 0, 0] = .ok (.inp (.position 9)) := rfl
theorem test_decode_out : decode .fault [104, -7, 99] = .ok (.out (.immediate (-7))) := rfl
theorem test_decode_jt : decode .fault [1005, 12, 9] = .ok (.jt (.position 12) (.immediate 9)) := rfl
theorem test_decode_jf : decode .fault [106, 11, 12] = .ok (.jf (.immediate 11) (.position 12)) := rfl
theorem test_decode_lt : decode .fault [107, 0, 27, 29] = .ok (.lt (.immediate 0) (.position 27) (.position 29)) := rfl
theorem test_decode_eq : decode .fault [1108, -1, 8, 3] = .ok (.eq (.immediate (-1)) (.immediate 8) (.position 3)) := rfl
theorem test_decode_halt : decode .fault [99] = .ok .halt := rfl

/-- DEC-1 to DEC-4: 0, -1, 98 and -99 are no opcodes. -/
theorem test_decode_illegal : decode .fault [0] = .error (.unknownOpcode 0) ∧
    decode .fault [-1] = .error (.unknownOpcode (-1)) ∧ decode .fault [98] = .error (.unknownOpcode 98) ∧
    decode .fault [-99] = .error (.unknownOpcode (-99)) := ⟨rfl, rfl, rfl, rfl⟩

/-- X9, DEC-5, DEC-6, DEC-10 and DEC-13: the parameter index of a bad mode digit, before a missing cell. -/
theorem test_decode_modes : decode .fault [207, 0, 0, 0] = .error (.unknownParameterMode 0) ∧
    decode .fault [20007, 0, 0, 0] = .error (.unknownParameterMode 2) ∧
    decode .fault [199] = .error (.unknownParameterMode 0) ∧ decode .ignore [199] = .ok .halt ∧
    decode .fault [1104, 5, 99] = .error (.unknownParameterMode 1) ∧
    decode .fault [20001, 0] = .error (.unknownParameterMode 2) := ⟨rfl, rfl, rfl, rfl, rfl, rfl⟩

/-- DEC-7 and DEC-8: the least missing parameter cell. -/
theorem test_decode_missing : decode .fault [1, 0, 0] = .error (.missingParameter 3) ∧
    decode .fault [1, 0] = .error (.missingParameter 2) := ⟨rfl, rfl⟩

/-- The encodings of R95's form, from the listings of X6 and P1. -/
theorem test_encode : encode (.eq (.position 9) (.position 10) (.position 9)) = [8, 9, 10, 9] ∧
    encode (.add (.position 27) (.immediate (-1)) (.position 27)) = [1001, 27, -1, 27] ∧
    encode (.jt (.immediate 1) (.immediate 6)) = [1105, 1, 6] ∧ encode .halt = [99] := ⟨rfl, rfl, rfl, rfl⟩

/-- `5: halt` defines no label, and an operand stands a blank apart from its mnemonic (log entry 16). -/
theorem test_bad_lines : assembleText ['5', ':', ' ', 'h', 'a', 'l', 't'] =
      .error (.badLine ['5', ':', ' ', 'h', 'a', 'l', 't']) ∧
    assembleText ['i', 'n', '[', '1', ']'] = .error (.badLine ['i', 'n', '[', '1', ']']) ∧
    assembleText ['x', '5', ':', ' ', 'h', 'a', 'l', 't'] = .ok [99] := ⟨rfl, rfl, rfl⟩

/-- The example of R94, and a label: `x: jt #1, #x`. -/
theorem test_assemble : assembleText ['m', 'u', 'l', ' ', '[', '4', ']', ',', ' ', '#', '3', ',', ' ', '[', '4', ']'] =
      .ok [1002, 4, 3, 4] ∧
    assemble [⟨some ['x'], some (.instr .jt [.immediate (.num 1), .immediate (.label ['x'])])⟩] = .ok [1105, 1, 0] :=
  ⟨rfl, rfl⟩

/-- An instruction given as the bits of its opcode cell, its parameter cells zero. -/
theorem test_table_word : decodeTableWord 8 4 = some (.out (.position 0)) ∧ decodeTableWord 8 99 = some .halt ∧
    decodeTableWord 64 1105 = some (.jt (.immediate 0) (.immediate 0)) ∧ decodeTableWord 8 0 = none := ⟨rfl, rfl, rfl, rfl⟩

/-- `out [0]` placed for the next step runs: it emits the cell at 0, its own opcode cell 4. -/
theorem test_fetch_word : (after (State.reset.withFetchWord 8 4)).map (fun c => (c.outLog, c.pc)) = some ([4], 2) := rfl

/-! ## One step of each instruction, from the vectors of 95_test_vectors.md -/

/-- ADD-2 -/
theorem test_add : cellAfter (bench [1101, -7, 3, 5, 99, 0] []) 5 = some (-4) := rfl
/-- ADD-5: the sources are read before the write. -/
theorem test_add_same_cell : cellAfter (bench [1, 5, 5, 5, 99, 21] []) 5 = some 42 := rfl
/-- MUL-6 -/
theorem test_mul_overflow :
    faultAfter (bench [1102, 4294967296, 4294967296, 5, 99, 0] []) = some (.overflow, some 0, none, none) := rfl
/-- X3 -/
theorem test_mul : cellAfter (bench [1002, 4, 3, 4, 33] []) 4 = some 99 := rfl
/-- IN-5: in writes its own parameter cell. -/
theorem test_in : cellAfter (bench [3, 1, 99] [7]) 1 = some 7 := rfl
/-- IN-3: the destination is checked before a value is taken. -/
theorem test_in_takes_nothing : (after (bench [103, 3, 99, 0] [1])).map (fun c => c.inQ) = some [1] := rfl
/-- OUT-2 -/
theorem test_out : (after (bench [4, 3, 99, 42] [])).map (fun c => c.outLog) = some [42] := rfl
/-- OUT-3 -/
theorem test_out_of_bounds : faultAfter (bench [4, 9, 99] []) = some (.outOfBounds, some 0, some 0, some 9) := rfl
/-- JMP-3: a negative value is true. -/
theorem test_jt_negative : pcAfter (bench [1105, -1, 4, 0, 99] []) = some 4 := rfl
/-- JMP-5: `p2` is read although the jump is not taken. -/
theorem test_jt_eager : faultAfter (bench [5, 4, 9, 99, 0] []) = some (.outOfBounds, some 0, some 1, some 9) := rfl
/-- JMP-6 and JMP-10 -/
theorem test_jf : pcAfter (bench [1106, 0, 4, 0, 99] []) = some 4 ∧ pcAfter (bench [1106, -1, 4, 99, 99] []) = some 3 :=
  ⟨rfl, rfl⟩
/-- CMP-1 and CMP-2: the comparison is signed and strict. -/
theorem test_lt : cellAfter (bench [1107, -1, 0, 5, 99, 7] []) 5 = some 1 ∧
    cellAfter (bench [1107, 3, 3, 5, 99, 7] []) 5 = some 0 := ⟨rfl, rfl⟩
/-- CMP-3 and CMP-4 -/
theorem test_eq : cellAfter (bench [1108, -5, -5, 5, 99, 7] []) 5 = some 1 ∧
    cellAfter (bench [1108, 1, -1, 5, 99, 7] []) 5 = some 0 := ⟨rfl, rfl⟩
/-- HLT-1 -/
theorem test_halt : (after (bench [99] [])).map (fun c => (c.status, c.done, c.pc)) = some (.halted, true, 0) := rfl
/-- DEC-9: the fetch of an empty memory. -/
theorem test_empty_memory : (after (bench [] [])).map (fun c => c.fault) =
    some ⟨.outOfBounds, some 0, none, none, none, some 0⟩ := rfl

/-! ## Witnesses of the statements' hypotheses: encoding and memory -/

theorem test_hyp_DecodedWindowIsAnEncoding : decode .fault [4, 0, 99, 5] = .ok (.out (.position 0)) := rfl

/-- Both clauses of NegativeOpcodeCellsAreUnknown, at the cells where they meet. -/
theorem test_hyp_NegativeOpcodeCellsAreUnknown : (0 : Int) ≤ 0 ∧ trem 0 100 = 0 ∧ (-1 : Int) < 0 ∧ trem (-1) 100 = -1 ∧
    trem (-100) 100 = 0 := by decide

theorem test_hyp_FirstBadModeDigitIsReported : Op.ofCode (trem 20107 100) = some .lt ∧
    (∀ j, 1 ≤ j → j < 3 → digit 20107 (j + 1) = 0 ∨ digit 20107 (j + 1) = 1) ∧
    ¬(digit 20107 4 = 0 ∨ digit 20107 4 = 1) := by
  refine ⟨rfl, fun j h1 h2 => ?_, by decide⟩
  have : j = 1 ∨ j = 2 := by omega
  rcases this with rfl | rfl <;> decide

theorem test_hyp_UnusedDigitsFaultOrAreIgnored : Op.ofCode (trem 1104 100) = some .out ∧ digit 1104 3 ≠ 0 ∧
    (∀ i, 3 ≤ i → i < 3 → digit 1104 i = 0) ∧
    (∀ i, 1 ≤ i → i ≤ Op.out.nparams → digit 1104 (i + 1) = 0 ∨ digit 1104 (i + 1) = 1) := by
  refine ⟨rfl, by decide, fun i h1 h2 => by omega, fun i h1 h2 => ?_⟩
  have : i = 1 := by simp only [Op.nparams] at h2; omega
  subst this
  decide

theorem test_hyp_MissingParameterCellRaises : (bench [1, 0, 0] []).core? 0 = some (Vm.resetWith .queue [] (Memory.ofImage [1, 0, 0])) ∧
    (Memory.ofImage [1, 0, 0]).InBounds 0 ∧ Op.ofCode (trem ((Memory.ofImage [1, 0, 0]).get 0) 100) = some .add ∧
    checkModes 1 1 3 = .ok () ∧ checkUnused .fault 1 3 = .ok () ∧ (0 : Int) + (3 : Nat) = (Memory.ofImage [1, 0, 0]).len :=
  ⟨rfl, by decide, rfl, rfl, rfl, rfl⟩

/-- SetThenGet, ReadIsBoundsChecked and SliceIsClamped, at both ends of a memory of two cells. -/
theorem test_hyp_memory : (Memory.ofImage [5, 6]).InBounds 0 ∧ (Memory.ofImage [5, 6]).InBounds 1 ∧
    ¬(Memory.ofImage [5, 6]).InBounds (-1) ∧ ¬(Memory.ofImage [5, 6]).InBounds 2 ∧
    (Memory.ofImage [5, 6]).slice 1 4 = some [6] := by decide

theorem test_hyp_WrapIsTheCongruentCell : Fits 1 (-1) ∧ Fits 1 0 ∧ ¬Fits 1 1 ∧ wrap 1 1 = -1 ∧ wrap 8 128 = -128 := by decide

/-! ## Witnesses: results and frames of the instructions -/

/-- The core of `bench image input`. -/
def benchCore (image input : List Int) : Vm := Vm.resetWith .queue input (Memory.ofImage image)

theorem test_hyp_AddStoresSum : (bench [1, 5, 5, 5, 99, 21] []).Active (benchCore [1, 5, 5, 5, 99, 21] []) ∧
    ReadsAs (benchCore [1, 5, 5, 5, 99, 21] []) (.position 5) 21 ∧ Fits Params.default.w (21 + 21) ∧
    StoresAt (benchCore [1, 5, 5, 5, 99, 21] []) (.position 5) 5 :=
  ⟨rfl, ⟨by decide, rfl⟩, by decide, by decide, rfl⟩

theorem test_hyp_MulStoresProduct : (bench [1002, 4, 3, 4, 33] []).Active (benchCore [1002, 4, 3, 4, 33] []) ∧
    ReadsAs (benchCore [1002, 4, 3, 4, 33] []) (.position 4) 33 ∧
    ReadsAs (benchCore [1002, 4, 3, 4, 33] []) (.immediate 3) 3 ∧ Fits Params.default.w (33 * 3) ∧
    StoresAt (benchCore [1002, 4, 3, 4, 33] []) (.position 4) 4 :=
  ⟨rfl, ⟨by decide, rfl⟩, rfl, by decide, by decide, rfl⟩

/-- ADD-3, under both settings of `OVERFLOW_MODE`: `CELL_MAX + 1`, and its product by 2. -/
theorem test_hyp_AddMulOutsideTheRange : Params.default.overflow = .fault ∧
    { Params.default with overflow := .wrap }.overflow = .wrap ∧
    ¬Fits 64 (9223372036854775807 + 1) ∧ ¬Fits 64 (9223372036854775807 * 2) ∧
    StoresAt (benchCore [1101, 9223372036854775807, 1, 5, 99, 0] []) (.position 5) 5 ∧
    cellAfter (benchWith { Params.default with overflow := .wrap } [1101, 9223372036854775807, 1, 5, 99, 0] []) 5 =
      some (-9223372036854775808) :=
  ⟨rfl, rfl, by decide, by decide, ⟨by decide, rfl⟩, rfl⟩

theorem test_hyp_InTakesFromTheQueue : (bench [3, 3, 99, 0] [-5]).Active (benchCore [3, 3, 99, 0] [-5]) ∧
    StoresAt (benchCore [3, 3, 99, 0] [-5]) (.position 3) 3 ∧ (benchCore [3, 3, 99, 0] [-5]).io = .queue ∧
    (benchCore [3, 3, 99, 0] [-5]).inQ = -5 :: [] := ⟨rfl, ⟨by decide, rfl⟩, rfl, rfl⟩

/-- Two cores of a chain, whose channels hold a value each: core 0 is the active one. -/
def pair (image : List Int) : State :=
  ringOf .linear [chanCore .running image, chanCore .running image] [[8], []]

theorem test_hyp_InTakesFromTheChannel : (pair [3, 1]).Active (chanCore .running [3, 1]) ∧
    StoresAt (chanCore .running [3, 1]) (.position 1) 1 ∧ (chanCore .running [3, 1]).io = .channel ∧
    (pair [3, 1]).chans[0]? = some ⟨[8], none, .core 0⟩ := ⟨rfl, ⟨by decide, rfl⟩, rfl, rfl⟩

theorem test_hyp_OutAppendsToTheLog : (bench [4, 3, 99, 42] []).Active (benchCore [4, 3, 99, 42] []) ∧
    ReadsAs (benchCore [4, 3, 99, 42] []) (.position 3) 42 ∧ (benchCore [4, 3, 99, 42] []).io = .queue ∧
    Params.default.outLogCap ≠ some (benchCore [4, 3, 99, 42] []).outLog.length :=
  ⟨rfl, ⟨by decide, rfl⟩, rfl, by decide⟩

/-- Both cases of the port: core 0 of a chain pushes into channel 1, the one core of a ring into channel 0. -/
theorem test_hyp_OutPushesIntoTheChannel : (pair [104, 7]).Active (chanCore .running [104, 7]) ∧
    ReadsAs (chanCore .running [104, 7]) (.immediate 7) 7 ∧ 0 + 1 < (pair [104, 7]).ctl.config.n ∧
    (pair [104, 7]).chans[1]? = some ⟨[], some 0, .core 1⟩ ∧ ([] : List Int).length < Params.default.cap ∧
    (ringOf .feedback [chanCore .running [104, 7]] [[]]).chans[0]? = some ⟨[], some 0, .core 0⟩ ∧
    ¬0 + 1 < (ringOf .feedback [chanCore .running [104, 7]] [[]]).ctl.config.n := by
  refine ⟨rfl, rfl, ?_, rfl, ?_, rfl, ?_⟩ <;> decide

theorem test_hyp_OutOfTheLastCoreGoesToTheSink :
    (ringOf .linear [chanCore .running [104, 7]] [[]]).Active (chanCore .running [104, 7]) ∧
    (ringOf .linear [chanCore .running [104, 7]] [[]]).setting = .pipeline ∧
    0 + 1 = (ringOf .linear [chanCore .running [104, 7]] [[]]).ctl.config.n := ⟨rfl, rfl, rfl⟩

theorem test_hyp_JumpsGoByTheCondition : (bench [5, 5, 6, 99, 99, 1, 4] []).Active (benchCore [5, 5, 6, 99, 99, 1, 4] []) ∧
    ReadsAs (benchCore [5, 5, 6, 99, 99, 1, 4] []) (.position 5) 1 ∧
    ReadsAs (benchCore [5, 5, 6, 99, 99, 1, 4] []) (.position 6) 4 := ⟨rfl, ⟨by decide, rfl⟩, by decide, rfl⟩

theorem test_hyp_ComparisonsStoreOneOrZero : (bench [7, 5, 6, 5, 99, 2, 3] []).Active (benchCore [7, 5, 6, 5, 99, 2, 3] []) ∧
    ReadsAs (benchCore [7, 5, 6, 5, 99, 2, 3] []) (.position 5) 2 ∧
    ReadsAs (benchCore [7, 5, 6, 5, 99, 2, 3] []) (.position 6) 3 ∧
    StoresAt (benchCore [7, 5, 6, 5, 99, 2, 3] []) (.position 5) 5 :=
  ⟨rfl, ⟨by decide, rfl⟩, ⟨by decide, rfl⟩, by decide, rfl⟩

theorem test_hyp_HaltStopsTheCore : (bench [99] []).Active (benchCore [99] []) := rfl

/-- An execution of each storing instruction answers a next state, so StoringInstructionsFrame has its cases. -/
theorem test_hyp_StoringInstructionsFrame : (∃ t, exec (.add (.immediate 1) (.immediate 2) (.position 0)) (bench [0] []) = .next t) ∧
    (∃ t, exec (.mul (.immediate 1) (.immediate 2) (.position 0)) (bench [0] []) = .next t) ∧
    (∃ t, exec (.lt (.immediate 1) (.immediate 2) (.position 0)) (bench [0] []) = .next t) ∧
    (∃ t, exec (.eq (.immediate 1) (.immediate 2) (.position 9)) (bench [0] []) = .next t) :=
  ⟨⟨_, rfl⟩, ⟨_, rfl⟩, ⟨_, rfl⟩, ⟨_, rfl⟩⟩

/-- The same for InFrame, OutFrame and JumpAndHaltFrame. -/
theorem test_hyp_frames : (∃ t, exec (.inp (.position 0)) (bench [0] [3]) = .next t) ∧
    (∃ t, exec (.inp (.position 1)) (pair [3, 1]) = .next t) ∧
    (∃ t, exec (.out (.immediate 7)) (bench [0] []) = .next t) ∧
    (∃ t, exec (.out (.immediate 7)) (pair [104, 7]) = .next t) ∧
    (∃ t, exec (.jt (.immediate 1) (.immediate 7)) (bench [0] []) = .next t) ∧
    (∃ t, exec (.jf (.immediate 1) (.position 7)) (bench [0] []) = .next t) ∧
    ∃ t, exec .halt (bench [0] []) = .next t :=
  ⟨⟨_, rfl⟩, ⟨_, rfl⟩, ⟨_, rfl⟩, ⟨_, rfl⟩, ⟨_, rfl⟩, ⟨_, rfl⟩, _, rfl⟩

/-! ## Witnesses: faults and blocks -/

theorem test_hyp_SourceOutOfBoundsRaises : (bench [1, 3, 0] []).Active (benchCore [1, 3, 0] []) ∧
    ¬(benchCore [1, 3, 0] []).mem.InBounds 3 ∧ ¬(benchCore [1, 3, 0] []).mem.InBounds (-1) ∧
    ReadsAs (benchCore [1, 3, 0] []) (.position 2) 0 := ⟨rfl, by decide, by decide, by decide, rfl⟩

/-- A sum and a product that fit, and under wrap a sum that does not: it is wrapped, then its destination is looked at. -/
theorem test_hyp_BadDestinationRaises : (bench [1101, 1, 1, -1] []).Active (benchCore [1101, 1, 1, -1] []) ∧
    ReadsAs (benchCore [1101, 1, 1, -1] []) (.immediate 1) 1 ∧ Fits Params.default.w (1 + 1) ∧
    Fits Params.default.w (1 * 1) ∧ ¬(benchCore [1101, 1, 1, -1] []).mem.InBounds (-1) ∧
    ¬(benchCore [1101, 1, 1, -1] []).mem.InBounds 4 ∧
    { Params.default with overflow := .wrap }.overflow = .wrap ∧ ¬Fits 64 (9223372036854775807 + 1) ∧
    faultAfter (benchWith { Params.default with overflow := .wrap } [1101, 9223372036854775807, 1, 9, 99] []) =
      some (.outOfBounds, some 0, some 2, some 9) :=
  ⟨rfl, rfl, by decide, by decide, by decide, by decide, rfl, by decide, rfl⟩

/-- An empty queue, an empty channel without a producer, and one whose producer has halted. -/
theorem test_hyp_InputExhaustedRaises : (bench [3, 0] []).Active (benchCore [3, 0] []) ∧ (benchCore [3, 0] []).inQ = [] ∧
    (ringOf .linear [chanCore .running [3, 0]] [[]]).chans[0]? = some ⟨[], none, .core 0⟩ ∧
    ({ ringOf .linear [chanCore .halted [], chanCore .running [3, 0]] [[], []] with active := 1 }).chans[1]? =
      some ⟨[], some 0, .core 1⟩ ∧
    ∀ k e, some 0 = some k → (ringOf .linear [chanCore .halted [], chanCore .running [3, 0]] [[], []]).core? k = some e →
      e.status ≠ .running := by
  refine ⟨rfl, rfl, rfl, rfl, fun k e hk he => ?_⟩
  cases hk
  cases he
  decide

/-- A ring of two cores: its last core, 1, is the active one, and channel 0 of core 0 is full (PIPE-7). -/
def ringEnd (status : Status) : State :=
  { ringOf .feedback [chanCore status [3, 0], chanCore .running [104, 1]] [[0], []] with active := 1 }

/-- OUT-5: a log at its capacity; and a full channel whose consumer has halted, of core 0 of a chain and of the last core of
a ring. -/
theorem test_hyp_OutputFaultsRaise : { Params.default with outLogCap := some 0 }.outLogCap =
      some (benchCore [104, 1] []).outLog.length ∧
    (ringOf .linear [chanCore .running [104, 1], chanCore .halted []] [[], [0]]).Active (chanCore .running [104, 1]) ∧
    (ringOf .linear [chanCore .running [104, 1], chanCore .halted []] [[], [0]]).chans[1]? = some ⟨[0], some 0, .core 1⟩ ∧
    (ringOf .linear [chanCore .running [104, 1], chanCore .halted []] [[], [0]]).core? 1 = some (chanCore .halted []) ∧
    Params.default.cap ≤ [(0 : Int)].length ∧ (chanCore .halted []).status ≠ .running ∧
    (ringEnd .halted).Active (chanCore .running [104, 1]) ∧ ¬1 + 1 < (ringEnd .halted).ctl.config.n ∧
    (ringEnd .halted).ctl.config.topology = .feedback ∧ (ringEnd .halted).chans[0]? = some ⟨[0], some 1, .core 0⟩ ∧
    (ringEnd .halted).core? 0 = some (chanCore .halted [3, 0]) :=
  ⟨rfl, rfl, rfl, rfl, by decide, by decide, rfl, by decide, rfl, rfl, rfl⟩

/-- Core 1 waits for a value of the Running core 0; core 0 waits for space in the channel of the Running core 1; the last
core of a ring waits for space in the channel of the Running core 0. -/
theorem test_hyp_BlockedStepChangesNothing :
    ({ pair [3, 0] with active := 1 }).Active (chanCore .running [3, 0]) ∧
    StoresAt (chanCore .running [3, 0]) (.position 0) 0 ∧ (pair [3, 0]).chans[1]? = some ⟨[], some 0, .core 1⟩ ∧
    (pair [3, 0]).core? 0 = some (chanCore .running [3, 0]) ∧
    (ringOf .linear [chanCore .running [104, 1], chanCore .running []] [[], [0]]).chans[1]? = some ⟨[0], some 0, .core 1⟩ ∧
    (ringOf .linear [chanCore .running [104, 1], chanCore .running []] [[], [0]]).core? 1 = some (chanCore .running []) ∧
    (chanCore .running []).status = .running ∧
    (ringEnd .running).Active (chanCore .running [104, 1]) ∧ ¬1 + 1 < (ringEnd .running).ctl.config.n ∧
    (ringEnd .running).ctl.config.topology = .feedback ∧ (ringEnd .running).chans[0]? = some ⟨[0], some 1, .core 0⟩ ∧
    (ringEnd .running).core? 0 = some (chanCore .running [3, 0]) :=
  ⟨rfl, ⟨by decide, rfl⟩, rfl, rfl, rfl, rfl, rfl, rfl, by decide, rfl, rfl, rfl⟩

theorem test_hyp_FaultsArePrecise : (bench [103, 0] []).Active (benchCore [103, 0] []) ∧
    (benchCore [103, 0] []).status ≠ .faulted ∧
    ∃ t d, exec (.inp (.immediate 0)) (bench [103, 0] []) = .next t ∧ t.Active d ∧ d.status = .faulted :=
  ⟨rfl, by decide, _, _, rfl, rfl, rfl⟩

/-- Each of P1 to P4: an empty memory, an unknown opcode, a bad mode digit, a missing parameter; in a standalone core, and
in the planned core of a concurrent and of a sync pipeline. -/
theorem test_hyp_DecodeFaultsRaise : (bench [] []).plan 0 = .core 0 ∧ (pair [98]).plan 1 = .core 1 ∧
    (pair [98]).core? 1 = some (chanCore .running [98]) ∧
    (chainOf [syncCore .halted [] [] [], syncCore .running [199] [] []] 1).plan 0 = .core 1 ∧
    ¬(benchCore [] []).mem.InBounds 0 ∧
    ((benchCore [98] []).mem.slice 0 4 = some [98] ∧ decode .fault [98] = .error (.unknownOpcode 98)) ∧
    ((benchCore [199] []).mem.slice 0 4 = some [199] ∧ decode .fault [199] = .error (.unknownParameterMode 0)) ∧
    ((benchCore [1, 0] []).mem.slice 0 4 = some [1, 0] ∧ decode .fault [1, 0] = .error (.missingParameter 2)) :=
  ⟨rfl, rfl, rfl, rfl, by decide, ⟨by decide, rfl⟩, ⟨by decide, rfl⟩, by decide, rfl⟩

/-- DEC-11 and JMP-9 -/
theorem test_hyp_JumpTargetIsCheckedAtTheNextFetch : (bench [1105, 1, -1] []).Active (benchCore [1105, 1, -1] []) ∧
    (benchCore [1105, 1, -1] []).status = .running ∧ ¬(benchCore [1105, 1, -1] []).mem.InBounds (-1) ∧
    (∃ t, (1 : Int) ≠ 0 ∧ exec (.jt (.immediate 1) (.immediate (-1))) (bench [1105, 1, -1] []) = .next t) ∧
    ∃ t, exec (.jf (.immediate 0) (.immediate (-1))) (bench [1106, 0, -1] []) = .next t :=
  ⟨rfl, rfl, by decide, ⟨_, by decide, rfl⟩, _, rfl⟩

/-- P2 of spec/95: the store into the next opcode cell, at the first and the last cell of the window. -/
theorem test_hyp_StoreIsSeenByTheNextFetch : StoresAt (benchCore [3, 2, 0] []) (.position 2) 2 ∧
    ((benchCore [3, 2, 0] []).store 2 99 2).mem.slice 2 4 = some [99] ∧
    ((benchCore [3, 2, 0] []).store 2 99 2).mem.slice 0 4 = some [3, 2, 99] := ⟨⟨by decide, rfl⟩, by decide, by decide⟩

/-! ## Witnesses: the step, the invariants and the whole machine -/

theorem test_hyp_StepRunsTheDecodedInstruction : (bench [99] []).plan 0 = .core 0 ∧
    (bench [99] []).core? 0 = some (benchCore [99] []) ∧ (benchCore [99] []).mem.slice 0 4 = some [99] ∧
    (pair [104, 7]).plan 1 = .core 1 ∧ decode .fault [104, 7] = .ok (.out (.immediate 7)) :=
  ⟨rfl, rfl, by decide, rfl, rfl⟩

/-- The three cases: a stopped core, a Running one, and one that blocks (a core in Channel binding that feeds itself). -/
theorem test_hyp_HostStepOfAStandaloneCore : (chanCore .halted []).status ≠ .running ∧
    (benchCore [99] []).status = .running ∧
    ({ State.reset with cores := [chanCore .running [3, 0]], chans := [⟨[], some 0, .core 0⟩] }).blocked 0 = true :=
  ⟨by decide, rfl, rfl⟩

/-- The data of the core of `bench [99] []` are in range. -/
theorem test_core_data : (benchCore [99] []).DataOk Params.default where
  memWf := by decide
  memLen := by decide
  memFits := by decide
  pcFits := by decide
  inFits := by decide
  outFits := by decide
  logCap := by decide
  faultFits := by decide

/-- The state `bench [99] []` meets the invariant. -/
theorem test_bench_ok : (bench [99] []).Ok := by
  have core : ∀ c ∈ (bench [99] []).cores, c = benchCore [99] [] := by
    intro c hc
    simpa [bench, benchWith, benchCore] using hc
  refine ⟨{ params := by decide, cores := ?_, chans := ?_, sink := ?_, result := ?_, phases := ?_, abort := ?_ },
    { cores := ?_, standalone := fun _ => ⟨⟨_, rfl, rfl⟩, rfl, rfl⟩, pipeline := fun h => by cases h }⟩
  · intro c hc
    rw [core c hc]
    exact test_core_data
  · intro c hc; cases hc
  · intro c hc; cases hc
  · intro c hc; cases hc
  · intro c hc; cases hc
  · intro c hc; cases hc
  · intro c hc
    rw [core c hc]
    exact ⟨by decide, by decide, by decide, by decide⟩

theorem test_hyp_StepKeepsDataInRange : (bench [99] []).DataOk ∧ ∃ t, stepWith 0 (bench [99] []) = .next t :=
  ⟨test_bench_ok.data, _, rfl⟩

/-- Two Running cores of a chain, each with a value to take: the core 0 and the core 1 are enabled. -/
def busy : State := ringOf .linear [chanCore .running [3, 0], chanCore .running [3, 0]] [[8], [9]]

/-- `busy` is legally arranged. -/
theorem test_busy_control : busy.ControlOk where
  cores := by
    intro c hc
    obtain rfl : c = chanCore .running [3, 0] := by simpa [busy, ringOf] using hc
    exact ⟨by decide, by decide, by decide, by decide⟩
  standalone := fun h => by cases h
  pipeline := fun _ =>
    { config := by decide
      count := rfl
      sync := fun h => by cases h
      concurrent := fun _ => by
        refine ⟨rfl, by decide, fun k ch h => ?_⟩
        rcases k with _ | _ | k
        · cases h; exact ⟨rfl, rfl⟩
        · cases h; exact ⟨rfl, rfl⟩
        · simp [busy, ringOf] at h
      unfaulted := fun _ => by decide
      idle := fun h => by cases h
      aborted := fun h => by cases h
      notAborted := fun _ => rfl }

theorem test_hyp_StepKeepsControlConsistent : busy.ControlOk ∧ busy.RunOrder ∧ ∃ t, stepWith 0 busy = .next t :=
  ⟨test_busy_control, fun _ => ⟨(by cases ·), (by cases ·)⟩, _, rfl⟩

/-- The order of a sync run means something: a current core whose predecessor has halted meets it. -/
theorem test_run_order : (chainOf [syncCore .halted [] [] [], syncCore .running [] [] []] 1).RunOrder ∧
    ¬(chainOf [syncCore .running [] [] [], syncCore .running [] [] []] 1).RunOrder := by
  refine ⟨fun _ => ⟨fun _ _ k c hc hk => ?_, fun h => by cases h⟩, fun h => ?_⟩
  · obtain rfl : k = 0 := by change k < 1 at hk; omega
    cases hc
    rfl
  · have := (h rfl).1 rfl rfl 0 _ rfl (by decide)
    cases this

theorem test_hyp_HostActionsKeepOk : (bench [99] []).Ok ∧
    (∃ t, act (.load 0 [1, 0, 0, 0, 99]) (bench [99] []) = .ok t) ∧
    (∃ t, act (.loadText 0 ['9', '9']) (bench [99] []) = .ok t) ∧ (∃ t, act (.poke 0 0 4) (bench [99] []) = .ok t) ∧
    (∃ t, act (.setInput 0 [4]) (bench [99] []) = .ok t) ∧
    ∃ t, act (.configurePipeline [99] ⟨1, .feedback, .concurrent, [5]⟩) (bench [99] []) = .ok t :=
  ⟨test_bench_ok, ⟨_, rfl⟩, ⟨_, rfl⟩, ⟨_, rfl⟩, ⟨_, rfl⟩, _, rfl⟩

theorem test_hyp_ReachableStatesAreOk : Params.default.Wf ∧ Reachable Params.default (State.resetFor Params.default) :=
  ⟨by decide, .reset⟩

/-- A chain of a sync run whose current core has halted: the controller hands over. -/
def handOver : State := chainOf [syncCore .halted [] [] [5], syncCore .running [] [] []] 0

/-- `handOver` is legally arranged. -/
theorem test_handover_control : handOver.ControlOk where
  cores := by
    intro c hc
    have h : c = syncCore .halted [] [] [5] ∨ c = syncCore .running [] [] [] := by simpa [handOver, chainOf] using hc
    rcases h with rfl | rfl <;> exact ⟨by decide, by decide, by decide, by decide⟩
  standalone := fun h => by cases h
  pipeline := fun _ =>
    { config := by decide
      count := rfl
      sync := fun _ => by
        refine ⟨rfl, by decide, by decide, fun _ k c hc hk => ?_⟩
        rcases k with _ | _ | k
        · exact absurd hk (by decide)
        · cases hc; rfl
        · simp [State.core?, handOver, chainOf] at hc
      concurrent := fun h => by cases h
      unfaulted := fun _ => by decide
      idle := fun h => by cases h
      aborted := fun h => by cases h
      notAborted := fun _ => rfl }

/-- A stopped core of a sync run at the hand-over. -/
theorem test_hyp_StoppedCoresNeverChange : handOver.ControlOk ∧ (∃ t, stepWith 0 handOver = .next t) ∧
    handOver.core? 0 = some (syncCore .halted [] [] [5]) ∧ (syncCore .halted [] [] [5]).status ≠ .running :=
  ⟨test_handover_control, ⟨_, rfl⟩, rfl, by decide⟩

/-- A step of a core, and a step of the controller that hands an output log over. -/
theorem test_hyp_StepChangesOneCore : (∃ t, stepWith 0 busy = .next t) ∧ busy.plan 0 = .core 0 ∧
    (∀ k, handOver.plan 0 ≠ .core k) ∧ handOver.SyncRun ∧
    ∃ t, stepWith 0 handOver = .next t ∧ (t.core? 1).map (fun c => c.inQ) = some [0, 5] :=
  ⟨⟨_, rfl⟩, rfl, (fun _ h => by cases h), ⟨rfl, rfl, rfl⟩, _, rfl, rfl⟩

/-- A step that takes from a channel, one that pushes into one, for StepKeepsWhatIsFixed and ChannelsAreFifo. -/
theorem test_hyp_ChannelsAreFifo : (∃ t, stepWith 0 busy = .next t ∧ (t.chans[0]?).map (fun e => e.buf) = some []) ∧
    ∃ t, stepWith 0 (pair [104, 7]) = .next t ∧ (t.chans[1]?).map (fun e => e.buf) = some [7] :=
  ⟨⟨_, rfl, rfl⟩, _, rfl, rfl⟩

theorem test_hyp_SchedulerMayChooseAnyEnabledCore : busy.ConcurrentRun ∧ busy.enabled 0 = true ∧ busy.enabled 1 = true ∧
    busy.plan 0 = .core 0 ∧ busy.plan 1 = .core 1 := ⟨⟨rfl, rfl, rfl⟩, rfl, rfl, rfl, rfl⟩

theorem test_hyp_EnabledCoreStaysEnabled : busy.ControlOk ∧ busy.ConcurrentRun ∧ busy.enabled 1 = true ∧
    busy.plan 0 = .core 0 ∧ ∃ t, stepWith 0 busy = .next t ∧ t.ctl.pstatus = .running :=
  ⟨test_busy_control, ⟨rfl, rfl, rfl⟩, rfl, rfl, _, rfl, rfl⟩

/-- The image [0] in a pipeline of two cores: the first step aborts the run, and the other core stays enabled. -/
def doomed : State := ringOf .linear [chanCore .running [0], chanCore .running [0]] [[], []]

/-- A fair run exists there (R186, R188): an ended run owes core 1 no step. -/
theorem test_fair_run : ∃ (choice : Nat → Nat) (run : Nat → State), run 0 = doomed ∧ IsRun choice run ∧
    WeaklyFair choice run ∧ (run 1).ctl.pstatus = .aborted ∧ (run 1).enabled 1 = true := by
  obtain ⟨t, ht, hp, he⟩ : ∃ t, stepWith 0 doomed = .next t ∧ t.ctl.pstatus = .aborted ∧ t.enabled 1 = true :=
    ⟨_, rfl, rfl, rfl⟩
  have stays : stepWith 0 t = .next t := by
    have : t.plan 0 = .idle := by
      unfold State.plan
      split
      · cases ht; contradiction
      · rw [hp]
    simp [stepWith, this]
  refine ⟨fun _ => 0, fun n => if n = 0 then doomed else t, rfl, fun n => ?_, fun k n => ⟨n + 1, by omega, .inl ?_⟩, hp, he⟩
  · by_cases hn : n = 0
    · subst hn; exact ht
    · simpa [hn] using stays
  · simp [State.ConcurrentRun, hp]

/-! ## Witnesses: channels, pipeline and host -/

/-- The rows of the channel signal table of spec/95, with the producer 0 and the consumer 1. -/
theorem test_hyp_ChannelSignals :
    (pair []).eos ⟨[], some 0, .core 1⟩ = false ∧ (pair []).space ⟨[], some 0, .core 1⟩ = true ∧
    (pair []).eos ⟨[], none, .core 0⟩ = true ∧ (pair []).space ⟨[4], some 0, .core 1⟩ = false ∧
    (pair []).dead ⟨[4], some 0, .core 1⟩ = false ∧
    (ringOf .linear [chanCore .running [], chanCore .halted []] [[], [4]]).dead ⟨[4], some 0, .core 1⟩ = true :=
  ⟨rfl, rfl, rfl, rfl, rfl, rfl⟩

/-- PIPE-9: cores that halted with values left in channels 0 and 1; without them the run terminates. -/
theorem test_hyp_ConcurrentTermination :
    (ringOf .linear [chanCore .halted [], chanCore .halted []] [[0], [4]]).ConcurrentRun ∧
    (∀ c ∈ (ringOf .linear [chanCore .halted [], chanCore .halted []] [[0], [4]]).cores, c.status = .halted) ∧
    Params.default.strictExcess = true ∧
    (ringOf .linear [chanCore .halted [], chanCore .halted []] [[0], [4]]).Leftover 0 ∧
    ∀ k, ¬(ringOf .linear [chanCore .halted [], chanCore .halted []] [[], []]).Leftover k := by
  refine ⟨⟨rfl, rfl, rfl⟩, by decide, rfl, ⟨_, rfl, by decide, by decide⟩, fun k hk => ?_⟩
  obtain ⟨ch, hch, hb, -⟩ := hk
  rcases k with _ | _ | k
  · cases hch; exact hb rfl
  · cases hch; exact hb rfl
  · simp [ringOf] at hch

/-- PIPE-8: a ring of one core that waits for itself. -/
def starved : State := ringOf .feedback [chanCore .running [3, 0]] [[]]

/-- `starved` is legally arranged. -/
theorem test_starved_control : starved.ControlOk where
  cores := by
    intro c hc
    obtain rfl : c = chanCore .running [3, 0] := by simpa [starved, ringOf] using hc
    exact ⟨by decide, by decide, by decide, by decide⟩
  standalone := fun h => by cases h
  pipeline := fun _ =>
    { config := by decide
      count := rfl
      sync := fun h => by cases h
      concurrent := fun _ => by
        refine ⟨rfl, by decide, fun k ch h => ?_⟩
        rcases k with _ | k
        · cases h; exact ⟨rfl, rfl⟩
        · simp [starved, ringOf] at h
      unfaulted := fun _ => by decide
      idle := fun h => by cases h
      aborted := fun h => by cases h
      notAborted := fun _ => rfl }

theorem test_hyp_DeadlockAborts : starved.ControlOk ∧ starved.ConcurrentRun ∧ (∀ k, starved.enabled k = false) ∧
    ∃ c ∈ starved.cores, c.status ≠ .halted := by
  refine ⟨test_starved_control, ⟨rfl, rfl, rfl⟩, fun k => ?_, _, List.mem_singleton.2 rfl, by decide⟩
  rcases k with _ | k
  · rfl
  · simp [State.enabled, State.isRunning, State.core?, starved, ringOf]

/-- PIPE-10: core 0's out finds the seed in the channel of the halted core 1. -/
theorem test_hyp_FaultAbortsThePipeline :
    ∃ t c d, stepWith 0 (ringOf .linear [chanCore .running [104, 1], chanCore .halted []] [[], [0]]) = .next t ∧
      (ringOf .linear [chanCore .running [104, 1], chanCore .halted []] [[], [0]]).core? 0 = some c ∧
      c.status ≠ .faulted ∧ t.core? 0 = some d ∧ d.status = .faulted :=
  ⟨_, _, _, rfl, rfl, by decide, rfl, rfl⟩

/-- The excess check, the hand-over and the end of a sync run. -/
theorem test_hyp_SyncHandOver : (chainOf [syncCore .halted [] [1] [5], syncCore .running [] [] []] 0).SyncRun ∧
    (syncCore .halted [] [1] [5]).inQ ≠ [] ∧ (syncCore .halted [] [] [5]).inQ = [] ∧
    0 + 1 < (chainOf [syncCore .halted [] [] [5], syncCore .running [] [] []] 0).ctl.config.n ∧
    (chainOf [syncCore .halted [] [] [5], syncCore .running [] [] []] 0).ctl.config.phases[1]? = some 0 ∧
    ¬1 + 1 < (chainOf [syncCore .halted [] [] [5], syncCore .halted [] [] []] 1).ctl.config.n :=
  ⟨⟨rfl, rfl, rfl⟩, by decide, rfl, by decide, rfl, by decide⟩

/-- The result of a step of the one core of a chain. -/
theorem test_hyp_ResultTap : ∃ t, stepWith 0 (ringOf .linear [chanCore .running [104, 7]] [[]]) = .next t ∧
    t.ctl.result = some 7 ∧ t.ctl.sink = [7] := ⟨_, rfl, rfl, rfl⟩

/-- A chain whose run a fault of core 0 has aborted while core 1 was started and Running. -/
def abandoned : State :=
  { ringOf .linear [chanCore .faulted [0], { chanCore .running [3, 0] with started := true }] [[], []] with
    ctl := { Controller.reset with
      pstatus := .aborted
      config := configOf 2 .linear .concurrent
      abort := ⟨.unknownOpcode, some 0, some .empty⟩ } }

/-- X1: a core that is not started is loaded; a halted core of a Running pipeline is loaded and the pipeline stays; so is a
started Running core of an aborted pipeline (R188); a started core that is Running in a run is not; a list given before a
load is gone. -/
theorem test_hyp_LoadResetsTheCore : (∃ t, load 0 [1, 0, 0, 0, 99] State.reset = .ok t) ∧
    (∃ t, load 0 [99] handOver = .ok t ∧ t.setting = .pipeline ∧ (t.core? 0).map (fun c => c.status) = some .running) ∧
    (abandoned.RunEnded ∧ ∃ t, load 1 [99] abandoned = .ok t ∧ (t.core? 1).map (fun c => c.started) = some false) ∧
    (∀ v ∈ [(1 : Int), 0, 0, 0, 99], Fits 64 v) ∧
    (¬((bench [99] []).select 0).RunEnded ∧ load 0 [99] ((bench [99] []).select 0) = .error .notAllowed) ∧
    ∃ t, load 0 [99] (bench [99] [7]) = .ok t ∧ (t.core? 0).map (fun c => c.inQ) = some [] :=
  ⟨⟨_, rfl⟩, ⟨_, rfl, rfl, rfl⟩, ⟨by decide, _, rfl, rfl⟩, by decide, ⟨by decide, rfl⟩, _, rfl, rfl⟩

/-- X7 and P4 of spec/95: a sync chain and a concurrent ring. -/
theorem test_hyp_ConfigureResetsThePipeline :
    (∃ t, configurePipeline [99] ⟨2, .linear, .sync, [4, 3]⟩ State.reset = .ok t ∧
      t.cores.map (fun c => c.inQ) = [[4, 0], []]) ∧
    ∃ t, configurePipeline [99] ⟨2, .feedback, .concurrent, [5, 6]⟩ State.reset = .ok t ∧
      t.chans.map (fun c => c.buf) = [[5, 0], [6]] := ⟨⟨_, rfl, rfl⟩, _, rfl, rfl⟩

/-- X1: `poke(5, 1)` on five cells is refused, `poke(1, -5)` is not; and a started core is not poked. -/
theorem test_hyp_PokeIsABoundedWriteBeforeTheRun : (benchCore [1101, 0, 0, 3, 99] []).started = false ∧
    ¬(benchCore [1101, 0, 0, 3, 99] []).mem.InBounds 5 ∧ (benchCore [1101, 0, 0, 3, 99] []).mem.InBounds 1 ∧
    Fits Params.default.w (-5) ∧ { benchCore [99] [] with started := true }.started = true :=
  ⟨rfl, by decide, by decide, by decide, rfl⟩

/-- A text that loads, one with a malformed field, and one that is too long. -/
theorem test_hyp_LoaderChecksEveryField : parseProgram Params.default ['1', ',', ' ', '-', '2', '\n'] = .ok [1, -2] ∧
    parseProgram Params.default ['1', ',', 'x'] = .error (.malformedProgramText ['x'] 1) ∧
    parseProgram { Params.default with maxMemLen := 1 } ['1', ',', '2'] = .error .imageTooLarge := ⟨rfl, rfl, rfl⟩

end Sys2Proof.Tests
end

section
/-! PROOF. `wrap` is the projection of the integers onto the cell range along multiples of `2^W` (spec 00_scope.md R7). -/

namespace Sys2Proof.Machine

/-- The cell range shifted up by `2^(W-1)` is the range of remainders modulo `2^W`. -/
theorem fits_iff_shifted {w : Nat} (hw : 1 ≤ w) (v : Int) :
    Fits w v ↔ 0 ≤ v + ((2 ^ (w - 1) : Nat) : Int) ∧
      v + ((2 ^ (w - 1) : Nat) : Int) < ((2 ^ w : Nat) : Int) := by
  have hdouble : 2 ^ (w - 1) + 2 ^ (w - 1) = 2 ^ w := Nat.two_pow_pred_add_two_pow_pred hw
  rw [← hdouble, Fits, cellMin, cellMax]
  omega

theorem wrap_add_half (w : Nat) (v : Int) :
    wrap w v + ((2 ^ (w - 1) : Nat) : Int) = (v + ((2 ^ (w - 1) : Nat) : Int)) % ((2 ^ w : Nat) : Int) :=
  Int.sub_add_cancel _ _

theorem fits_wrap {w : Nat} (hw : 1 ≤ w) (v : Int) : Fits w (wrap w v) := by
  have hpos : (0 : Int) < ((2 ^ w : Nat) : Int) := Int.natCast_pos.mpr (Nat.two_pow_pos w)
  rw [fits_iff_shifted hw, wrap_add_half]
  exact ⟨Int.emod_nonneg _ hpos.ne', Int.emod_lt_of_pos _ hpos⟩

theorem wrap_modEq (w : Nat) (v : Int) : wrap w v ≡ v [ZMOD ((2 ^ w : Nat) : Int)] := by
  apply Int.ModEq.add_right_cancel' ((2 ^ (w - 1) : Nat) : Int)
  rw [wrap_add_half]
  exact Int.mod_modEq _ _

theorem wrap_eq_self_of_fits {w : Nat} (hw : 1 ≤ w) {v : Int} (hv : Fits w v) : wrap w v = v := by
  obtain ⟨hlo, hhi⟩ := (fits_iff_shifted hw v).mp hv
  rw [wrap, Int.emod_eq_of_lt hlo hhi, Int.add_sub_cancel]

theorem wrap_eq_wrap_of_modEq {w : Nat} {u v : Int} (h : u ≡ v [ZMOD ((2 ^ w : Nat) : Int)]) :
    wrap w u = wrap w v := by
  rw [wrap, wrap, (h.add_right _).eq]

/-- Settles O15: a cell value is its own wrap, and congruent values have the same wrap, so a cell value congruent to `v`
is `wrap w v`. -/
theorem wrapIsTheCongruentCell : Obligations.WrapIsTheCongruentCell := by
  intro w v hw
  refine ⟨fits_wrap hw v, (wrap_modEq w v).symm.dvd, fun u hu hdvd => ?_⟩
  have hmod : u ≡ v [ZMOD ((2 ^ w : Nat) : Int)] := (Int.modEq_iff_dvd.mpr hdvd).symm
  calc u = wrap w u := (wrap_eq_self_of_fits hw hu).symm
    _ = wrap w v := wrap_eq_wrap_of_modEq hmod

end Sys2Proof.Machine
end

section
/-! PROOF. Every step keeps the data of the machine in range (spec 10_state.md R22 to R24, R31, 60_exceptions.md R172): each
value that is stored is one that was read, or that a check or `wrap` bounds, and the pc is a value read or at most 4 beyond
an address that exists. -/

namespace Sys2Proof.Machine

/-! ## Which values fit a cell -/

/-- The bound on `MAX_MEM_LEN` leaves room for every address and the length of an instruction after it (R6). -/
theorem fits_of_le_maxMemLen {p : Params} (hp : p.Wf) {v : Int} (h0 : 0 ≤ v) (h1 : v < p.maxMemLen + 4) :
    Fits p.w v := by
  obtain ⟨-, hlen, -⟩ := hp
  have hlen' : (p.maxMemLen : Int) + 4 ≤ ((2 ^ (p.w - 1) : Nat) : Int) := by exact_mod_cast hlen
  rw [Fits, cellMin, cellMax]
  omega

theorem fits_truth {p : Params} (hp : p.Wf) (b : Bool) : Fits p.w (truth b) := by
  cases b
  · exact fits_of_le_maxMemLen hp (v := 0) (by omega) (by omega)
  · exact fits_of_le_maxMemLen hp (v := 1) (by omega) (by omega)

theorem fits_of_narrow {p : Params} (hp : p.Wf) {x r : Int} (h : narrow p x = .ok r) : Fits p.w r := by
  unfold narrow at h
  split at h
  · rename_i hx; cases h; exact hx
  · split at h
    · cases h
    · cases h; exact fits_wrap hp.1 x

/-- A remainder lies between 0 and the number it is taken of (R8). -/
theorem fits_trem {w : Nat} {v : Int} (h : Fits w v) : Fits w (trem v 100) := by
  have hpos : (0 : Int) < ((2 ^ (w - 1) : Nat) : Int) := Int.natCast_pos.mpr (Nat.two_pow_pos _)
  rw [Fits, cellMin, cellMax] at h ⊢
  rw [trem]
  rcases Int.le_total 0 v with hv | hv
  · rw [Int.tdiv_eq_ediv_of_nonneg hv]
    omega
  · have hneg : v.tdiv 100 = -((-v) / 100) := by
      rw [← Int.tdiv_eq_ediv_of_nonneg (by omega), Int.neg_tdiv, neg_neg]
    rw [hneg]
    omega

/-! ## Cores -/

section
variable {p : Params} {c : Vm}

theorem Vm.DataOk.get_fits (hc : c.DataOk p) (hp : p.Wf) (a : Nat) : Fits p.w (c.mem.get a) := by
  rcases c.mem.get_mem_or_blank a with h | h
  · exact hc.memFits _ h
  · rw [h]
    exact fits_of_le_maxMemLen hp (v := Memory.blank) (by decide) (by rw [Memory.blank]; omega)

theorem Vm.DataOk.read_fits (hc : c.DataOk p) (hp : p.Wf) {a v : Int} (h : c.mem.read a = some v) : Fits p.w v := by
  rw [(Memory.read_eq_some.1 h).2]
  exact hc.get_fits hp _

theorem Vm.DataOk.readsAs_fits (hc : c.DataOk p) (hp : p.Wf) {q : Param} {v : Int} (hq : q.Wf p.w)
    (h : ReadsAs c q v) : Fits p.w v := by
  cases q with
  | immediate x => exact h ▸ hq
  | position a => exact h.2 ▸ hc.get_fits hp _

/-- The cells from an address that exists to the end of the longest instruction there have addresses that fit. -/
theorem Vm.DataOk.addr_add_fits (hc : c.DataOk p) (hp : p.Wf) {a n : Int} (ha : c.mem.InBounds a)
    (h0 : 0 ≤ n) (h4 : n ≤ 4) : Fits p.w (a + n) := by
  have hlen := hc.memLen
  obtain ⟨h1, h2⟩ := ha
  exact fits_of_le_maxMemLen hp (by omega) (by omega)

theorem Vm.DataOk.store (hc : c.DataOk p) {d : Nat} {v n : Int} (hd : d < c.mem.len) (hv : Fits p.w v)
    (hpc : Fits p.w (c.pc + n)) : (c.store d v n).DataOk p :=
  { hc with
    memWf := Memory.set_wf hc.memWf hd
    memFits := fun e he => by
      rcases Memory.mem_set he with ⟨rfl, -⟩ | he
      · exact hv
      · exact hc.memFits e he
    pcFits := hpc }

theorem Vm.DataOk.goto (hc : c.DataOk p) {t : Int} (ht : Fits p.w t) : (c.goto t).DataOk p :=
  { hc with pcFits := ht }

theorem Vm.DataOk.halt (hc : c.DataOk p) : c.halt.DataOk p := { hc with }

theorem Vm.DataOk.start (hc : c.DataOk p) : { c with started := true }.DataOk p := { hc with }

theorem Vm.DataOk.recordOf_cellsFit (hc : c.DataOk p) (hp : p.Wf) {r : Raise} (hr : ∀ a ∈ r.addr, Fits p.w a) :
    (c.recordOf r).CellsFit p.w := by
  have hcell : ∀ v ∈ c.mem.read c.pc, Fits p.w v := fun v hv => hc.read_fits hp hv
  refine ⟨fun v hv => ?_, hcell, fun v hv => ?_, hr⟩
  · cases hv; exact hc.pcFits
  · obtain ⟨x, hx, rfl⟩ := Option.map_eq_some_iff.1 hv
    exact fits_trem (hcell x hx)

end

/-! ## Channels -/

/-- A channel that a core reads has space only below `CAP` (R171). -/
theorem buf_lt_cap_of_space {s : State} {ch : Channel} (h : s.space ch = true) (hc : ch.consumer ≠ .sink) :
    ch.buf.length < s.params.cap := by
  unfold State.space at h
  split at h
  · simpa using h
  · exact absurd ‹_› hc

theorem Channel.DataOk.pop {p : Params} {ch : Channel} (h : ch.DataOk p) : ch.pop.DataOk p where
  bufFits v hv := h.bufFits v (List.mem_of_mem_tail hv)
  bufLen hc := by
    have := h.bufLen hc
    rw [Channel.pop_buf, List.length_tail]
    omega

theorem Channel.DataOk.push {s : State} {ch : Channel} {v : Int} (h : ch.DataOk s.params)
    (hs : s.space ch = true) (hv : Fits s.params.w v) : (ch.push v).DataOk s.params where
  bufFits x hx := by
    rw [Channel.push_buf, List.mem_append, List.mem_singleton] at hx
    rcases hx with hx | rfl
    · exact h.bufFits x hx
    · exact hv
  bufLen hc := by
    have := buf_lt_cap_of_space hs hc
    rw [Channel.push_buf, List.length_append, List.length_singleton]
    omega

/-! ## The machine -/

theorem State.select_eq {s : State} {k : Nat} {c : Vm} (h : s.core? k = some c) :
    s.select k = { s with active := k, cores := s.cores.set k { c with started := true } } := by
  unfold State.core? at h
  rw [State.select, List.modify_eq_set_getElem?, h]
  rfl

/-- The state in which core `k` begins its step (R27, R185, log entries 3 and 4). -/
theorem State.chose_select_eq {s : State} {k : Nat} {c : Vm} (h : s.core? k = some c) :
    ∃ n, s.chose.select k =
      { s with active := k, choices := n, cores := s.cores.set k { c with started := true } } := by
  have hc : s.chose.core? k = some c := by rw [State.core?, State.chose_cores]; exact h
  rw [State.select_eq hc]
  unfold State.chose
  split
  · exact ⟨_, rfl⟩
  · exact ⟨_, rfl⟩

theorem State.Active.unique {s : State} {c d : Vm} (hc : s.Active c) (hd : s.Active d) : d = c :=
  Option.some.inj (hd.symm.trans hc)

theorem forall_mem_set {α : Type} {P : α → Prop} {l : List α} {k : Nat} {x : α} (h : ∀ y ∈ l, P y) (hx : P x) :
    ∀ y ∈ l.set k x, P y := fun y hy => by
  rcases List.mem_or_eq_of_mem_set hy with hy | rfl
  · exact h y hy
  · exact hx

section
variable {s : State} (hs : s.DataOk)
include hs

theorem State.DataOk.core {k : Nat} {c : Vm} (hc : s.core? k = some c) : c.DataOk s.params :=
  hs.cores c (List.mem_of_getElem? hc)

theorem State.DataOk.setVm {c : Vm} (hc : c.DataOk s.params) : (s.setVm c).DataOk :=
  { hs with cores := forall_mem_set hs.cores hc }

theorem State.DataOk.setChan {j : Nat} {ch : Channel} (hch : ch.DataOk s.params) :
    { s with chans := s.chans.set j ch }.DataOk :=
  { hs with chans := forall_mem_set hs.chans hch }

theorem State.DataOk.tapped {v : Int} (hv : Fits s.params.w v) : { s with ctl := s.tapped v }.DataOk := by
  rw [tapped_eq]
  refine { hs with result := fun x hx => ?_ }
  dsimp only at hx
  split at hx
  · cases hx; exact hv
  · exact hs.result x hx

theorem State.DataOk.abortWith (code : FaultCode) (k : Option Nat) : { s with ctl := s.ctl.abortWith code k }.DataOk :=
  { hs with result := fun _ hx => (by cases hx), abort := fun _ hx => (by cases hx) }

theorem State.DataOk.abortBy (k : Nat) {f : FaultRecord} (hf : f.CellsFit s.params.w) :
    { s with ctl := s.ctl.abortBy k f }.DataOk :=
  { hs with result := fun _ hx => (by cases hx), abort := fun _ hx => (by cases hx; exact hf) }

theorem State.DataOk.chose_select {k : Nat} {c : Vm} (hc : s.core? k = some c) : (s.chose.select k).DataOk := by
  obtain ⟨n, hn⟩ := State.chose_select_eq hc
  rw [hn]
  exact { hs with cores := forall_mem_set hs.cores (hs.core hc).start }

theorem State.DataOk.takeFault {c : Vm} {r : Raise} (hc : s.Active c) (hr : ∀ a ∈ r.addr, Fits s.params.w a) :
    (s.takeFault c r).DataOk := by
  have hf := (hs.core hc).recordOf_cellsFit hs.params hr
  have hset := hs.setVm (c := { c with status := .faulted, fault := c.recordOf r }) { hs.core hc with faultFits := hf }
  unfold State.takeFault
  cases s.setting with
  | standalone => exact hset
  | pipeline => exact hset.abortBy s.active hf

/-- What an input transaction takes is a value, and the core and the channels stay in range. -/
theorem State.DataOk.inTake {c : Vm} {k : Taken} (hc : s.Active c) (h : inTake s c = .ok k) :
    Fits s.params.w k.value ∧ k.vm.DataOk s.params ∧ k.vm.mem = c.mem ∧ k.vm.pc = c.pc ∧
      { s with chans := k.chans }.DataOk := by
  have hcd := hs.core hc
  rcases inTake_eq_ok h with ⟨-, rest, hq, hvm, hch⟩ | ⟨-, ch, rest, hch, hb, hvm, hl⟩
  · have hin : ∀ v ∈ k.value :: rest, Fits s.params.w v := hq ▸ hcd.inFits
    rw [hvm, hch]
    exact ⟨hin _ List.mem_cons_self, { hcd with inFits := fun v hv => hin v (List.mem_cons_of_mem _ hv) }, rfl, rfl, hs⟩
  · have hchd := hs.chans ch (List.mem_of_getElem? hch)
    rw [hvm, hl]
    exact ⟨hchd.bufFits _ (hb ▸ List.mem_cons_self), hcd, rfl, rfl, hs.setChan hchd.pop⟩

/-- An output transaction of a value keeps the core, the channels and the controller in range. -/
theorem State.DataOk.outPut {c : Vm} {v : Int} {e : Emitted} (hc : s.Active c) (hv : Fits s.params.w v)
    (h : outPut s c v = .ok e) :
    e.vm.DataOk s.params ∧ e.vm.pc = c.pc ∧ { s with chans := e.chans, ctl := e.ctl }.DataOk := by
  have hcd := hs.core hc
  have happend : ∀ {l : List Int}, (∀ x ∈ l, Fits s.params.w x) → ∀ x ∈ l ++ [v], Fits s.params.w x := by
    intro l hl x hx
    rcases List.mem_append.1 hx with hx | hx
    · exact hl x hx
    · rw [List.mem_singleton.1 hx]; exact hv
  rcases outPut_eq_ok h with ⟨-, hfull, rfl⟩ | ⟨-, -, rfl⟩ | ⟨-, j, ch, -, hch, hspace, rfl⟩
  · have hcap : ∀ n ∈ s.params.outLogCap, (c.outLog ++ [v]).length ≤ n := fun n hn => by
      have hle := hcd.logCap n hn
      have hne : c.outLog.length ≠ n := by
        rw [Option.mem_def] at hn
        simpa [Vm.logFull, hn] using hfull
      rw [List.length_append, List.length_singleton]
      omega
    exact ⟨{ hcd with outFits := happend hcd.outFits, logCap := hcap }, rfl, hs.tapped hv⟩
  · exact ⟨hcd, rfl, { hs.tapped hv with sink := happend hs.sink }⟩
  · have hchd := hs.chans ch (List.mem_of_getElem? hch)
    exact ⟨hcd, rfl, (hs.tapped hv).setChan (hchd.push hspace hv)⟩

/-- A commit keeps the data in range. -/
theorem State.DataOk.commits {t : State} {c : Vm} {i : Instr} (hc : s.Active c) (hpc : c.mem.InBounds c.pc)
    (hi : i.Wf s.params.w) (h : Commits s c i t) : t.DataOk := by
  have hcd := hs.core hc
  have next : ∀ {n : Int}, 0 ≤ n → n ≤ 4 → Fits s.params.w (c.pc + n) := hcd.addr_add_fits hs.params hpc
  have store : ∀ {q : Param} {d : Nat} {v : Int}, StoresAt c q d → Fits s.params.w v → (s.setVm (c.store d v 4)).DataOk :=
    fun hd hv => hs.setVm (hcd.store hd.lt hv (next (by omega) (by omega)))
  have jump : ∀ {q : Param} {x : Int} (b : Prop) [Decidable b], ReadsAs c q x → q.Wf s.params.w →
      (s.setVm (c.goto (if b then x else c.pc + 3))).DataOk := by
    intro q x b _ hx hq
    refine hs.setVm (hcd.goto ?_)
    split
    · exact hcd.readsAs_fits hs.params hq hx
    · exact next (by omega) (by omega)
  cases h with
  | add _ _ hr hd => exact store hd (fits_of_narrow hs.params hr)
  | mul _ _ hr hd => exact store hd (fits_of_narrow hs.params hr)
  | lt _ _ hd => exact store hd (fits_truth hs.params _)
  | eq _ _ hd => exact store hd (fits_truth hs.params _)
  | jt _ hx => exact jump _ hx (hi _ (by simp [Instr.operands]))
  | jf _ hx => exact jump _ hx (hi _ (by simp [Instr.operands]))
  | halt => exact hs.setVm hcd.halt
  | inp hd hk =>
    obtain ⟨hv, hvm, hmem, hpc', hst⟩ := hs.inTake hc hk
    exact hst.setVm (hvm.store (hmem ▸ hd.lt) hv (hpc' ▸ next (by omega) (by omega)))
  | out hx he =>
    have hv := hcd.readsAs_fits hs.params (hi _ (by simp [Instr.operands])) hx
    obtain ⟨hvm, hpc', hst⟩ := hs.outPut hc hv he
    exact hst.setVm (hvm.goto (hpc' ▸ next (by omega) (by omega)))

/-- A decoded instruction stands at an address that exists, and its parameter cells are cells of memory. -/
theorem State.DataOk.fetchInstr_ok {c : Vm} {i : Instr} (hc : s.Active c) (h : s.fetchInstr = .ok i) :
    c.mem.InBounds c.pc ∧ i.Wf s.params.w := by
  obtain ⟨c', win, hc', hwin, hdec⟩ := fetchInstr_eq_ok.1 h
  obtain rfl := hc.unique hc'
  obtain ⟨hpc, rfl⟩ := Memory.slice_eq_some.1 hwin
  refine ⟨hpc, fun p hp => ?_⟩
  obtain ⟨a, ha⟩ := Memory.mem_cellsFrom (decode_raw hdec p hp)
  rw [Param.Wf, ha]
  exact (hs.core hc).get_fits hs.params a

/-- The address that a fetch or a decode reports is the pc, or that of a missing parameter at most 3 beyond it (R85). -/
theorem State.DataOk.fetchInstr_raise_addr {c : Vm} {r : Raise} (hc : s.Active c)
    (h : s.fetchInstr = .error (.raise r)) : ∀ a ∈ r.addr, Fits s.params.w a := by
  intro a ha
  have hcd := hs.core hc
  rcases fetchInstr_raise hc h with ⟨rfl, -⟩ | ⟨win, x, hwin, hdec, rfl⟩
  · cases ha; exact hcd.pcFits
  · cases x with
    | noOpcodeCell => cases ha; exact hcd.pcFits
    | unknownOpcode op => cases ha
    | unknownParameterMode n => cases ha
    | missingParameter i =>
      have hi := decode_missing_le hdec
      cases ha
      exact hcd.addr_add_fits hs.params (Memory.slice_eq_some.1 hwin).1 (by omega) (by omega)

/-- The step of the active core keeps the data in range. -/
theorem State.DataOk.runActive {t : State} {c : Vm} (hc : s.Active c) (h : s.runActive = .next t) : t.DataOk := by
  rcases runActive_next h with ⟨i, hi, he⟩ | ⟨r, c', hf, hc', rfl⟩
  · obtain ⟨hpc, hwf⟩ := hs.fetchInstr_ok hc hi
    rcases exec_next hc he with hm | ⟨rfl, -⟩ | ⟨r, rfl, -, haddr⟩
    · exact hs.commits hc hpc hwf hm
    · exact hs
    · refine hs.takeFault hc fun a ha => ?_
      obtain ⟨p, hp, rfl⟩ := haddr a ha
      exact hwf p hp
  · exact hs.takeFault hc' (hs.fetchInstr_raise_addr hc' hf)

/-- The controller's steps keep the data in range. -/
theorem State.DataOk.controlStep {t : State} (h : ControlStep s t) : t.DataOk := by
  cases h with
  | excess => exact hs.abortWith _ _
  | deadlock => exact hs.abortWith _ _
  | syncExcess => exact hs.abortWith _ _
  | terminated => exact { hs with }
  | syncEnd => exact { hs with }
  | syncFault _ hc => exact hs.abortBy _ (hs.core hc).faultFits
  | @handOver c d phase _ hc _ _ _ hd hphase =>
    have hin : ∀ v ∈ phase :: c.outLog, Fits s.params.w v :=
      List.forall_mem_cons.2 ⟨hs.phases _ (List.mem_of_getElem? hphase), (hs.core hc).outFits⟩
    exact { hs with cores := forall_mem_set hs.cores { hs.core hd with inFits := hin } }

end

/-- Settles O40: by the cases of a step, each of which keeps the data in range. -/
theorem stepKeepsDataInRange : Obligations.StepKeepsDataInRange := by
  intro choice s t hs h
  rcases stepWith_cases h with ⟨-, rfl⟩ | hctl | ⟨k, c, -, hc, -, hact, hrun⟩
  · exact hs
  · exact hs.controlStep hctl
  · exact (hs.chose_select hc).runActive hact hrun

end Sys2Proof.Machine
end

section
/-! PROOF. What the step of a core, or of the controller, changes of the whole machine, once for all steps: which core, and
what of it, of the channels and of the controller (spec 10_state.md R34 to R40). -/

namespace Sys2Proof.Machine

/-! ## Channels and controller -/

/-- The channels of `l'` have the ends that those of `l` have (R38). -/
def SameWiring (l l' : List Channel) : Prop :=
  l'.map (fun ch => (ch.producer, ch.consumer)) = l.map fun ch => (ch.producer, ch.consumer)

theorem SameWiring.length_eq {l l' : List Channel} (h : SameWiring l l') : l'.length = l.length := by
  simpa using congrArg List.length h

theorem SameWiring.getElem? {l l' : List Channel} (h : SameWiring l l') {k : Nat} {ch : Channel} (hk : l[k]? = some ch) :
    ∃ ch', l'[k]? = some ch' ∧ ch'.producer = ch.producer ∧ ch'.consumer = ch.consumer := by
  have hends := congrArg (·[k]?) h
  simpa [hk] using hends

theorem SameWiring.set {l : List Channel} {j : Nat} {ch ch' : Channel} (hj : l[j]? = some ch)
    (hp : ch'.producer = ch.producer) (hc : ch'.consumer = ch.consumer) : SameWiring l (l.set j ch') := by
  obtain ⟨hlt, rfl⟩ := List.getElem?_eq_some_iff.1 hj
  have hself := List.set_getElem_self (as := l.map fun ch => (ch.producer, ch.consumer)) (i := j) (by simpa using hlt)
  simpa [SameWiring, List.map_set, hp, hc] using hself

theorem ChansMove.sameWiring {s : State} {c : Vm} {l : List Channel} (h : ChansMove s c l) : SameWiring s.chans l := by
  rcases h with rfl | ⟨-, ch, v, rest, hch, -, rfl⟩ | ⟨-, j, ch, v, -, hch, -, rfl⟩
  · rfl
  · exact .set hch rfl rfl
  · exact .set hch rfl rfl

theorem ChansMove.eq_of_queue {s : State} {c : Vm} {l : List Channel} (h : ChansMove s c l) (hio : c.io = .queue) :
    l = s.chans := by
  rcases h with h | ⟨hch, -⟩ | ⟨hch, -⟩
  · exact h
  · rw [hio] at hch; cases hch
  · rw [hio] at hch; cases hch

/-- An emission changes nothing of the controller but the sink and the result (R178, R179). -/
theorem CtlMove.eq {s : State} {c : Vm} {i : Instr} {p : Controller} (h : CtlMove s c i p) :
    p = { s.ctl with sink := p.sink, result := p.result } := by
  rcases h with rfl | ⟨q, v, -, -, rfl | ⟨-, -, rfl⟩⟩
  · rfl
  · rw [tapped_eq]
  · rw [tapped_eq]

/-- A standalone core in Queue binding leaves the controller alone (R39, log entry 21). -/
theorem CtlMove.eq_of_standalone {s : State} {c : Vm} {i : Instr} {p : Controller} (h : CtlMove s c i p)
    (hset : s.setting = .standalone) (hio : c.io = .queue) : p = s.ctl := by
  rcases h with h | ⟨q, v, -, -, rfl | ⟨hch, -⟩⟩
  · exact h
  · exact tapped_standalone hset v
  · rw [hio] at hch; cases hch

/-! ## The step of a core -/

/-- How core `k` ends its step, `c` before it and `d` after it: it commits or blocks, or it raises. -/
inductive CoreEnd (s : State) (k : Nat) (c d : Vm) (t : State) : Prop where
  | goesOn : (d.status = c.status ∧ d.done = c.done) ∨ (d.status = .halted ∧ d.done = true) → d.fault = c.fault →
      t.ctl = { s.ctl with sink := t.ctl.sink, result := t.ctl.result } →
      (s.setting = .standalone → c.io = .queue → t.ctl = s.ctl) → CoreEnd s k c d t
  | raises : d.status = .faulted → d.done = c.done → d.fault.fcode ≠ .none → d.fault.fpc = some d.pc →
      (s.setting = .standalone → t.ctl = s.ctl) → (s.setting = .pipeline → t.ctl = s.ctl.abortBy k d.fault) →
      CoreEnd s k c d t

/-- The step of core `k` from `s` to `t`, the core being `c` before it and `d` after it. -/
structure CoreStep (s : State) (k : Nat) (c d : Vm) (t : State) : Prop where
  params : t.params = s.params
  setting : t.setting = s.setting
  cores : t.cores = s.cores.set k d
  io : d.io = c.io
  memLen : d.mem.len = c.mem.len
  started : d.started = true
  wiring : SameWiring s.chans t.chans
  queueChans : c.io = .queue → t.chans = s.chans
  ends : CoreEnd s k c d t

theorem coreStep_of_runActive {s t : State} {k : Nat} {c : Vm} (hc : s.core? k = some c)
    (h : (s.chose.select k).runActive = .next t) : ∃ d, CoreStep s k c d t := by
  have hact := selected_active hc
  obtain ⟨n, hn⟩ := State.chose_select_eq hc
  rw [hn] at h hact
  rcases runActive_cases hact h with ⟨i, -, hm⟩ | rfl | ⟨r, rfl, hr⟩
  · obtain ⟨d, ht, hio, hfault, hlen, hst, hstat, hch, hctl⟩ := hm.effect
    refine ⟨d, ?_, ?_, ?_, hio, hlen, hst, hch.sameWiring, hch.eq_of_queue,
      .goesOn ?_ hfault hctl.eq hctl.eq_of_standalone⟩
    · rw [ht]
    · rw [ht]
    · rw [ht]; exact List.set_set ..
    · rcases hstat with hstat | ⟨-, rfl⟩
      · exact .inl hstat
      · exact .inr ⟨rfl, rfl⟩
  · exact ⟨_, rfl, rfl, rfl, rfl, rfl, rfl, rfl, fun _ => rfl, .goesOn (.inl ⟨rfl, rfl⟩) rfl rfl fun _ _ => rfl⟩
  · refine ⟨{ c with started := true, status := .faulted, fault := Vm.recordOf { c with started := true } r },
      State.takeFault_params .., State.takeFault_setting .., ?_, rfl, rfl, rfl, ?_,
      fun _ => State.takeFault_chans .., .raises rfl rfl hr rfl
        (fun hset => State.takeFault_ctl_standalone _ _ r hset)
        fun hset => State.takeFault_ctl_pipeline _ _ r hset⟩
    · rw [State.takeFault_cores]; exact List.set_set ..
    · rw [State.takeFault_chans]; rfl

section
variable {s t : State} {k : Nat} {c d : Vm} (h : CoreStep s k c d t)
include h

theorem CoreStep.core?_same (hc : s.core? k = some c) : t.core? k = some d := by
  obtain ⟨hlt, -⟩ := List.getElem?_eq_some_iff.1 hc
  rw [State.core?, h.cores, List.getElem?_set_self hlt]

theorem CoreStep.core?_other {j : Nat} (hj : j ≠ k) : t.core? j = s.core? j := by
  rw [State.core?, h.cores, List.getElem?_set_ne hj.symm, State.core?]

theorem CoreStep.config : t.ctl.config = s.ctl.config := by
  rcases h.ends with ⟨-, -, hctl, -⟩ | ⟨-, -, -, -, hsa, hpl⟩
  · rw [hctl]
  · cases hset : s.setting with
    | standalone => rw [hsa hset]
    | pipeline => rw [hpl hset, Controller.abortBy_config]

theorem CoreStep.cur : t.ctl.cur = s.ctl.cur := by
  rcases h.ends with ⟨-, -, hctl, -⟩ | ⟨-, -, -, -, hsa, hpl⟩
  · rw [hctl]
  · cases hset : s.setting with
    | standalone => rw [hsa hset]
    | pipeline => rw [hpl hset, Controller.abortBy_cur]

/-- The run of a pipeline goes on, with no fault; or the core has faulted and the run is aborted, without a result
(R188). -/
theorem CoreStep.run_goesOn_or_aborted (hset : s.setting = .pipeline) (hrun : c.status = .running) :
    (d.status ≠ .faulted ∧ t.ctl.pstatus = s.ctl.pstatus ∧ t.ctl.abort = s.ctl.abort) ∨
      (t.ctl.pstatus = .aborted ∧ t.ctl.abort.acode ≠ .none ∧ t.ctl.result = none) := by
  rcases h.ends with ⟨hstat, -, hctl, -⟩ | ⟨-, -, hcode, -, -, hpl⟩
  · rw [hctl]
    rcases hstat with ⟨hstat, -⟩ | ⟨hstat, -⟩
    · exact .inl ⟨by simp [hstat, hrun], rfl, rfl⟩
    · exact .inl ⟨by simp [hstat], rfl, rfl⟩
  · rw [hpl hset]
    exact .inr ⟨rfl, hcode, rfl⟩

end

/-! ## The step of the controller -/

/-- The controller's steps change nothing but the controller and, where the core `cur` of a sync run hands over, the input
queue of the next core (R187 to R190). -/
theorem ControlStep.frame {s t : State} (h : ControlStep s t) :
    t = { s with cores := t.cores, ctl := t.ctl } ∧ t.ctl.config = s.ctl.config ∧
      (t.cores = s.cores ∨ ∃ d q, s.SyncRun ∧ s.core? (s.ctl.cur + 1) = some d ∧
        t.cores = s.cores.set (s.ctl.cur + 1) { d with inQ := q }) := by
  cases h with
  | handOver hs _ _ _ _ hd => exact ⟨rfl, rfl, .inr ⟨_, _, hs, hd, rfl⟩⟩
  | excess => exact ⟨rfl, rfl, .inl rfl⟩
  | terminated => exact ⟨rfl, rfl, .inl rfl⟩
  | deadlock => exact ⟨rfl, rfl, .inl rfl⟩
  | syncFault => exact ⟨rfl, rfl, .inl rfl⟩
  | syncExcess => exact ⟨rfl, rfl, .inl rfl⟩
  | syncEnd => exact ⟨rfl, rfl, .inl rfl⟩

/-- A core after a controller's step is as before it, but for the input queue of the next core of a sync run. -/
theorem ControlStep.core? {s t : State} (h : ControlStep s t) {j : Nat} {c : Vm} (hc : s.core? j = some c) :
    ∃ q, t.core? j = some { c with inQ := q } ∧ (q = c.inQ ∨ (s.SyncRun ∧ j = s.ctl.cur + 1)) := by
  rcases h.frame with ⟨-, -, hcores | ⟨d, q, hs, hd, hcores⟩⟩
  · exact ⟨c.inQ, by rw [State.core?, hcores]; exact hc, .inl rfl⟩
  · by_cases hj : j = s.ctl.cur + 1
    · subst hj
      obtain rfl : d = c := Option.some.inj (hd.symm.trans hc)
      obtain ⟨hlt, -⟩ := List.getElem?_eq_some_iff.1 hc
      exact ⟨q, by rw [State.core?, hcores, List.getElem?_set_self hlt], .inr ⟨hs, rfl⟩⟩
    · exact ⟨c.inQ, by rw [State.core?, hcores, List.getElem?_set_ne (Ne.symm hj)]; exact hc, .inl rfl⟩

/-! ## A step of any agent -/

/-- A step does nothing, or it is a controller's, or that of a Running core. -/
theorem stepWith_agent {choice : Nat} {s t : State} (h : stepWith choice s = .next t) :
    t = s ∨ ControlStep s t ∨ ∃ k c d, s.plan choice = .core k ∧ s.core? k = some c ∧ c.status = .running ∧
      CoreStep s k c d t := by
  rcases stepWith_cases h with ⟨-, rfl⟩ | hctl | ⟨k, c, hplan, hc, hrun, -, hr⟩
  · exact .inl rfl
  · exact .inr (.inl hctl)
  · obtain ⟨d, hd⟩ := coreStep_of_runActive hc hr
    exact .inr (.inr ⟨k, c, d, hplan, hc, hrun, hd⟩)

end Sys2Proof.Machine
end

section
/-! PROOF. What no step changes, and that stopped cores are left alone (spec 10_state.md R23 to R29, R35, R38). -/

namespace Sys2Proof.Machine

/-- What a step keeps of a core: its memory length, its binding and its flags once set; and its record, unless it raises
(R23, R25, R27 to R29). -/
def CoreKeeps (c d : Vm) : Prop :=
  d.mem.len = c.mem.len ∧ d.io = c.io ∧ (c.started = true → d.started = true) ∧ (c.done = true → d.done = true) ∧
    (d.fault = c.fault ∨ (c.status = .running ∧ d.status = .faulted))

theorem coreKeeps_with_inQ (c : Vm) (q : List Int) : CoreKeeps c { c with inQ := q } :=
  ⟨rfl, rfl, id, id, .inl rfl⟩

theorem CoreStep.coreKeeps {s t : State} {k : Nat} {c d : Vm} (h : CoreStep s k c d t) (hrun : c.status = .running) :
    CoreKeeps c d := by
  refine ⟨h.memLen, h.io, fun _ => h.started, ?_⟩
  rcases h.ends with ⟨⟨-, hdone⟩ | ⟨-, hdone⟩, hf, -⟩ | ⟨hst, hdone, -⟩
  · exact ⟨fun hd => hdone.trans hd, .inl hf⟩
  · exact ⟨fun _ => hdone, .inl hf⟩
  · exact ⟨fun hd => hdone.trans hd, .inr ⟨hrun, hst⟩⟩

/-- Settles O47: by the cases of a step. -/
theorem stepKeepsWhatIsFixed : Obligations.StepKeepsWhatIsFixed := by
  intro choice s t h
  rcases stepWith_agent h with rfl | hctl | ⟨k, c, d, -, hc, hrun, hd⟩
  · exact ⟨rfl, rfl, rfl, rfl, rfl, fun k c hc => ⟨c, hc, coreKeeps_with_inQ c c.inQ⟩, fun k ch hch => ⟨ch, hch, rfl, rfl⟩⟩
  · obtain ⟨ht, hconfig, hcores⟩ := hctl.frame
    have hlen : t.cores.length = s.cores.length := by
      rcases hcores with hcores | ⟨d, q, -, -, hcores⟩ <;> simp [hcores]
    refine ⟨by rw [ht], by rw [ht], hconfig, hlen, by rw [ht], fun j c hc => ?_,
      fun j ch hch => ⟨ch, by rw [ht]; exact hch, rfl, rfl⟩⟩
    obtain ⟨q, hq, -⟩ := hctl.core? hc
    exact ⟨_, hq, coreKeeps_with_inQ c q⟩
  · refine ⟨hd.params, hd.setting, hd.config, by simp [hd.cores], hd.wiring.length_eq, fun j c' hc' => ?_,
      fun j ch hch => hd.wiring.getElem? hch⟩
    by_cases hj : j = k
    · subst hj
      obtain rfl : c = c' := Option.some.inj (hc.symm.trans hc')
      exact ⟨d, hd.core?_same hc, hd.coreKeeps hrun⟩
    · exact ⟨c', (hd.core?_other hj).trans hc', coreKeeps_with_inQ c' c'.inQ⟩

/-- The core that a sync run is to hand over to is Running (R190). -/
theorem State.ControlOk.next_running {s : State} (hok : s.ControlOk) (hs : s.SyncRun) {c : Vm}
    (hc : s.core? (s.ctl.cur + 1) = some c) : c.status = .running := by
  obtain ⟨hset, hp, hmode⟩ := hs
  obtain ⟨-, -, -, hlater⟩ := (hok.pipeline hset).sync hmode
  exact hlater hp _ c hc (Nat.lt_succ_self _)

/-- Settles O45: a core's step is that of a Running core, and the controller touches only the core it hands over to, which
is Running. -/
theorem stoppedCoresNeverChange : Obligations.StoppedCoresNeverChange := by
  intro choice s t j c hok h hc hstopped
  rcases stepWith_agent h with rfl | hctl | ⟨k, c', d, -, hc', hrun, hd⟩
  · exact hc
  · obtain ⟨q, hq, rfl | ⟨hs, rfl⟩⟩ := hctl.core? hc
    · exact hq
    · exact absurd (hok.next_running hs hc) hstopped
  · have hj : j ≠ k := by
      rintro rfl
      obtain rfl : c' = c := Option.some.inj (hc'.symm.trans hc)
      exact hstopped hrun
    exact (hd.core?_other hj).trans hc

end Sys2Proof.Machine
end

section
/-! PROOF. Every step keeps the arrangement of the machine consistent (spec 10_state.md R26, R28, R35, R39, 60_exceptions.md
R180 to R190): the core that steps is Running, so its flags and record agree after any end of its step, and the controller
moves only while the run goes on. -/

namespace Sys2Proof.Machine

/-- A core of a pipeline steps only during its run, and in a sync run it is the current one (R185, R190). -/
theorem plan_core_pipeline {choice k : Nat} {s : State} (h : s.plan choice = .core k) (hset : s.setting = .pipeline) :
    s.ctl.pstatus = .running ∧ (s.ctl.config.mode = .sync → k = s.ctl.cur) := by
  rw [State.plan, hset] at h
  cases hp : s.ctl.pstatus with
  | running =>
    refine ⟨rfl, fun hmode => ?_⟩
    simp only [hp, hmode, State.planSync] at h
    split at h
    · cases h
    · split at h
      · cases h; rfl
      · cases h
      · split at h <;> cases h
  | idle => rw [hp] at h; cases h
  | terminated => rw [hp] at h; cases h
  | aborted => rw [hp] at h; cases h

theorem State.core?_mem {s : State} {k : Nat} {c : Vm} (h : s.core? k = some c) : c ∈ s.cores := List.mem_of_getElem? h

/-- Handing a core its input leaves its flags and record as they are. -/
theorem Vm.StatusOk.with_inQ {c : Vm} (h : c.StatusOk) (q : List Int) : { c with inQ := q }.StatusOk := { h with }

/-! ## The step of a core -/

section
variable {s t : State} {k : Nat} {c d : Vm} (h : CoreStep s k c d t) (hrun : c.status = .running)
include h hrun

theorem CoreStep.statusOk (hok : c.StatusOk) : d.StatusOk := by
  have hcode : c.fault.fcode = .none := not_not.1 fun hn => by
    have hst := hok.faulted.2 hn
    rw [hrun] at hst
    cases hst
  have hdone : c.done = false := by
    rw [← Bool.not_eq_true, hok.done, hrun]
    decide
  rcases h.ends with ⟨⟨hst, hd⟩ | ⟨hst, hd⟩, hf, -⟩ | ⟨hst, hd, hn, hpc, -⟩
  · exact ⟨by simp [hd, hdone, hst, hrun], by simp [hf, hcode, hst, hrun], by simp [hst, hrun], hf ▸ hok.clean⟩
  · exact ⟨by simp [hd, hst], by simp [hf, hcode, hst], by simp [hst], hf ▸ hok.clean⟩
  · exact ⟨by simp [hd, hdone, hst], by simp [hn, hst], fun _ => hpc, fun he => absurd he hn⟩

theorem CoreStep.runOrder (hord : s.RunOrder)
    (hplan : s.setting = .pipeline → s.ctl.pstatus = .running ∧ (s.ctl.config.mode = .sync → k = s.ctl.cur)) :
    t.RunOrder := by
  intro hset
  rw [h.setting] at hset
  obtain ⟨hp, hk⟩ := hplan hset
  refine ⟨?_, fun hterm => ?_⟩
  · rw [h.config, h.cur]
    intro hmode _ j x hj hlt
    have hne : j ≠ k := by rw [hk hmode]; exact hlt.ne
    exact (hord hset).1 hmode hp j x ((h.core?_other hne).symm.trans hj) hlt
  · rcases h.run_goesOn_or_aborted hset hrun with ⟨-, hps, -⟩ | ⟨hab, -, -⟩
    · rw [hps, hp] at hterm; cases hterm
    · rw [hab] at hterm; cases hterm

end

section
variable {s t : State} {k : Nat} {c d : Vm} (h : CoreStep s k c d t) (hc : s.core? k = some c)
include h hc

theorem CoreStep.standaloneOk (hset : s.setting = .standalone)
    (hok : (∃ x, s.cores = [x] ∧ x.io = .queue) ∧ s.chans = [] ∧ s.ctl = .reset) :
    (∃ x, t.cores = [x] ∧ x.io = .queue) ∧ t.chans = [] ∧ t.ctl = .reset := by
  obtain ⟨⟨x, hx, hio⟩, hchans, hctl⟩ := hok
  rw [State.core?, hx] at hc
  cases k with
  | succ k => cases hc
  | zero =>
    cases hc
    have hcores : t.cores = [d] := by rw [h.cores, hx]; rfl
    refine ⟨⟨d, hcores, h.io.trans hio⟩, (h.queueChans hio).trans hchans, ?_⟩
    rcases h.ends with ⟨-, -, -, hsa⟩ | ⟨-, -, -, -, hsa, -⟩
    · exact (hsa hset hio).trans hctl
    · exact (hsa hset).trans hctl

/-- The step of a core, the current one in a sync run, keeps the arrangement of a pipeline in its run. -/
theorem CoreStep.pipelineOk (hset : s.setting = .pipeline) (hok : s.PipelineOk) (hrun : c.status = .running)
    (hp : s.ctl.pstatus = .running) (hk : s.ctl.config.mode = .sync → k = s.ctl.cur) : t.PipelineOk := by
  have hio : ∀ {b : IoBinding}, (∀ x ∈ s.cores, x.io = b) → ∀ x ∈ t.cores, x.io = b := fun hb => by
    rw [h.cores]
    exact forall_mem_set hb (h.io.trans (hb c (State.core?_mem hc)))
  have hgoes := h.run_goesOn_or_aborted hset hrun
  refine ⟨?config, ?count, ?sync, ?concurrent, ?unfaulted, ?idle, ?aborted, ?notAborted⟩
  case config => rw [h.config, h.params]; exact hok.config
  case count => rw [h.config, h.cores, List.length_set]; exact hok.count
  case sync =>
    rw [h.config, h.cur]
    intro hmode
    obtain ⟨hchans, hqueue, hcur, hlater⟩ := hok.sync hmode
    refine ⟨(h.queueChans (hqueue c (State.core?_mem hc))).trans hchans, hio hqueue, hcur, fun _ j x hj hlt => ?_⟩
    have hne : j ≠ k := by rw [hk hmode]; exact hlt.ne'
    exact hlater hp j x ((h.core?_other hne).symm.trans hj) hlt
  case concurrent =>
    rw [h.config]
    intro hmode
    obtain ⟨hlen, hchannel, hends⟩ := hok.concurrent hmode
    refine ⟨h.wiring.length_eq.trans hlen, hio hchannel, fun j ch hj => ?_⟩
    obtain ⟨ch', hj', hprod, hcons⟩ := SameWiring.getElem? h.wiring.symm hj
    exact ⟨hprod ▸ (hends j ch' hj').1, hcons ▸ (hends j ch' hj').2⟩
  case unfaulted =>
    intro hst
    rcases hgoes with ⟨hd, -, -⟩ | ⟨hab, -, -⟩
    · rw [h.cores]; exact forall_mem_set (hok.unfaulted (.inr hp)) hd
    · simp [hab] at hst
  case idle =>
    intro hst
    rcases hgoes with ⟨-, hps, -⟩ | ⟨hab, -, -⟩
    · simp [hps, hp] at hst
    · simp [hab] at hst
  case aborted =>
    intro hst
    rcases hgoes with ⟨-, hps, -⟩ | ⟨-, hab⟩
    · simp [hps, hp] at hst
    · exact hab
  case notAborted =>
    intro hst
    rcases hgoes with ⟨-, -, hab⟩ | ⟨hab, -, -⟩
    · exact hab.trans (hok.notAborted (by simp [hp]))
    · exact absurd hab hst

theorem CoreStep.controlOk (hok : s.ControlOk) (hrun : c.status = .running)
    (hplan : s.setting = .pipeline → s.ctl.pstatus = .running ∧ (s.ctl.config.mode = .sync → k = s.ctl.cur)) :
    t.ControlOk where
  cores := by
    rw [h.cores]
    exact forall_mem_set hok.cores (h.statusOk hrun (hok.cores c (State.core?_mem hc)))
  standalone hset := by
    rw [h.setting] at hset
    exact h.standaloneOk hc hset (hok.standalone hset)
  pipeline hset := by
    rw [h.setting] at hset
    obtain ⟨hp, hk⟩ := hplan hset
    exact h.pipelineOk hc hset (hok.pipeline hset) hrun hp hk

end

/-! ## The steps of the controller -/

theorem ControlStep.pipeline_running {s t : State} (h : ControlStep s t) :
    s.setting = .pipeline ∧ s.ctl.pstatus = .running := by
  cases h with
  | excess hs => exact ⟨hs.1, hs.2.1⟩
  | terminated hs => exact ⟨hs.1, hs.2.1⟩
  | deadlock hs => exact ⟨hs.1, hs.2.1⟩
  | syncFault hs => exact ⟨hs.1, hs.2.1⟩
  | syncExcess hs => exact ⟨hs.1, hs.2.1⟩
  | handOver hs => exact ⟨hs.1, hs.2.1⟩
  | syncEnd hs => exact ⟨hs.1, hs.2.1⟩

section
variable {s : State} (hok : s.PipelineOk)
include hok

/-- A controller that ends the run, with a record exactly when it aborts it, keeps the arrangement (R187 to R189). -/
theorem State.PipelineOk.ended {p : Controller} (hconfig : p.config = s.ctl.config) (hcur : p.cur = s.ctl.cur)
    (hend : (p.pstatus = .aborted ∧ p.abort.acode ≠ .none ∧ p.result = none) ∨
      (p.pstatus = .terminated ∧ p.abort = .empty)) : { s with ctl := p }.PipelineOk := by
  have hstopped : p.pstatus ≠ .running ∧ p.pstatus ≠ .idle := by
    rcases hend with ⟨hp, -⟩ | ⟨hp, -⟩ <;> simp [hp]
  refine ⟨hconfig ▸ hok.config, hconfig ▸ hok.count, ?sync, hconfig ▸ hok.concurrent, ?unfaulted, ?idle,
    ?aborted, ?notAborted⟩
  case sync =>
    rw [hconfig, hcur]
    intro hmode
    obtain ⟨hchans, hqueue, hlt, -⟩ := hok.sync hmode
    exact ⟨hchans, hqueue, hlt, fun hp => absurd hp hstopped.1⟩
  case unfaulted => exact fun hp => absurd hp (not_or.2 ⟨hstopped.2, hstopped.1⟩)
  case idle => exact fun hp => absurd hp hstopped.2
  case aborted =>
    intro hp
    rcases hend with ⟨-, hab⟩ | ⟨hterm, -⟩
    · exact hab
    · rw [hterm] at hp; cases hp
  case notAborted =>
    intro hp
    rcases hend with ⟨hab, -⟩ | ⟨-, hempty⟩
    · exact absurd hab hp
    · exact hempty

theorem State.PipelineOk.abortWith {code : FaultCode} (k : Option Nat) (hcode : code ≠ .none) :
    { s with ctl := s.ctl.abortWith code k }.PipelineOk :=
  hok.ended rfl rfl (.inl ⟨rfl, hcode, rfl⟩)

theorem State.PipelineOk.terminated (hp : s.ctl.pstatus = .running) :
    { s with ctl := { s.ctl with pstatus := .terminated } }.PipelineOk :=
  hok.ended rfl rfl (.inr ⟨rfl, hok.notAborted (by simp [hp])⟩)

/-- The hand-over to the next core of a sync run keeps the arrangement (R190, point 5). -/
theorem State.PipelineOk.handOver (hs : s.SyncRun) {d : Vm} {q : List Int} (hlt : s.ctl.cur + 1 < s.ctl.config.n)
    (hd : s.core? (s.ctl.cur + 1) = some d) :
    { s with
      cores := s.cores.set (s.ctl.cur + 1) { d with inQ := q }
      ctl := { s.ctl with cur := s.ctl.cur + 1 } }.PipelineOk := by
  obtain ⟨-, hp, hmode⟩ := hs
  obtain ⟨hchans, hqueue, -, hlater⟩ := hok.sync hmode
  have hdmem := State.core?_mem hd
  refine ⟨hok.config, by rw [List.length_set]; exact hok.count, fun _ => ⟨hchans, ?_, hlt, fun _ j x hj hjlt => ?_⟩,
    ?concurrent, ?unfaulted, ?idle, hok.aborted, hok.notAborted⟩
  · exact forall_mem_set hqueue (hqueue d hdmem)
  · have hne : s.ctl.cur + 1 ≠ j := hjlt.ne
    rw [State.core?, List.getElem?_set_ne hne] at hj
    exact hlater hp j x hj (Nat.lt_of_succ_lt hjlt)
  case concurrent => intro hconc; rw [hmode] at hconc; cases hconc
  case unfaulted => exact fun hst => forall_mem_set (hok.unfaulted hst) (hok.unfaulted hst d hdmem)
  case idle => intro hidle; rw [hp] at hidle; cases hidle

end

theorem ControlStep.pipelineOk {s t : State} (h : ControlStep s t) (hcores : ∀ c ∈ s.cores, c.StatusOk)
    (hok : s.PipelineOk) : t.PipelineOk := by
  have hp := h.pipeline_running.2
  cases h with
  | excess => exact hok.abortWith _ (by decide)
  | deadlock => exact hok.abortWith _ (by decide)
  | syncExcess => exact hok.abortWith _ (by decide)
  | terminated => exact hok.terminated hp
  | syncEnd => exact hok.terminated hp
  | syncFault _ hc hst => exact hok.ended rfl rfl (.inl ⟨rfl, (hcores _ (State.core?_mem hc)).faulted.1 hst, rfl⟩)
  | handOver hs _ _ _ hlt hd => exact hok.handOver hs hlt hd

theorem ControlStep.controlOk {s t : State} (h : ControlStep s t) (hok : s.ControlOk) : t.ControlOk := by
  obtain ⟨ht, -, hcores⟩ := h.frame
  have hset := h.pipeline_running.1
  have hset' : t.setting = s.setting := by rw [ht]
  refine ⟨?_, fun hsa => ?_, fun _ => h.pipelineOk hok.cores (hok.pipeline hset)⟩
  · rcases hcores with hcores | ⟨d, q, -, hd, hcores⟩
    · rw [hcores]; exact hok.cores
    · rw [hcores]; exact forall_mem_set hok.cores ((hok.cores d (State.core?_mem hd)).with_inQ q)
  · rw [hset', hset] at hsa; cases hsa

/-- An aborted run has no order to keep (R188). -/
theorem runOrder_of_aborted {s : State} (h : s.ctl.pstatus = .aborted) : s.RunOrder := by
  refine fun _ => ⟨fun _ hp => ?_, fun hp => ?_⟩
  · rw [h] at hp; cases hp
  · rw [h] at hp; cases hp

/-- A run is terminated in order when all its cores have halted. -/
theorem runOrder_of_allHalted {s : State} (hp : s.ctl.pstatus = .terminated) (hall : ∀ c ∈ s.cores, c.status = .halted) :
    s.RunOrder := by
  refine fun _ => ⟨fun _ hr => ?_, fun _ => hall⟩
  rw [hp] at hr; cases hr

theorem forall_halted_of_allHalted {s : State} (h : s.allHalted = true) : ∀ c ∈ s.cores, c.status = .halted := by
  simpa [State.allHalted] using h

/-- Once the current core of a sync run has halted, so have all cores up to it (R190). -/
theorem State.RunOrder.halted_upto_cur {s : State} (hord : s.RunOrder) (hs : s.SyncRun) {c : Vm}
    (hc : s.core? s.ctl.cur = some c) (hst : c.status = .halted) {j : Nat} {x : Vm} (hj : s.core? j = some x)
    (hle : j ≤ s.ctl.cur) : x.status = .halted := by
  obtain ⟨hset, hp, hmode⟩ := hs
  rcases hle.lt_or_eq with hlt | rfl
  · exact (hord hset).1 hmode hp j x hj hlt
  · obtain rfl : c = x := Option.some.inj (hc.symm.trans hj)
    exact hst

theorem ControlStep.runOrder {s t : State} (h : ControlStep s t) (hok : s.ControlOk) (hord : s.RunOrder) : t.RunOrder := by
  have hcount := (hok.pipeline h.pipeline_running.1).count
  cases h with
  | excess => exact runOrder_of_aborted rfl
  | deadlock => exact runOrder_of_aborted rfl
  | syncFault => exact runOrder_of_aborted rfl
  | syncExcess => exact runOrder_of_aborted rfl
  | terminated _ _ hall => exact runOrder_of_allHalted rfl (forall_halted_of_allHalted hall)
  | syncEnd hs hc hst _ hlast =>
    refine runOrder_of_allHalted rfl fun x hx => ?_
    obtain ⟨j, hj⟩ := List.mem_iff_getElem?.1 hx
    have hlt : j < s.cores.length := (List.getElem?_eq_some_iff.1 hj).1
    exact hord.halted_upto_cur hs hc hst hj (by omega)
  | handOver hs hc hst =>
    refine fun _ => ⟨fun _ _ j x hj hlt => ?_, fun hterm => ?_⟩
    · have hne : s.ctl.cur + 1 ≠ j := hlt.ne'
      rw [State.core?, List.getElem?_set_ne hne] at hj
      exact hord.halted_upto_cur hs hc hst hj (Nat.le_of_lt_succ hlt)
    · exact absurd (hs.2.1.symm.trans hterm) (by decide)

/-- Settles O41: by the cases of a step. -/
theorem stepKeepsControlConsistent : Obligations.StepKeepsControlConsistent := by
  intro choice s t hok h
  rcases stepWith_agent h with rfl | hctl | ⟨k, c, d, hplan, hc, hrun, hd⟩
  · exact ⟨hok, id⟩
  · exact ⟨hctl.controlOk hok, hctl.runOrder hok⟩
  · have hpipe := plan_core_pipeline hplan
    exact ⟨hd.controlOk hc hok hrun hpipe, fun hord => hd.runOrder hrun hord hpipe⟩

end Sys2Proof.Machine
end

section
/-! PROOF. The host's step of a standalone core (spec 10_state.md R36), and a jump outside memory with the step after it
(R24, 42_jumps.md R130, R131). -/

namespace Sys2Proof.Machine

/-! ## The step of a standalone core -/

theorem State.plan_of_standalone {s : State} {c : Vm} (hset : s.setting = .standalone) (hc : s.core? 0 = some c)
    (choice : Nat) : s.plan choice = if c.status = .running then .core 0 else .idle := by
  rw [State.plan, hset]
  simp only [State.planStandalone, hc]

theorem State.chose_of_standalone {s : State} (hset : s.setting = .standalone) : s.chose = s := by
  rw [State.chose, hset]

theorem step_of_standalone_running {s : State} {c : Vm} (hset : s.setting = .standalone) (hc : s.core? 0 = some c)
    (hrun : c.status = .running) : step s = (s.select 0).runActive := by
  rw [step, stepWith, State.plan_of_standalone hset hc, if_pos hrun, State.chose_of_standalone hset]

theorem step_of_standalone_stopped {s : State} {c : Vm} (hset : s.setting = .standalone) (hc : s.core? 0 = some c)
    (hstop : c.status ≠ .running) : step s = .next s := by
  rw [step, stepWith, State.plan_of_standalone hset hc, if_neg hstop]

/-! ## Blocks -/

theorem endsInBlock_eq_true {e : Except Stop State} : endsInBlock e = true ↔ e = .error .block := by
  unfold endsInBlock
  split
  · simp
  · rename_i hne; simpa using hne

/-- An instruction that blocks changes nothing (R10, R123). -/
theorem exec_of_instrBlocks {s : State} {i : Instr} (h : instrBlocks s i = true) : exec i s = .next s := by
  cases i with
  | inp p1 =>
    have hblock : inEffect p1 s = .error .block := endsInBlock_eq_true.1 h
    rw [exec, execIn, hblock]
    rfl
  | out p1 =>
    have hblock : outEffect p1 s = .error .block := endsInBlock_eq_true.1 h
    rw [exec, execOut, hblock]
    rfl
  | add | mul | jt | jf | lt | eq | halt => cases h

/-- The step of a core that would block changes nothing once the core is selected (R34). -/
theorem runActive_of_wouldBlock {s : State} {k : Nat} (h : s.wouldBlock k = true) :
    (s.select k).runActive = .next (s.select k) := by
  rw [State.wouldBlock] at h
  rw [State.runActive]
  cases hi : (s.select k).fetchInstr with
  | ok i => rw [hi] at h; exact exec_of_instrBlocks h
  | error e => rw [hi] at h; cases h

/-- A blocked core is Running (R34, R35). -/
theorem State.blocked_iff {s : State} {k : Nat} {c : Vm} (hc : s.core? k = some c) :
    s.blocked k = true ↔ c.status = .running ∧ s.wouldBlock k = true := by
  simp [State.blocked, State.isRunning, hc]

/-- Settles O38: by the plan of a standalone machine. -/
theorem hostStepOfAStandaloneCore : Obligations.HostStepOfAStandaloneCore := by
  intro s c hset hc
  refine ⟨step_of_standalone_stopped hset hc, fun hrun => ⟨fun choice => ?_, ?_, State.select_eq hc⟩, fun hblocked => ?_⟩
  · rw [State.plan_of_standalone hset hc, if_pos hrun]
  · exact step_of_standalone_running hset hc hrun
  · obtain ⟨hrun, hwould⟩ := (State.blocked_iff hc).1 hblocked
    rw [step_of_standalone_running hset hc hrun, runActive_of_wouldBlock hwould, State.select_eq hc]

/-! ## A jump outside memory -/

theorem conclude_jumpIf_of_taken {taken : Int → Bool} {p1 p2 : Param} {s : State} {c : Vm} {a x : Int}
    (hc : s.Active c) (h1 : ReadsAs c p1 a) (h2 : ReadsAs c p2 x) (ht : taken a = true) :
    s.conclude (jumpIf taken p1 p2 s) = .next (s.setVm (c.goto x)) := by
  rw [jumpIf_eq_ok.2 ⟨c, a, x, hc, h1, h2, rfl⟩, if_pos ht]
  rfl

/-- Check P1: a step at a pc outside memory raises OutOfBounds there (R92, R163). -/
theorem runActive_of_pc_outOfBounds {s : State} {c : Vm} (hc : s.Active c) (hpc : ¬c.mem.InBounds c.pc) :
    s.runActive = .next (s.takeFault c ⟨.outOfBounds, none, some c.pc⟩) := by
  have hfetch : s.fetchInstr = .error (outOfBounds none c.pc) :=
    fetchInstr_eq_error.2 (.inr ⟨c, hc, .inl ⟨Memory.slice_eq_none.2 hpc, rfl⟩⟩)
  rw [State.runActive, hfetch]
  exact conclude_raise _ hc

/-- Settles O31: the jump commits its target unchecked, and the next step fails at P1. -/
theorem jumpTargetIsCheckedAtTheNextFetch : Obligations.JumpTargetIsCheckedAtTheNextFetch := by
  intro s t c p1 p2 a x hset hzero hc hrun h1 h2 hx hexec
  have hjump : t = s.setVm (c.goto x) := by
    rcases hexec with ⟨ha, he⟩ | ⟨ha, he⟩ <;>
      exact Host.Outcome.next.inj (he.symm.trans (conclude_jumpIf_of_taken hc h1 h2 (decide_eq_true ha)))
  have hcore : t.core? 0 = some (c.goto x) := by
    rw [hjump, ← hzero]
    exact State.core?_setVm_active hc
  have hset' : t.setting = .standalone := by rw [hjump]; exact hset
  have hact : (t.select 0).Active { c with pc := x, started := true } := by
    rw [State.Active, State.select_active, State.core?_select, hcore]
    rfl
  refine ⟨hcore, _, ?_, takeFault_raisedIn _ _ ⟨.outOfBounds, none, some x⟩⟩
  rw [step_of_standalone_running hset' hcore hrun]
  exact runActive_of_pc_outOfBounds hact hx

end Sys2Proof.Machine
end

section
/-! PROOF. Memory as one core sees it: bounds-checked reads, the set-get law, the clamped window, and a store seen by every
window over it (spec 20_memory.md R51 to R54, R66, 70_reset_and_hazards.md R234). -/

namespace Sys2Proof.Machine

/-- The out-of-bounds condition in the spec's form (R51). -/
theorem Memory.not_inBounds {m : Memory} {a : Int} : ¬m.InBounds a ↔ a < 0 ∨ (m.len : Int) ≤ a := by
  rw [Memory.InBounds]
  omega

theorem Memory.cellsFrom_getElem? {m : Memory} {a n i : Nat} {v : Int} :
    (m.cellsFrom a n)[i]? = some v ↔ i < n ∧ m.get (a + i) = v := by
  simp [Memory.cellsFrom, List.getElem?_eq_some_iff]

/-- Each cell of a window is what a read of its address answers (R53). -/
theorem Memory.read_of_slice {m : Memory} {a : Int} {n i : Nat} {window : List Int} {v : Int}
    (hwin : m.slice a n = some window) (hi : window[i]? = some v) : m.read (a + i) = some v := by
  obtain ⟨⟨h0, hlen⟩, rfl⟩ := Memory.slice_eq_some.1 hwin
  obtain ⟨hlt, rfl⟩ := Memory.cellsFrom_getElem?.1 hi
  have haddr : (a + i).toNat = a.toNat + i := by omega
  exact Memory.read_eq_some.2 ⟨⟨by omega, by omega⟩, by rw [haddr]⟩

/-- Settles O10: a fetch of a position answers the cell within bounds, and raises outside them. -/
theorem readIsBoundsChecked : Obligations.ReadIsBoundsChecked := by
  intro c n a
  rw [← Memory.not_inBounds, not_not]
  exact ⟨fun hout => fetch_eq_error.2 ⟨a, rfl, hout, rfl⟩, fun hin => fetch_eq_ok.2 ⟨hin, rfl⟩⟩

/-- Settles O9: by what a read after a write answers, at the written address and at another. -/
theorem setThenGet : Obligations.SetThenGet := by
  intro m a v ha
  obtain ⟨d, rfl⟩ := Int.eq_ofNat_of_zero_le ha.1
  rw [Int.toNat_natCast]
  refine ⟨?_, fun b hb => ?_⟩
  · rw [Memory.read_set, if_pos ha, if_pos rfl]
  · rw [Memory.read_set, if_neg hb, Memory.read]

/-- Settles O11: the window is the cells from its start on, as many as there are up to `n`. -/
theorem sliceIsClamped : Obligations.SliceIsClamped := by
  intro m a n
  rw [← Memory.not_inBounds, not_not]
  refine ⟨Memory.slice_eq_none.2, fun hin => ?_⟩
  have hwin : m.slice a n = some (m.cellsFrom a.toNat (min n (m.len - a.toNat))) := Memory.slice_eq_some.2 ⟨hin, rfl⟩
  exact ⟨_, hwin, Memory.cellsFrom_length .., fun _ _ hi => Memory.read_of_slice hwin hi⟩

/-- Settles O36: the window's cell at the destination is what a read there answers, which is the stored value. -/
theorem storeIsSeenByTheNextFetch : Obligations.StoreIsSeenByTheNextFetch := by
  intro c p d n v len a window hd hwin hle hlt
  have hi : window[((d : Int) - a).toNat]? = some window[((d : Int) - a).toNat] := List.getElem?_eq_getElem (by omega)
  have hread := Memory.read_of_slice hwin hi
  have haddr : a + (((d : Int) - a).toNat : Int) = d := by omega
  have hin : c.mem.InBounds d := ⟨by omega, by exact_mod_cast hd.lt⟩
  rw [haddr, Vm.store_mem, Memory.read_set, if_pos hin, if_pos rfl] at hread
  rw [hi, hread]

end Sys2Proof.Machine
end

section
/-! PROOF. Cores share no memory and talk through bounded FIFO channels: which core a step changes, and what it does to a
channel (spec 20_memory.md R61 to R65, 60_exceptions.md R171 to R173, R190). -/

namespace Sys2Proof.Machine

/-- Settles O46: by who takes the step. A core's step sets that core, the controller's at most the next core's queue. -/
theorem stepChangesOneCore : Obligations.StepChangesOneCore := by
  intro choice s t h
  rcases stepWith_next h with ⟨hplan, rfl⟩ | hplan | ⟨k, hplan, hrun⟩
  · rw [hplan]
    exact ⟨nofun, fun _ j c hc => ⟨c, hc, rfl, .inl rfl⟩⟩
  · rw [hplan]
    refine ⟨nofun, fun _ j c hc => ?_⟩
    obtain ⟨q, hq, hcase⟩ := (plan_control hplan).core? hc
    exact ⟨_, hq, rfl, hcase⟩
  · obtain ⟨c, hc, -⟩ := plan_core_running hplan
    obtain ⟨d, hd⟩ := coreStep_of_runActive hc hrun
    refine ⟨fun j hj => ?_, fun hno => absurd hplan (hno k)⟩
    obtain rfl : k = j := Plan.core.inj (hplan.symm.trans hj)
    exact fun i hi => hd.core?_other hi

/-- What a step may do to a channel of capacity `cap`: nothing, take its head, or append one value where there is space
(R171 to R173). -/
def FifoMove (cap : Nat) (ch ch' : Channel) : Prop :=
  ch'.buf = ch.buf ∨ (∃ v, ch.buf = v :: ch'.buf) ∨
    ∃ v, ch'.buf = ch.buf ++ [v] ∧ (ch.buf.length < cap ∨ ch.consumer = .sink)

theorem FifoMove.refl (cap : Nat) (ch : Channel) : FifoMove cap ch ch := .inl rfl

theorem FifoMove.pop (cap : Nat) {ch : Channel} {v : Int} {rest : List Int} (h : ch.buf = v :: rest) :
    FifoMove cap ch ch.pop :=
  .inr (.inl ⟨v, by rw [Channel.pop_buf, h, List.tail_cons]⟩)

theorem FifoMove.push {s : State} {ch : Channel} (h : s.space ch = true) (v : Int) :
    FifoMove s.params.cap ch (ch.push v) := by
  refine .inr (.inr ⟨v, rfl, ?_⟩)
  by_cases hsink : ch.consumer = .sink
  · exact .inr hsink
  · exact .inl (buf_lt_cap_of_space h hsink)

/-- When one channel of a list moves, every channel of it moves or stays. -/
theorem FifoMove.set {cap j k : Nat} {l : List Channel} {chj chj' ch : Channel} (hmove : FifoMove cap chj chj')
    (hj : l[j]? = some chj) (hk : l[k]? = some ch) : ∃ ch', (l.set j chj')[k]? = some ch' ∧ FifoMove cap ch ch' := by
  by_cases hjk : j = k
  · subst hjk
    obtain rfl : chj = ch := Option.some.inj (hj.symm.trans hk)
    obtain ⟨hlt, -⟩ := List.getElem?_eq_some_iff.1 hj
    exact ⟨chj', List.getElem?_set_self hlt, hmove⟩
  · exact ⟨ch, (List.getElem?_set_ne hjk).trans hk, .refl cap ch⟩

theorem ChansMove.fifoMove {s : State} {c : Vm} {l : List Channel} (h : ChansMove s c l) {k : Nat} {ch : Channel}
    (hk : s.chans[k]? = some ch) : ∃ ch', l[k]? = some ch' ∧ FifoMove s.params.cap ch ch' := by
  rcases h with rfl | ⟨-, chj, v, rest, hj, hbuf, rfl⟩ | ⟨-, j, chj, v, -, hj, hspace, rfl⟩
  · exact ⟨ch, hk, .refl _ ch⟩
  · exact (FifoMove.pop _ hbuf).set hj hk
  · exact (FifoMove.push hspace v).set hj hk

/-- Only a commit moves channels: a block and a raise leave them (R123, R162). -/
theorem runActive_chansMove {s t : State} {c : Vm} (hc : s.Active c) (h : s.runActive = .next t) :
    ChansMove s c t.chans := by
  rcases runActive_cases hc h with ⟨i, -, hcommit⟩ | rfl | ⟨r, rfl, -⟩
  · obtain ⟨d, -, -, -, -, -, -, hchans, -⟩ := hcommit.effect
    exact hchans
  · exact .inl rfl
  · exact .inl (State.takeFault_chans ..)

theorem ControlStep.chans {s t : State} (h : ControlStep s t) : t.chans = s.chans := by
  rw [h.frame.1]

/-- Settles O48: only a core's step moves channels, and each of its moves is a FIFO move. -/
theorem channelsAreFifo : Obligations.ChannelsAreFifo := by
  intro choice s t k ch h hk
  rcases stepWith_cases h with ⟨-, rfl⟩ | hctl | ⟨j, c, -, -, -, hact, hrun⟩
  · exact ⟨ch, hk, FifoMove.refl _ ch⟩
  · exact ⟨ch, hctl.chans ▸ hk, FifoMove.refl _ ch⟩
  · have hk' : (s.chose.select j).chans[k]? = some ch := by rw [State.select_chans, State.chose_chans, hk]
    have hmove := (runActive_chansMove hact hrun).fifoMove hk'
    rwa [State.select_params, State.chose_params] at hmove

end Sys2Proof.Machine
end

section
/-! PROOF. Decode and encode agree: an instruction decodes from exactly the windows that begin with its encoding
(spec 30_encoding.md R81 to R86, R95). -/

namespace Sys2Proof

/-! ## Opcode values (R82, R89, R90) -/

theorem trem_eq_tmod (a b : Int) : trem a b = a.tmod b := (Int.tmod_def a b).symm

theorem trem_of_nonneg {a : Int} (ha : 0 ≤ a) (b : Int) : trem a b = a % b := by
  rw [trem_eq_tmod, Int.tmod_eq_emod_of_nonneg ha]

theorem trem_nonpos {a : Int} (ha : a ≤ 0) (b : Int) : trem a b ≤ 0 := by
  rw [trem_eq_tmod, ← neg_neg a, Int.neg_tmod]
  have := Int.tmod_nonneg b (Int.neg_nonneg_of_nonpos ha)
  omega

theorem Op.code_bounds (op : Op) : 1 ≤ op.code ∧ op.code < 100 := by cases op <;> decide

theorem Op.ofCode_eq_some {v : Int} {op : Op} : Op.ofCode v = some op ↔ v = op.code := by
  constructor
  · intro h
    unfold Op.ofCode at h
    split_ifs at h <;> cases h <;> exact ‹v = _›
  · rintro rfl
    cases op <;> rfl

theorem Op.ofCode_eq_none {v : Int} : Op.ofCode v = none ↔ v ∉ ([1, 2, 3, 4, 5, 6, 7, 8, 99] : List Int) := by
  unfold Op.ofCode
  split_ifs <;> simp [*]

/-- Only an opcode cell above 0 has a legal opcode value (R82). -/
theorem nonneg_of_ofCode {c : Int} {op : Op} (h : Op.ofCode (trem c 100) = some op) : 0 ≤ c := by
  have hcode := Op.ofCode_eq_some.1 h
  have hpos := op.code_bounds.1
  by_contra hneg
  have := trem_nonpos (a := c) (by omega) 100
  omega

/-! ## Digits of an opcode cell (R8, R81) -/

theorem digit_of_nonneg {c : Int} (hc : 0 ≤ c) (j : Nat) : digit c j = c / 10 ^ j % 10 := by
  rw [digit, Int.tdiv_eq_ediv_of_nonneg hc, Int.tdiv_eq_ediv_of_nonneg hc]
  push_cast
  rw [pow_succ, ← Int.ediv_ediv_of_nonneg (by positivity)]
  omega

theorem ediv_pow_add (c : Int) (i j : Nat) : c / 10 ^ (i + j) = c / 10 ^ i / 10 ^ j := by
  rw [pow_add, Int.ediv_ediv_of_nonneg (by positivity)]

theorem digitsAbove_of_nonneg {c : Int} (hc : 0 ≤ c) (k : Nat) : digitsAbove c k = c / 10 ^ (k + 2) := by
  rw [digitsAbove, Int.tdiv_eq_ediv_of_nonneg hc]
  push_cast
  rfl

theorem digit_add_two {c : Int} (hc : 0 ≤ c) (j : Nat) : digit c (j + 2) = c / 100 / 10 ^ j % 10 := by
  rw [digit_of_nonneg hc, Nat.add_comm, ediv_pow_add]
  norm_num

theorem digitsAbove_eq {c : Int} (hc : 0 ≤ c) (k : Nat) : digitsAbove c k = c / 100 / 10 ^ k := by
  rw [digitsAbove_of_nonneg hc, Nat.add_comm, ediv_pow_add]
  norm_num

theorem modeDigits_mul (k w : Int) (ps : List Param) : modeDigits (k * w) ps = k * modeDigits w ps := by
  induction ps generalizing w with
  | nil => simp [modeDigits]
  | cons p ps ih =>
    rw [modeDigits, modeDigits, mul_left_comm, ih]
    ring

theorem Param.modeDigit_eq (p : Param) : p.modeDigit = 0 ∨ p.modeDigit = 1 := by
  cases p
  · exact .inl rfl
  · exact .inr rfl

/-- A number is the mode digits of a list of parameters when its decimal digits are theirs and it has no others (R81, R95). -/
theorem eq_modeDigits_iff {m : Int} {ps : List Param} :
    m = modeDigits 1 ps ↔ m / 10 ^ ps.length = 0 ∧ ∀ n p, ps[n]? = some p → m / 10 ^ n % 10 = p.modeDigit := by
  induction ps generalizing m with
  | nil => simp [modeDigits]
  | cons p ps ih =>
    have hdigit := p.modeDigit_eq
    have hhead : m = modeDigits 1 (p :: ps) ↔ m % 10 = p.modeDigit ∧ m / 10 = modeDigits 1 ps := by
      rw [modeDigits, modeDigits_mul]
      omega
    have hshift (n : Nat) : m / 10 ^ (n + 1) = m / 10 / 10 ^ n := by
      rw [Nat.add_comm, ediv_pow_add, pow_one]
    rw [hhead, ih, List.length_cons, hshift]
    constructor
    · rintro ⟨h0, hlen, hrest⟩
      refine ⟨hlen, fun n q hq => ?_⟩
      cases n with
      | zero => cases hq; simpa using h0
      | succ n => rw [hshift]; exact hrest n q hq
    · rintro ⟨hlen, hall⟩
      refine ⟨by simpa using hall 0 p rfl, hlen, fun n q hq => ?_⟩
      rw [← hshift]
      exact hall (n + 1) q hq

theorem modeDigits_nonneg (ps : List Param) : 0 ≤ modeDigits 1 ps := by
  induction ps with
  | nil => exact le_refl 0
  | cons p ps ih =>
    have hdigit := p.modeDigit_eq
    rw [modeDigits, modeDigits_mul]
    omega

/-- Which opcode cells encode an operation with these parameters (R81, R95). -/
theorem opcodeCell_iff {c : Int} {op : Op} {ps : List Param} :
    c = op.code + modeDigits 100 ps ↔ Op.ofCode (trem c 100) = some op ∧ digitsAbove c ps.length = 0 ∧
      ∀ n p, ps[n]? = some p → digit c (n + 2) = p.modeDigit := by
  have hcode := op.code_bounds
  have hmodes := modeDigits_nonneg ps
  have hscale : modeDigits 100 ps = 100 * modeDigits 1 ps := modeDigits_mul 100 1 ps
  have hiff (hc : 0 ≤ c) : c = op.code + modeDigits 100 ps ↔ Op.ofCode (trem c 100) = some op ∧
      digitsAbove c ps.length = 0 ∧ ∀ n p, ps[n]? = some p → digit c (n + 2) = p.modeDigit := by
    simp only [Op.ofCode_eq_some, trem_of_nonneg hc, digitsAbove_eq hc, digit_add_two hc]
    rw [← eq_modeDigits_iff]
    omega
  exact ⟨fun h => (hiff (by omega)).1 h, fun h => (hiff (nonneg_of_ofCode h.1)).2 h⟩

/-! ## The checks P2 to P4 (R83 to R85, R92) -/

theorem checkModes_eq_ok {c : Int} {i todo : Nat} :
    checkModes c i todo = .ok () ↔ ∀ j, i ≤ j → j < i + todo → digit c (j + 1) = 0 ∨ digit c (j + 1) = 1 := by
  induction todo generalizing i with
  | zero => exact ⟨fun _ j h1 h2 => by omega, fun _ => rfl⟩
  | succ todo ih =>
    unfold checkModes
    split
    · rename_i hi
      rw [ih]
      refine ⟨fun h j h1 h2 => ?_, fun h j h1 h2 => h j (by omega) (by omega)⟩
      rcases h1.eq_or_lt with rfl | h1
      · exact hi
      · exact h j h1 (by omega)
    · rename_i hi
      exact ⟨nofun, fun h => absurd (h i (le_refl i) (by omega)) hi⟩

theorem checkUnused_fault_eq_ok {c : Int} {k : Nat} : checkUnused .fault c k = .ok () ↔ digitsAbove c k = 0 := by
  simp [checkUnused]

/-- When its digit is a mode, a parameter decodes to what has its cell and its digit (R83, R85, R86). -/
theorem decodeParam_eq_ok {c : Int} {ps : List Int} {n : Nat} {p : Param}
    (hmode : digit c (n + 2) = 0 ∨ digit c (n + 2) = 1) :
    decodeParam c ps (n + 1) = .ok p ↔ ps[n]? = some p.raw ∧ digit c (n + 2) = p.modeDigit := by
  rw [decodeParam, Nat.add_sub_cancel]
  cases ps[n]? with
  | none => simp
  | some raw =>
    rcases hmode with h | h <;> cases p <;> simp [h, Param.raw, Param.modeDigit]

theorem op_of_decodeOperands {c : Int} {ps : List Int} {op : Op} {i : Instr} (h : decodeOperands c ps op = .ok i) :
    i.op = op := by
  cases op <;> simp only [decodeOperands, check_bind_eq_ok, pure, Except.pure, Except.ok.injEq] at h
  case halt => rw [← h]; rfl
  case inp | out => obtain ⟨_, -, rfl⟩ := h; rfl
  case jt | jf => obtain ⟨_, -, _, -, rfl⟩ := h; rfl
  all_goals obtain ⟨_, -, _, -, _, -, rfl⟩ := h; rfl

/-- The operands of an instruction decode one by one (R85, R86). -/
theorem decodeOperands_eq_ok {c : Int} {ps : List Int} {i : Instr} :
    decodeOperands c ps i.op = .ok i ↔ ∀ n p, i.operands[n]? = some p → decodeParam c ps (n + 1) = .ok p := by
  have hzip : (∀ n p, i.operands[n]? = some p → decodeParam c ps (n + 1) = .ok p) ↔
      ∀ q ∈ i.operands.zipIdx, decodeParam c ps (q.2 + 1) = .ok q.1 := by
    simp only [List.mem_zipIdx_iff_getElem?]
    exact ⟨fun h q hq => h q.2 q.1 hq, fun h n p hp => h (p, n) hp⟩
  rw [hzip]
  cases i <;> simp [decodeOperands, Instr.op, Instr.operands, check_bind_eq_ok, pure, Except.pure]

theorem Instr.operands_length (i : Instr) : i.operands.length = i.op.nparams := by cases i <;> rfl

/-- Decode answers an instruction when its opcode value is the instruction's and P3 and P4 pass (R92). -/
theorem decode_eq_ok {u : UnusedDigits} {c : Int} {ps : List Int} {i : Instr} :
    decode u (c :: ps) = .ok i ↔ Op.ofCode (trem c 100) = some i.op ∧ checkModes c 1 i.op.nparams = .ok () ∧
      checkUnused u c i.op.nparams = .ok () ∧ decodeOperands c ps i.op = .ok i := by
  rw [decode]
  cases hop : Op.ofCode (trem c 100) with
  | none => simp
  | some op =>
    simp only [check_bind_eq_ok, Option.some.injEq]
    constructor
    · rintro ⟨_, hmodes, _, hunused, hops⟩
      obtain rfl := op_of_decodeOperands hops
      exact ⟨rfl, hmodes, hunused, hops⟩
    · rintro ⟨rfl, hmodes, hunused, hops⟩
      exact ⟨_, hmodes, _, hunused, hops⟩

/-! ## Encodings (R95) -/

/-- The parameter cells begin a list when each stands at its place. -/
theorem raws_prefix_iff {ops : List Param} {ps : List Int} :
    ops.map Param.raw <+: ps ↔ ∀ (n : Nat) (p : Param), ops[n]? = some p → ps[n]? = some p.raw := by
  rw [List.prefix_iff_getElem?]
  simp only [List.length_map, List.getElem_map]
  constructor
  · intro h n p hp
    obtain ⟨hn, rfl⟩ := List.getElem?_eq_some_iff.1 hp
    exact h n hn
  · exact fun h n hn => h n _ (List.getElem?_eq_getElem hn)

/-- Under `fault`, an instruction decodes from exactly the windows that begin with its encoding. -/
theorem decode_fault_eq_ok_iff {window : List Int} {i : Instr} :
    decode .fault window = .ok i ↔ encode i <+: window := by
  cases window with
  | nil => simp [decode, encode, encodeOp]
  | cons c ps =>
    rw [encode, encodeOp, List.cons_prefix_cons, raws_prefix_iff, eq_comm (b := c), opcodeCell_iff, decode_eq_ok,
      checkUnused_fault_eq_ok, decodeOperands_eq_ok, checkModes_eq_ok, Instr.operands_length]
    have hlen {n : Nat} {p : Param} (hp : i.operands[n]? = some p) : n < i.op.nparams := by
      rw [← Instr.operands_length]; exact (List.getElem?_eq_some_iff.1 hp).1
    constructor
    · rintro ⟨hop, hmodes, habove, hops⟩
      have hpar (n : Nat) (p : Param) (hp : i.operands[n]? = some p) : ps[n]? = some p.raw ∧ digit c (n + 2) = p.modeDigit :=
        (decodeParam_eq_ok (hmodes (n + 1) (by omega) (by have := hlen hp; omega))).1 (hops n p hp)
      exact ⟨⟨hop, habove, fun n p hp => (hpar n p hp).2⟩, fun n p hp => (hpar n p hp).1⟩
    · rintro ⟨⟨hop, habove, hdigits⟩, hraws⟩
      have hmode (n : Nat) (p : Param) (hp : i.operands[n]? = some p) : digit c (n + 2) = 0 ∨ digit c (n + 2) = 1 := by
        rw [hdigits n p hp]; exact p.modeDigit_eq
      refine ⟨hop, fun j h1 h2 => ?_, habove, fun n p hp => ?_⟩
      · obtain ⟨n, rfl⟩ := Nat.exists_eq_add_of_le' h1
        have hn : n < i.operands.length := by rw [Instr.operands_length]; omega
        exact hmode n _ (List.getElem?_eq_getElem hn)
      · exact (decodeParam_eq_ok (hmode n p hp)).2 ⟨hraws n p hp, hdigits n p hp⟩

/-- What decodes under `fault` decodes under `ignore` (R84). -/
theorem decode_of_decode_fault {window : List Int} {i : Instr} (h : decode .fault window = .ok i) (u : UnusedDigits) :
    decode u window = .ok i := by
  cases window with
  | nil => cases h
  | cons c ps =>
    obtain ⟨hop, hmodes, -, hops⟩ := decode_eq_ok.1 h
    cases u with
    | fault => exact h
    | ignore => exact decode_eq_ok.2 ⟨hop, hmodes, rfl, hops⟩

/-- Settles O1: the window begins with the encoding, so it decodes under `fault`, and then under both settings. -/
theorem decodeOfEncodeIsIdentity : Obligations.DecodeOfEncodeIsIdentity := by
  intro u i rest
  exact decode_of_decode_fault (decode_fault_eq_ok_iff.2 (List.prefix_append _ rest)) u

/-- Settles O2: a window that decodes begins with the encoding. -/
theorem decodedWindowIsAnEncoding : Obligations.DecodedWindowIsAnEncoding := by
  intro window i h
  obtain ⟨rest, hrest⟩ := decode_fault_eq_ok_iff.1 h
  exact ⟨rest, hrest.symm⟩

/-- Settles O3: each word begins with the encoding of its instruction. -/
theorem specWordsDecode : Obligations.SpecWordsDecode := by
  refine ⟨?_, ?_, ?_, ?_, ?_, ?_, ?_, ?_, ?_⟩ <;> exact decode_fault_eq_ok_iff.2 (by decide)

end Sys2Proof
end

section
/-! PROOF. What decode reports when a check fails: the opcode value, the first bad digit, or the first missing parameter cell
(spec 30_encoding.md R82 to R85, R90, R92). -/

namespace Sys2Proof

/-! ## Check P2 -/

theorem decode_of_ofCode_none {c : Int} (hop : Op.ofCode (trem c 100) = none) (u : UnusedDigits) (ps : List Int) :
    decode u (c :: ps) = .error (.unknownOpcode (trem c 100)) := by
  rw [decode, hop]

/-- A legal opcode value passes P2: decode goes on with P3 and P4 (R92). -/
theorem decode_of_ofCode {c : Int} {op : Op} (hop : Op.ofCode (trem c 100) = some op) (u : UnusedDigits) (ps : List Int) :
    decode u (c :: ps) =
      (checkModes c 1 op.nparams >>= fun _ => checkUnused u c op.nparams >>= fun _ => decodeOperands c ps op) := by
  rw [decode, hop]

/-- Settles O4: the remainder has the sign of the cell, and every legal opcode value is positive. -/
theorem negativeOpcodeCellsAreUnknown : Obligations.NegativeOpcodeCellsAreUnknown := by
  intro c
  refine ⟨fun hc => ?_, fun hc => ⟨?_, trem_nonpos hc.le 100, fun u ps => decode_of_ofCode_none ?_ u ps⟩⟩
  · rw [trem_of_nonneg hc]
    omega
  · have := Int.lt_tmod_of_pos c (b := 100) (by decide)
    rw [trem_eq_tmod]
    omega
  · refine Option.eq_none_iff_forall_ne_some.2 fun op hop => ?_
    have := nonneg_of_ofCode hop
    omega

/-- Past P2 no check answers UnknownOpcode (R92). -/
theorem decode_ne_unknownOpcode {c : Int} {op : Op} (hop : Op.ofCode (trem c 100) = some op) {u : UnusedDigits}
    {ps : List Int} {v : Int} : decode u (c :: ps) ≠ .error (.unknownOpcode v) := by
  intro h
  rw [decode_of_ofCode hop] at h
  rcases check_bind_eq_error.1 h with h | ⟨_, -, h⟩
  · obtain ⟨_, he⟩ := checkModes_eq_error h; cases he
  · rcases check_bind_eq_error.1 h with h | ⟨_, -, h⟩
    · obtain ⟨_, he⟩ := checkUnused_eq_error h; cases he
    · obtain ⟨_, he, -⟩ := decodeOperands_eq_error h; cases he

/-- Settles O5: P2 answers exactly for the values without an operation. -/
theorem illegalOpcodesAreUnknown : Obligations.IllegalOpcodesAreUnknown := by
  intro u c ps
  rw [← Op.ofCode_eq_none]
  refine ⟨fun h => ?_, fun hop => decode_of_ofCode_none hop u ps⟩
  exact Option.eq_none_iff_forall_ne_some.2 fun op hop => decode_ne_unknownOpcode hop h

/-! ## Check P3 -/

/-- The mode check reports the first digit that is no mode (R83). -/
theorem checkModes_of_bad {c : Int} {i todo m : Nat} (him : i ≤ m) (hm : m < i + todo)
    (hgood : ∀ j, i ≤ j → j < m → digit c (j + 1) = 0 ∨ digit c (j + 1) = 1)
    (hbad : ¬(digit c (m + 1) = 0 ∨ digit c (m + 1) = 1)) :
    checkModes c i todo = .error (.unknownParameterMode (m - 1)) := by
  induction todo generalizing i with
  | zero => omega
  | succ todo ih =>
    unfold checkModes
    rcases him.eq_or_lt with rfl | hlt
    · rw [if_neg hbad]
    · rw [if_pos (hgood i (le_refl i) hlt)]
      exact ih hlt (by omega) fun j h1 h2 => hgood j (by omega) h2

/-- Settles O6: the mode check comes first after P2 and stops at the first bad digit. -/
theorem firstBadModeDigitIsReported : Obligations.FirstBadModeDigitIsReported := by
  intro u c ps op i hop h1 hi hgood hbad
  rw [decode_of_ofCode hop, checkModes_of_bad h1 (by omega) hgood hbad]
  rfl

/-- The search for the least non-zero digit of `n` finds it when it has the fuel to get there. -/
theorem leastNonzeroPlace_eq {fuel n m : Nat} (j : Nat) (hm : m < fuel) (hne : n / 10 ^ m % 10 ≠ 0)
    (hzero : ∀ i, i < m → n / 10 ^ i % 10 = 0) : leastNonzeroPlace fuel n j = j + m := by
  induction m generalizing fuel n j with
  | zero =>
    obtain ⟨fuel, rfl⟩ := Nat.exists_eq_add_of_le' hm
    rw [leastNonzeroPlace, if_pos (by simpa using hne)]
    rfl
  | succ m ih =>
    obtain ⟨fuel, rfl⟩ := Nat.exists_eq_add_of_le' (Nat.one_le_of_lt hm)
    have hshift (i : Nat) : n / 10 / 10 ^ i = n / 10 ^ (i + 1) := by rw [Nat.div_div_eq_div_mul, Nat.pow_succ']
    have hhead : n % 10 = 0 := by simpa using hzero 0 (Nat.succ_pos m)
    rw [leastNonzeroPlace, if_neg (not_not.2 hhead), ih (j + 1) (by omega) (by rwa [hshift])
      fun i hi => by rw [hshift]; exact hzero (i + 1) (by omega)]
    omega

/-- A number below `10 ^ m` has no digit at place `m`, so the places of a number's digits are below it. -/
theorem lt_of_digit_ne_zero {n m : Nat} (h : n / 10 ^ m % 10 ≠ 0) : m < n := by
  have hpow : 10 ^ m ≤ n := by
    by_contra hlt
    rw [Nat.div_eq_of_lt (by omega)] at h
    exact h rfl
  exact (Nat.lt_pow_self (by decide)).trans_le hpow

/-- The digits from place `k + 2` up are those of `digitsAbove` (R84). -/
theorem digit_add_above {c : Int} (hc : 0 ≤ c) (k m : Nat) :
    digit c (k + 2 + m) = ((digitsAbove c k).natAbs / 10 ^ m % 10 : Nat) := by
  obtain ⟨n, rfl⟩ := Int.eq_ofNat_of_zero_le hc
  rw [digit_of_nonneg hc, ediv_pow_add, digitsAbove_of_nonneg hc]
  norm_cast

/-- The unused-digit check reports the least non-zero digit (R84). -/
theorem checkUnused_of_nonzero {c : Int} (hc : 0 ≤ c) {k j : Nat} (hj : k + 2 ≤ j) (hne : digit c j ≠ 0)
    (hzero : ∀ i, k + 2 ≤ i → i < j → digit c i = 0) :
    checkUnused .fault c k = .error (.unknownParameterMode (j - 2)) := by
  obtain ⟨m, rfl⟩ := Nat.exists_eq_add_of_le hj
  have hne' : (digitsAbove c k).natAbs / 10 ^ m % 10 ≠ 0 := by
    rw [digit_add_above hc] at hne
    exact_mod_cast hne
  have hzero' (i : Nat) (hi : i < m) : (digitsAbove c k).natAbs / 10 ^ i % 10 = 0 := by
    have := hzero (k + 2 + i) (by omega) (by omega)
    rw [digit_add_above hc] at this
    exact_mod_cast this
  have hlt := lt_of_digit_ne_zero hne'
  simp only [checkUnused]
  rw [if_neg (by omega), leastNonzeroPlace_eq (k + 2) hlt hne' hzero']

/-! ## The opcode cell without its unused digits (R84) -/

/-- What is added from place `j + 1` up leaves the digit at place `j`. -/
theorem digit_add_mul {c t : Int} {j : Nat} (hc : 0 ≤ c) (hct : 0 ≤ c + 10 ^ (j + 1) * t) :
    digit (c + 10 ^ (j + 1) * t) j = digit c j := by
  rw [digit_of_nonneg hct, digit_of_nonneg hc, pow_succ, mul_assoc, Int.add_mul_ediv_left _ _ (by positivity)]
  omega

/-- The cell with the digits from place `n` on taken off has the same digits below. -/
theorem digit_emod {c : Int} (hc : 0 ≤ c) {n j : Nat} (hj : j < n) : digit (c % 10 ^ n) j = digit c j := by
  obtain ⟨d, rfl⟩ := Nat.exists_eq_add_of_lt hj
  have hsplit : c % 10 ^ (j + d + 1) + 10 ^ (j + 1) * (10 ^ d * (c / 10 ^ (j + d + 1))) = c := by
    rw [← mul_assoc, ← pow_add, show j + 1 + d = j + d + 1 by omega]
    exact Int.emod_add_mul_ediv c _
  have h := digit_add_mul (t := 10 ^ d * (c / 10 ^ (j + d + 1)))
    (Int.emod_nonneg c (by positivity : (10 : Int) ^ (j + d + 1) ≠ 0)) (hsplit.symm ▸ hc)
  rw [← h, hsplit]

theorem checkModes_congr {c c' : Int} {i todo : Nat}
    (h : ∀ j, i ≤ j → j < i + todo → digit c (j + 1) = digit c' (j + 1)) : checkModes c i todo = checkModes c' i todo := by
  induction todo generalizing i with
  | zero => rfl
  | succ todo ih =>
    rw [checkModes, checkModes, h i (le_refl i) (by omega), ih fun j h1 h2 => h j (by omega) (by omega)]

theorem decodeOperands_congr {c c' : Int} {op : Op} (ps : List Int)
    (h : ∀ j, 1 ≤ j → j ≤ op.nparams → digit c (j + 1) = digit c' (j + 1)) :
    decodeOperands c ps op = decodeOperands c' ps op := by
  have hpar (j : Nat) (h1 : 1 ≤ j) (h2 : j ≤ op.nparams) : decodeParam c ps j = decodeParam c' ps j := by
    rw [decodeParam, decodeParam, h j h1 h2]
  cases op <;> simp only [Op.nparams] at hpar <;> simp [decodeOperands, hpar]

/-- When the unused digits pass, decode is the mode check and P4. -/
theorem decode_of_unused_ok {c : Int} {op : Op} {u : UnusedDigits} (hop : Op.ofCode (trem c 100) = some op)
    (hunused : checkUnused u c op.nparams = .ok ()) (ps : List Int) :
    decode u (c :: ps) = (checkModes c 1 op.nparams >>= fun _ => decodeOperands c ps op) := by
  rw [decode_of_ofCode hop, hunused]
  rfl

/-- Under `ignore` the digits above the last parameter's can be taken off (R84). -/
theorem decode_ignore {c : Int} {op : Op} (hop : Op.ofCode (trem c 100) = some op) (ps : List Int) :
    decode .ignore (c :: ps) = decode .fault (c % 10 ^ (op.nparams + 2) :: ps) := by
  have hc := nonneg_of_ofCode hop
  have hpow : (0 : Int) < 10 ^ (op.nparams + 2) := by positivity
  have hc' := Int.emod_nonneg c hpow.ne'
  have hop' : Op.ofCode (trem (c % 10 ^ (op.nparams + 2)) 100) = some op := by
    have hdvd : (100 : Int) ∣ 10 ^ (op.nparams + 2) := Dvd.intro_left (10 ^ op.nparams) (by ring)
    rw [trem_of_nonneg hc', Int.emod_emod_of_dvd c hdvd, ← trem_of_nonneg hc, hop]
  have habove : checkUnused .fault (c % 10 ^ (op.nparams + 2)) op.nparams = .ok () := by
    rw [checkUnused_fault_eq_ok, digitsAbove_of_nonneg hc', Int.ediv_eq_zero_of_lt hc' (Int.emod_lt_of_pos c hpow)]
  have hdigit (j : Nat) (hj : j ≤ op.nparams) : digit c (j + 1) = digit (c % 10 ^ (op.nparams + 2)) (j + 1) :=
    (digit_emod hc (by omega)).symm
  rw [decode_of_unused_ok hop rfl, decode_of_unused_ok hop' habove, checkModes_congr fun j _ h2 => hdigit j (by omega),
    decodeOperands_congr ps fun j _ h2 => hdigit j h2]

/-- Settles O7: the modes pass, so the unused-digit check answers; and `ignore` looks at no digit above the last parameter's. -/
theorem unusedDigitsFaultOrAreIgnored : Obligations.UnusedDigitsFaultOrAreIgnored := by
  intro c ps op hop
  have hc := nonneg_of_ofCode hop
  refine ⟨fun j hj hne hzero hmodes => ?_, ?_⟩
  · rw [decode_of_ofCode hop, checkModes_eq_ok.2 fun i h1 h2 => hmodes i h1 (by omega),
      checkUnused_of_nonzero hc hj hne hzero]
    rfl
  · rw [trem_of_nonneg hc, decode_ignore hop]
    norm_cast

/-! ## Check P4 -/

theorem Op.nparams_le (op : Op) : op.nparams ≤ 3 := by cases op <;> decide

/-- With too few cells, P4 stops at the first that is missing (R85). -/
theorem decodeOperands_of_missing {c : Int} {ps : List Int} {op : Op} (h : ps.length < op.nparams) :
    decodeOperands c ps op = .error (.missingParameter (ps.length + 1)) := by
  match ps with
  | [] | [_] | [_, _] => cases op <;> simp [Op.nparams, decodeOperands, decodeParam, bind, Except.bind] at h ⊢
  | _ :: _ :: _ :: _ =>
    have := op.nparams_le
    simp only [List.length_cons] at h
    omega

end Sys2Proof

namespace Sys2Proof.Machine

theorem Memory.cellsFrom_succ (m : Memory) (a n : Nat) : m.cellsFrom a (n + 1) = m.get a :: m.cellsFrom (a + 1) n := by
  simp [Memory.cellsFrom, List.range_succ_eq_map, Nat.add_assoc, Nat.add_comm 1]

/-- A fetch whose window does not decode raises what the decode error stands for (R83 to R85, R90). -/
theorem Vm.fetchInstr_of_decode_error {u : UnusedDigits} {c : Vm} {window : List Int} {x : DecodeError}
    (hwin : c.mem.slice c.pc 4 = some window) (hdec : decode u window = .error x) :
    c.fetchInstr u = .error (.raise (decodeRaise c.pc x)) := by
  simp [Vm.fetchInstr, hwin, hdec]

/-- Settles O8: the window ends with the cell before the missing one, so P4 stops there. -/
theorem missingParameterCellRaises : Obligations.MissingParameterCellRaises := by
  intro c op u i hpc hop hmodes hunused h1 hi hlen
  obtain ⟨n, rfl⟩ := Nat.exists_eq_add_of_le' h1
  have hthree := op.nparams_le
  have hcount : min 4 (c.mem.len - c.pc.toNat) = n + 1 := by have := hpc.1; omega
  have hwin : c.mem.slice c.pc 4 = some (c.mem.get c.pc.toNat :: c.mem.cellsFrom (c.pc.toNat + 1) n) :=
    Memory.slice_eq_some.2 ⟨hpc, by rw [hcount, Memory.cellsFrom_succ]⟩
  refine Vm.fetchInstr_of_decode_error hwin (x := .missingParameter (n + 1)) ?_
  rw [decode_of_unused_ok hop hunused, hmodes]
  have hmissing := decodeOperands_of_missing (c := c.mem.get c.pc.toNat) (ps := c.mem.cellsFrom (c.pc.toNat + 1) n)
    (op := op) (by rw [Memory.cellsFrom_length]; omega)
  rw [Memory.cellsFrom_length] at hmissing
  exact hmissing

end Sys2Proof.Machine
end

section
/-! PROOF. How a step begins: the checks P1 to P8 raise in their order, and a window that decodes is executed
(spec 30_encoding.md R87, R88, R92, 60_exceptions.md R161 to R163, R185, R188). -/

namespace Sys2Proof.Machine

/-- An instruction whose effect raises takes that fault (R162). -/
theorem raisedIn_of_raise {s : State} {c : Vm} {x : Except Stop State} {r : Raise} (hc : s.Active c)
    (hx : x = .error (.raise r)) : ∃ t, s.conclude x = .next t ∧ RaisedIn s c r.code r.param r.addr t := by
  rw [hx]
  exact ⟨_, conclude_raise r hc, takeFault_raisedIn s c r⟩

/-! ## The first failing check of an instruction (R92) -/

section
variable {s : State} {c : Vm} {p1 p2 p3 : Param} {a b : Int} {e : Stop}

theorem storeBinary_of_source1_error {f : Int → Int → Except Stop Int} (hc : s.Active c) (h : fetch c 0 p1 = .error e) :
    storeBinary f p1 p2 p3 s = .error e := by
  rw [storeBinary, vm_eq_ok.2 hc, ok_bind, h, error_bind]

theorem storeBinary_of_source2_error {f : Int → Int → Except Stop Int} (hc : s.Active c) (h1 : ReadsAs c p1 a)
    (h : fetch c 1 p2 = .error e) : storeBinary f p1 p2 p3 s = .error e := by
  rw [storeBinary, vm_eq_ok.2 hc, ok_bind, fetch_eq_ok.2 h1, ok_bind, h, error_bind]

theorem storeBinary_of_target_error {f : Int → Int → Except Stop Int} {r : Int} (hc : s.Active c) (h1 : ReadsAs c p1 a)
    (h2 : ReadsAs c p2 b) (hf : f a b = .ok r) (h : storeTarget c 2 p3 = .error e) :
    storeBinary f p1 p2 p3 s = .error e := by
  rw [storeBinary, vm_eq_ok.2 hc, ok_bind, fetch_eq_ok.2 h1, ok_bind, fetch_eq_ok.2 h2, ok_bind, hf, ok_bind, h,
    error_bind]

theorem jumpIf_of_source1_error {taken : Int → Bool} (hc : s.Active c) (h : fetch c 0 p1 = .error e) :
    jumpIf taken p1 p2 s = .error e := by
  rw [jumpIf, vm_eq_ok.2 hc, ok_bind, h, error_bind]

theorem jumpIf_of_source2_error {taken : Int → Bool} (hc : s.Active c) (h1 : ReadsAs c p1 a)
    (h : fetch c 1 p2 = .error e) : jumpIf taken p1 p2 s = .error e := by
  rw [jumpIf, vm_eq_ok.2 hc, ok_bind, fetch_eq_ok.2 h1, ok_bind, h, error_bind]

theorem outEffect_of_source_error (hc : s.Active c) (h : fetch c 0 p1 = .error e) : outEffect p1 s = .error e := by
  rw [outEffect, vm_eq_ok.2 hc, ok_bind, h, error_bind]

theorem inEffect_of_target_error (hc : s.Active c) (h : storeTarget c 0 p1 = .error e) : inEffect p1 s = .error e := by
  rw [inEffect, vm_eq_ok.2 hc, ok_bind, h, error_bind]

end

/-- Settles O24: the first source is read first, the second next, and both before anything else. -/
theorem sourceOutOfBoundsRaises : Obligations.SourceOutOfBoundsRaises := by
  intro s c p p2 p3 a v hc ha
  have hfetch (n : Nat) : fetch c n (.position a) = .error (outOfBounds (some n) a) := fetch_eq_error.2 ⟨a, rfl, ha, rfl⟩
  simp only [List.forall_mem_cons, List.not_mem_nil, false_imp_iff, implies_true, and_true]
  refine ⟨⟨?_, ?_, ?_, ?_, ?_, ?_, ?_⟩, fun hp => ⟨?_, ?_, ?_, ?_, ?_, ?_⟩⟩
  iterate 4 exact raisedIn_of_raise hc (storeBinary_of_source1_error hc (hfetch 0))
  iterate 2 exact raisedIn_of_raise hc (jumpIf_of_source1_error hc (hfetch 0))
  · exact raisedIn_of_raise hc (outEffect_of_source_error hc (hfetch 0))
  iterate 4 exact raisedIn_of_raise hc (storeBinary_of_source2_error hc hp (hfetch 1))
  iterate 2 exact raisedIn_of_raise hc (jumpIf_of_source2_error hc hp (hfetch 1))

/-- Check P6 passes for a result that fits, and for every result under `wrap` (R112). -/
theorem exists_narrow_eq_ok {p : Params} {x : Int} (h : Fits p.w x ∨ p.overflow = .wrap) : ∃ r, narrow p x = .ok r := by
  unfold narrow
  split
  · exact ⟨_, rfl⟩
  · rename_i hfit
    rw [h.resolve_left hfit]
    exact ⟨_, rfl⟩

/-- An instruction of the store shape whose sources are read and whose result is computed raises what its destination
raises (R88, R92). -/
theorem raisedIn_of_target_error {s : State} {c : Vm} {p1 p2 p3 : Param} {a b : Int} {r : Raise} (hc : s.Active c)
    (h1 : ReadsAs c p1 a) (h2 : ReadsAs c p2 b) (h : storeTarget c 2 p3 = .error (.raise r)) (i : Instr)
    (hi : i ∈ [Instr.lt p1 p2 p3, .eq p1 p2 p3] ∨
      (i = .add p1 p2 p3 ∧ (Fits s.params.w (a + b) ∨ s.params.overflow = .wrap)) ∨
      (i = .mul p1 p2 p3 ∧ (Fits s.params.w (a * b) ∨ s.params.overflow = .wrap))) :
    ∃ t, exec i s = .next t ∧ RaisedIn s c r.code r.param r.addr t := by
  simp only [List.mem_cons, List.not_mem_nil, or_false] at hi
  rcases hi with (rfl | rfl) | ⟨rfl, hfit⟩ | ⟨rfl, hfit⟩
  · exact raisedIn_of_raise hc (storeBinary_of_target_error hc h1 h2 rfl h)
  · exact raisedIn_of_raise hc (storeBinary_of_target_error hc h1 h2 rfl h)
  · obtain ⟨_, hr⟩ := exists_narrow_eq_ok hfit
    exact raisedIn_of_raise hc (storeBinary_of_target_error hc h1 h2 hr h)
  · obtain ⟨_, hr⟩ := exists_narrow_eq_ok hfit
    exact raisedIn_of_raise hc (storeBinary_of_target_error hc h1 h2 hr h)

/-- Settles O25: by what the destination raises, as a literal and at an address that does not exist. -/
theorem badDestinationRaises : Obligations.BadDestinationRaises := by
  intro s c p1 p2 x a b hc h1 h2
  have himm (n : Nat) : storeTarget c n (.immediate x) = .error (.raise ⟨.invalidStoreTarget, some n, none⟩) :=
    storeTarget_eq_error.2 (.inl ⟨x, rfl, rfl⟩)
  refine ⟨raisedIn_of_target_error hc h1 h2 (himm 2), raisedIn_of_raise hc (inEffect_of_target_error hc (himm 0)),
    fun hx => ?_⟩
  have hpos (n : Nat) : storeTarget c n (.position x) = .error (outOfBounds (some n) x) :=
    storeTarget_eq_error.2 (.inr ⟨x, rfl, hx, rfl⟩)
  exact ⟨raisedIn_of_target_error hc h1 h2 (hpos 2), raisedIn_of_raise hc (inEffect_of_target_error hc (hpos 0))⟩

/-! ## Fetch and decode in the step -/

/-- Checks P2 to P4: a step whose window does not decode raises what the decode error stands for (R92, R163). -/
theorem runActive_of_decode_error {s : State} {c : Vm} {window : List Int} {x : DecodeError} (hc : s.Active c)
    (hwin : c.mem.slice c.pc 4 = some window) (hdec : decode s.params.unused window = .error x) :
    s.runActive = .next (s.takeFault c (decodeRaise c.pc x)) := by
  have hfetch : s.fetchInstr = .error (.raise (decodeRaise c.pc x)) :=
    fetchInstr_eq_error.2 (.inr ⟨c, hc, .inr ⟨window, x, hwin, hdec, rfl⟩⟩)
  rw [State.runActive, hfetch]
  exact conclude_raise _ hc

/-- A step whose window decodes is the instruction's (R92). -/
theorem runActive_of_decode_ok {s : State} {c : Vm} {window : List Int} {i : Instr} (hc : s.Active c)
    (hwin : c.mem.slice c.pc 4 = some window) (hdec : decode s.params.unused window = .ok i) : s.runActive = exec i s := by
  rw [State.runActive, fetchInstr_eq_ok.2 ⟨c, window, hc, hwin, hdec⟩]

theorem stepWith_of_plan_core {choice k : Nat} {s : State} (h : s.plan choice = .core k) :
    stepWith choice s = (s.chose.select k).runActive := by
  rw [stepWith, h]

/-- Settles O30: the step is that of the selected core, whose fetch or decode raises. -/
theorem decodeFaultsRaise : Obligations.DecodeFaultsRaise := by
  intro choice s k c hplan hk
  have hact := selected_active hk
  rw [stepWith_of_plan_core hplan]
  refine ⟨fun hpc => ⟨_, runActive_of_pc_outOfBounds hact hpc, takeFault_raisedIn _ _ _⟩, fun window hwin => ?_⟩
  have hraise (x : DecodeError) (hx : decode s.params.unused window = .error x) :
      ∃ t, (s.chose.select k).runActive = .next t ∧ RaisedIn (s.chose.select k) { c with started := true }
        (decodeRaise c.pc x).code (decodeRaise c.pc x).param (decodeRaise c.pc x).addr t :=
    ⟨_, runActive_of_decode_error hact hwin (by simpa using hx), takeFault_raisedIn _ _ _⟩
  exact ⟨fun op => hraise (.unknownOpcode op), fun n => hraise (.unknownParameterMode n),
    fun i => hraise (.missingParameter i)⟩

/-- A concurrent run counts its choice (R185, log entry 3). -/
theorem State.chose_eq (s : State) : s.chose = { s with
    choices := if s.setting = .pipeline ∧ s.ctl.config.mode = .concurrent then s.choices + 1 else s.choices } := by
  unfold State.chose
  split
  · rename_i hset hmode
    rw [if_pos ⟨hset, hmode⟩]
  · rename_i hno
    rw [if_neg fun h => hno h.1 h.2]

/-- Settles O37: the selected core's window decodes, and its state is the one written out. -/
theorem stepRunsTheDecodedInstruction : Obligations.StepRunsTheDecodedInstruction := by
  intro choice s k c window i hplan hk hwin hdec
  have hk' : s.chose.core? k = some c := by rw [State.core?, State.chose_cores, ← State.core?, hk]
  rw [stepWith_of_plan_core hplan, runActive_of_decode_ok (selected_active hk) hwin (by simpa using hdec),
    State.select_eq hk', State.chose_eq]

end Sys2Proof.Machine
end

section
/-! PROOF. add and mul complete, raise Overflow or wrap, and the frame of the instructions that store a result
(spec 40_arithmetic.md R110 to R112, 43_compare.md R140 to R142, 60_exceptions.md R162, R163). -/

namespace Sys2Proof.Machine

/-! ## Check P6 (R112) -/

theorem narrow_of_fits {p : Params} {x : Int} (h : Fits p.w x) : narrow p x = .ok x := if_pos h

theorem narrow_of_not_fits_fault {p : Params} {x : Int} (h : ¬Fits p.w x) (ho : p.overflow = .fault) :
    narrow p x = .error (.raise ⟨.overflow, none, none⟩) := by
  rw [narrow, if_neg h, ho]

theorem narrow_of_not_fits_wrap {p : Params} {x : Int} (h : ¬Fits p.w x) (ho : p.overflow = .wrap) :
    narrow p x = .ok (wrap p.w x) := by
  rw [narrow, if_neg h, ho]

/-! ## add and mul -/

section
variable {s : State} {c : Vm} {p1 p2 p3 : Param} {a b : Int} {f : Int → Int → Except Stop Int}

/-- An instruction of the store shape completes when its sources are read, its result is computed and its destination
exists (R92). -/
theorem conclude_storeBinary_of_ok {r : Int} {d : Nat} (hc : s.Active c) (h1 : ReadsAs c p1 a) (h2 : ReadsAs c p2 b)
    (hf : f a b = .ok r) (hd : StoresAt c p3 d) :
    s.conclude (storeBinary f p1 p2 p3 s) = .next (s.setVm (c.store d r 4)) := by
  rw [storeBinary_eq_ok.2 ⟨c, a, b, r, d, hc, h1, h2, hf, hd, rfl⟩, State.conclude]

/-- The result is computed before the destination is looked at (R92). -/
theorem storeBinary_of_result_error {e : Stop} (hc : s.Active c) (h1 : ReadsAs c p1 a) (h2 : ReadsAs c p2 b)
    (hf : f a b = .error e) : storeBinary f p1 p2 p3 s = .error e := by
  rw [storeBinary, vm_eq_ok.2 hc, ok_bind, fetch_eq_ok.2 h1, ok_bind, fetch_eq_ok.2 h2, ok_bind, hf, error_bind]

end

/-- Settles O12: the sum passes check P6 unchanged. -/
theorem addStoresSum : Obligations.AddStoresSum := by
  intro s c p1 p2 p3 a b d hc h1 h2 hfit hd
  exact conclude_storeBinary_of_ok hc h1 h2 (narrow_of_fits hfit) hd

/-- Settles O13: the product passes check P6 unchanged. -/
theorem mulStoresProduct : Obligations.MulStoresProduct := by
  intro s c p1 p2 p3 a b d hc h1 h2 hfit hd
  exact conclude_storeBinary_of_ok hc h1 h2 (narrow_of_fits hfit) hd

/-- Settles O14: by what check P6 answers for a result that does not fit. -/
theorem addMulOutsideTheRange : Obligations.AddMulOutsideTheRange := by
  intro s c p1 p2 p3 a b hc h1 h2
  refine ⟨fun ho => ⟨fun hfit => ?_, fun hfit => ?_⟩, fun ho d hd => ⟨fun hfit => ?_, fun hfit => ?_⟩⟩
  · exact raisedIn_of_raise hc (storeBinary_of_result_error (f := fun a b => narrow s.params (a + b)) hc h1 h2
      (narrow_of_not_fits_fault hfit ho))
  · exact raisedIn_of_raise hc (storeBinary_of_result_error (f := fun a b => narrow s.params (a * b)) hc h1 h2
      (narrow_of_not_fits_fault hfit ho))
  · exact conclude_storeBinary_of_ok hc h1 h2 (narrow_of_not_fits_wrap hfit ho) hd
  · exact conclude_storeBinary_of_ok hc h1 h2 (narrow_of_not_fits_wrap hfit ho) hd

/-! ## The frame of a step of the active core -/

/-- A step that writes back the active core, and may write channels and controller, leaves the rest of the machine
alone (R38). -/
theorem sameMachine_set (s : State) (d : Vm) (l : List Channel) (p : Controller) :
    SameMachine s { s with cores := s.cores.set s.active d, chans := l, ctl := p } :=
  ⟨rfl, rfl, rfl, rfl, List.length_set, fun _ hj => List.getElem?_set_ne hj.symm⟩

/-- The core that was written back is the active one. -/
theorem State.Active.set {s : State} {c : Vm} (hc : s.Active c) (d : Vm) (l : List Channel) (p : Controller) :
    State.Active { s with cores := s.cores.set s.active d, chans := l, ctl := p } d := by
  obtain ⟨hlt, -⟩ := List.getElem?_eq_some_iff.1 hc
  exact List.getElem?_set_self hlt

/-- A commit that stores leaves every cell alone but the one at the destination address (R54). -/
theorem Vm.read_store_of_ne {c : Vm} {d : Nat} {v n a : Int} (ha : a ≠ d) : (c.store d v n).mem.read a = c.mem.read a := by
  rw [Vm.store_mem, Memory.read_set, if_neg ha, Memory.read]

/-! ## The frame of add, mul, lt and eq -/

/-- The commit of an instruction of the store shape: one cell and the pc (R110, R111, R140, R141). -/
theorem Commits.exists_store {s t : State} {c : Vm} {p1 p2 p3 : Param} {i : Instr} (h : Commits s c i t)
    (hi : i ∈ [Instr.add p1 p2 p3, .mul p1 p2 p3, .lt p1 p2 p3, .eq p1 p2 p3]) :
    ∃ x v, StoresAt c p3 x ∧ t = s.setVm (c.store x v 4) := by
  simp only [List.mem_cons, List.not_mem_nil, or_false] at hi
  rcases hi with rfl | rfl | rfl | rfl
  · cases h with | add _ _ _ hd => exact ⟨_, _, hd, rfl⟩
  · cases h with | mul _ _ _ hd => exact ⟨_, _, hd, rfl⟩
  · cases h with | lt _ _ hd => exact ⟨_, _, hd, rfl⟩
  · cases h with | eq _ _ hd => exact ⟨_, _, hd, rfl⟩

/-- An instruction of the store shape that answers a next state has committed or raised: it never blocks. -/
theorem exec_storing_next {s t : State} {c : Vm} {p1 p2 p3 : Param} {i : Instr}
    (hi : i ∈ [Instr.add p1 p2 p3, .mul p1 p2 p3, .lt p1 p2 p3, .eq p1 p2 p3]) (hc : s.Active c)
    (h : exec i s = .next t) :
    (∃ x v, StoresAt c p3 x ∧ t = s.setVm (c.store x v 4)) ∨ ∃ r, t = s.takeFault c r := by
  rcases exec_next hc h with hcommit | ⟨-, ⟨p, rfl⟩ | ⟨p, rfl⟩⟩ | ⟨r, ht, -⟩
  · exact .inl (hcommit.exists_store hi)
  · simp at hi
  · simp at hi
  · exact .inr ⟨r, ht⟩

/-- Settles O32: by what a commit that stores, and a raise, write back. -/
theorem storingInstructionsFrame : Obligations.StoringInstructionsFrame := by
  intro s t c p1 p2 p3 i hi hc h
  rcases exec_storing_next hi hc h with ⟨x, v, hx, rfl⟩ | ⟨r, ht⟩
  · exact ⟨sameMachine_set .., rfl, c.store x v 4, hc.set .., ⟨rfl, rfl, rfl⟩, rfl, rfl, rfl,
      fun a ha => Vm.read_store_of_ne (ha x hx), .inl ⟨rfl, rfl, rfl, rfl⟩⟩
  · have hraised : RaisedIn s c r.code r.param r.addr t := ht ▸ takeFault_raisedIn s c r
    rw [hraised]
    exact ⟨sameMachine_set .., rfl, c.faultedBy r.code r.param r.addr, hc.set .., ⟨rfl, rfl, rfl⟩, rfl, rfl, rfl,
      fun _ _ => rfl, .inr rfl⟩

end Sys2Proof.Machine
end

section
/-! PROOF. in and out complete, raise or block, and their frames, all by what the two ports answer (spec 41_io.md R120 to
R126, 60_exceptions.md R162, R171 to R179, R182, R183). -/

namespace Sys2Proof.Machine

/-! ## Live ends, space and wiring -/

/-- A core is live when it is there and Running, blocked or not (R176). -/
theorem isRunning_eq_true {s : State} {k : Nat} : s.isRunning k = true ↔ ∃ e, s.core? k = some e ∧ e.status = .running := by
  unfold State.isRunning
  split
  · rename_i e he
    simp [he]
  · rename_i he
    simp [he]

/-- A channel's producer is live when it has one, which is there and Running (R176). -/
theorem producerLive_eq_true {s : State} {ch : Channel} :
    s.producerLive ch = true ↔ ∃ k e, ch.producer = some k ∧ s.core? k = some e ∧ e.status = .running := by
  unfold State.producerLive
  split
  · rename_i k hk
    simp [hk, isRunning_eq_true]
  · rename_i hk
    simp [hk]

section
variable {s : State} {ch : Channel} {k : Nat} (hk : ch.consumer = .core k)
include hk

/-- The consumer of a channel that a core reads is live when that core is there and Running (R176). -/
theorem consumerLive_eq_true_of_core : s.consumerLive ch = true ↔ ∃ e, s.core? k = some e ∧ e.status = .running := by
  rw [State.consumerLive, hk]
  exact isRunning_eq_true

theorem space_eq_true_of_core : s.space ch = true ↔ ch.buf.length < s.params.cap := by
  rw [State.space, hk]
  exact decide_eq_true_iff

theorem space_eq_false_of_core : s.space ch = false ↔ s.params.cap ≤ ch.buf.length := by
  rw [← Bool.not_eq_true, space_eq_true_of_core hk, Nat.not_lt]

end

/-- The output port leads to a channel for every core but the last, and for the last core of a ring (R182, R183). -/
theorem outPort_eq_channel {p : Controller} {k j : Nat} :
    p.outPort k = .channel j ↔
      (k + 1 < p.config.n ∧ j = k + 1) ∨ (¬k + 1 < p.config.n ∧ p.config.topology = .feedback ∧ j = 0) := by
  unfold Controller.outPort
  split
  · rename_i hlt
    simp [hlt, eq_comm]
  · rename_i hlt
    split
    · rename_i htop
      simp [hlt, htop, eq_comm]
    · rename_i htop
      simp [hlt, htop]

/-- The log is full at a finite `OUT_LOG_CAP` only (R126). -/
theorem logFull_eq_true {c : Vm} {p : Params} : c.logFull p = true ↔ p.outLogCap = some c.outLog.length := by
  unfold Vm.logFull
  split
  · rename_i hcap
    simp [hcap]
  · rename_i n hcap
    rw [hcap, beq_iff_eq, Option.some_inj, eq_comm]

/-! ## What the input port answers (R122) -/

section
variable {s : State} {c : Vm} {ch : Channel} {v : Int} {rest : List Int}

theorem inTake_of_queue_cons (hio : c.io = .queue) (hq : c.inQ = v :: rest) :
    inTake s c = .ok ⟨v, { c with inQ := rest }, s.chans⟩ := by
  simp [inTake, hio, hq]

theorem inTake_of_queue_nil (hio : c.io = .queue) (hq : c.inQ = []) :
    inTake s c = .error (.raise ⟨.inputExhausted, some 0, none⟩) := by
  simp [inTake, hio, hq]

theorem inTake_of_channel_cons (hio : c.io = .channel) (hch : s.chans[s.active]? = some ch) (hbuf : ch.buf = v :: rest) :
    inTake s c = .ok ⟨v, c, s.chans.set s.active { ch with buf := rest }⟩ := by
  simp [inTake, hio, hch, Channel.head?, Channel.pop, hbuf]

/-- An empty channel blocks its reader while its producer is live, and is exhausted after that (R174). -/
theorem inTake_of_channel_nil (hio : c.io = .channel) (hch : s.chans[s.active]? = some ch) (hbuf : ch.buf = []) :
    inTake s c = .error (if s.producerLive ch then .block else .raise ⟨.inputExhausted, some 0, none⟩) := by
  cases hlive : s.producerLive ch <;> simp [inTake, hio, hch, Channel.head?, hbuf, State.eos, hlive]

/-- An input transaction touches the core's queue, or its own channel (R122). -/
theorem inTake_frame {k : Taken} (h : inTake s c = .ok k) :
    ∃ q, k.vm = { c with inQ := q } ∧ (c.io = .channel → q = c.inQ) ∧ (c.io = .queue → k.chans = s.chans) ∧
      ∀ j, j ≠ s.active → k.chans[j]? = s.chans[j]? := by
  rcases inTake_eq_ok h with ⟨hio, rest, -, hvm, hl⟩ | ⟨hio, ch, rest, -, -, hvm, hl⟩
  · exact ⟨rest, hvm, fun hio' => (nomatch hio.symm.trans hio'), fun _ => hl, fun j _ => by rw [hl]⟩
  · exact ⟨c.inQ, hvm, fun _ => rfl, fun hio' => (nomatch hio.symm.trans hio'),
      fun j hj => by rw [hl, List.getElem?_set_ne hj.symm]⟩

end

/-! ## What the output port answers (R126) -/

section
variable {s : State} {c : Vm} {ch : Channel} {v : Int} {j k : Nat}

theorem outPut_of_queue (hio : c.io = .queue) (hcap : s.params.outLogCap ≠ some c.outLog.length) :
    outPut s c v = .ok ⟨{ c with outLog := c.outLog ++ [v] }, s.chans, s.tapped v⟩ := by
  simp [outPut, hio, logFull_eq_true, hcap]

theorem outPut_of_queue_full (hio : c.io = .queue) (hcap : s.params.outLogCap = some c.outLog.length) :
    outPut s c v = .error (.raise ⟨.outputLogFull, some 0, none⟩) := by
  simp [outPut, hio, logFull_eq_true, hcap]

theorem outPut_of_channel_space (hio : c.io = .channel) (hport : s.ctl.outPort s.active = .channel j)
    (hch : s.chans[j]? = some ch) (hspace : s.space ch = true) :
    outPut s c v = .ok ⟨c, s.chans.set j (ch.push v), s.tapped v⟩ := by
  simp [outPut, hio, hport, hch, hspace]

/-- A full channel blocks its writer while its consumer is live, and is dead after that (R175). -/
theorem outPut_of_channel_full (hio : c.io = .channel) (hport : s.ctl.outPort s.active = .channel j)
    (hch : s.chans[j]? = some ch) (hspace : s.space ch = false) :
    outPut s c v = .error (if s.consumerLive ch then .block else .raise ⟨.excessOutput, some 0, none⟩) := by
  cases hlive : s.consumerLive ch <;> simp [outPut, hio, hport, hch, hspace, State.dead, hlive]

/-- An output transaction touches the core's log, or the channel or the sink that its port leads to, and taps the result
(R126, R178, R179). -/
theorem outPut_frame {e : Emitted} (h : outPut s c v = .ok e) :
    ∃ log sink, e.vm = { c with outLog := log } ∧ e.ctl = { s.tapped v with sink := sink } ∧
      (c.io = .channel → log = c.outLog) ∧ (c.io = .queue → e.chans = s.chans ∧ sink = s.ctl.sink) ∧
      (∀ j, s.ctl.outPort s.active ≠ .channel j → e.chans[j]? = s.chans[j]?) ∧
      (s.ctl.outPort s.active ≠ .sink → sink = s.ctl.sink) := by
  have htap : s.tapped v = { s.tapped v with sink := s.ctl.sink } := by rw [tapped_eq]
  rcases outPut_eq_ok h with ⟨hio, -, rfl⟩ | ⟨hio, hport, rfl⟩ | ⟨hio, i, ch, hport, -, -, rfl⟩
  · exact ⟨_, _, rfl, htap, fun hio' => (nomatch hio.symm.trans hio'), fun _ => ⟨rfl, rfl⟩, fun _ _ => rfl, fun _ => rfl⟩
  · exact ⟨_, _, rfl, rfl, fun _ => rfl, fun hio' => (nomatch hio.symm.trans hio'), fun _ _ => rfl,
      fun hno => absurd hport hno⟩
  · exact ⟨_, _, rfl, htap, fun _ => rfl, fun hio' => (nomatch hio.symm.trans hio'),
      fun j hj => List.getElem?_set_ne (by rintro rfl; exact hj hport), fun _ => rfl⟩

end

/-- Of the controller an emission changes the sink, and the result when the core is the last of a pipeline (R178, R179). -/
theorem tapped_with_sink (s : State) (v : Int) (sink : List Int) :
    { s.tapped v with sink := sink } = { s.ctl with
      sink := sink
      result := if s.setting = .pipeline ∧ s.active + 1 = s.ctl.config.n then (s.tapped v).result else s.ctl.result } := by
  rw [tapped_eq]
  split <;> rfl

/-! ## in and out by what their port answers -/

section
variable {s : State} {c : Vm} {p1 : Param} (hc : s.Active c)
include hc

theorem exec_inp_of_ok {d : Nat} {k : Taken} (hd : StoresAt c p1 d) (hk : inTake s c = .ok k) :
    exec (.inp p1) s = .next ({ s with chans := k.chans }.setVm (k.vm.store d k.value 2)) := by
  rw [exec, execIn, inEffect_eq_ok.2 ⟨c, d, k, hc, hd, hk, rfl⟩, State.conclude]

theorem inEffect_of_take_error {d : Nat} {e : Stop} (hd : StoresAt c p1 d) (he : inTake s c = .error e) :
    inEffect p1 s = .error e := by
  rw [inEffect, vm_eq_ok.2 hc, ok_bind, storeTarget_eq_ok.2 hd, ok_bind, he, error_bind]

theorem exec_out_of_ok {v : Int} {e : Emitted} (hv : ReadsAs c p1 v) (he : outPut s c v = .ok e) :
    exec (.out p1) s = .next ({ s with chans := e.chans, ctl := e.ctl }.setVm (e.vm.goto (e.vm.pc + 2))) := by
  rw [exec, execOut, outEffect_eq_ok.2 ⟨c, v, e, hc, hv, he, rfl⟩, State.conclude]

theorem outEffect_of_put_error {v : Int} {e : Stop} (hv : ReadsAs c p1 v) (he : outPut s c v = .error e) :
    outEffect p1 s = .error e := by
  rw [outEffect, vm_eq_ok.2 hc, ok_bind, fetch_eq_ok.2 hv, ok_bind, he, error_bind]

end

/-- A block changes nothing (R123). -/
theorem conclude_of_block {s : State} {x : Except Stop State} (h : x = .error .block) : s.conclude x = .next s := by
  rw [h, State.conclude]

/-! ## Completion -/

/-- Settles O16: by what the input port answers on a queue that holds a value. -/
theorem inTakesFromTheQueue : Obligations.InTakesFromTheQueue := by
  intro s c p1 d v rest hc hd hio hq
  exact exec_inp_of_ok hc hd (inTake_of_queue_cons hio hq)

/-- Settles O17: by what the input port answers on a channel that holds a value. -/
theorem inTakesFromTheChannel : Obligations.InTakesFromTheChannel := by
  intro s c p1 d ch v rest hc hd hio hch hbuf
  exact exec_inp_of_ok hc hd (inTake_of_channel_cons hio hch hbuf)

/-- Settles O18: by what the output port answers below the cap of the log. -/
theorem outAppendsToTheLog : Obligations.OutAppendsToTheLog := by
  intro s c p1 v hc hv hio hcap
  rw [exec_out_of_ok hc hv (outPut_of_queue hio hcap), tapped_eq]
  rfl

/-- Settles O19: by what the output port answers on a channel with space. -/
theorem outPushesIntoTheChannel : Obligations.OutPushesIntoTheChannel := by
  intro s c p1 v j k ch hc hv hio hport hch hk hspace
  rw [exec_out_of_ok hc hv (outPut_of_channel_space hio (outPort_eq_channel.2 hport) hch
    ((space_eq_true_of_core hk).2 hspace)), tapped_eq]
  rfl

/-! ## Raises and blocks -/

/-- Settles O26: an empty queue is exhausted, and so is an empty channel whose producer is not live. -/
theorem inputExhaustedRaises : Obligations.InputExhaustedRaises := by
  intro s c p1 d hc hd h
  refine raisedIn_of_raise hc (r := ⟨.inputExhausted, some 0, none⟩) (inEffect_of_take_error hc hd ?_)
  rcases h with ⟨hio, hq⟩ | ⟨hio, ch, hch, hbuf, hstopped⟩
  · exact inTake_of_queue_nil hio hq
  · have hlive : ¬s.producerLive ch = true := fun hlive => by
      obtain ⟨k, e, hk, he, hrun⟩ := producerLive_eq_true.1 hlive
      exact hstopped k e hk he hrun
    rw [inTake_of_channel_nil hio hch hbuf, if_neg hlive]

/-- Settles O27: a log at its cap is full, and a full channel whose consumer is not live is dead. -/
theorem outputFaultsRaise : Obligations.OutputFaultsRaise := by
  intro s c p1 v hc hv
  refine ⟨fun hio hcap => ?_, fun j k ch e hio hport hch hk hfull he hstopped => ?_⟩
  · exact raisedIn_of_raise hc (outEffect_of_put_error hc hv (outPut_of_queue_full hio hcap))
  · have hlive : ¬s.consumerLive ch = true := fun hlive => by
      obtain ⟨e', he', hrun⟩ := (consumerLive_eq_true_of_core hk).1 hlive
      obtain rfl : e = e' := Option.some.inj (he.symm.trans he')
      exact hstopped hrun
    refine raisedIn_of_raise hc (r := ⟨.excessOutput, some 0, none⟩) (outEffect_of_put_error hc hv ?_)
    rw [outPut_of_channel_full hio (outPort_eq_channel.2 hport) hch ((space_eq_false_of_core hk).2 hfull), if_neg hlive]

/-- Settles O28: an empty channel blocks while its producer is live, a full one while its consumer is. -/
theorem blockedStepChangesNothing : Obligations.BlockedStepChangesNothing := by
  intro s c p1 hc hio
  refine ⟨fun d k ch e hd hch hbuf hk he hrun => ?_, fun v j k ch e hv hport hch hk hfull he hrun => ?_⟩
  · refine conclude_of_block (inEffect_of_take_error hc hd ?_)
    rw [inTake_of_channel_nil hio hch hbuf, if_pos (producerLive_eq_true.2 ⟨k, e, hk, he, hrun⟩)]
  · refine conclude_of_block (outEffect_of_put_error hc hv ?_)
    rw [outPut_of_channel_full hio (outPort_eq_channel.2 hport) hch ((space_eq_false_of_core hk).2 hfull),
      if_pos ((consumerLive_eq_true_of_core hk).2 ⟨e, he, hrun⟩)]

/-! ## Frames -/

/-- An instruction that answers a next state and does not commit has blocked or raised: it leaves the channels and the sink
alone, and of the active core all but its status and record (R123, R162). -/
theorem exec_commits_or_stops {s t : State} {c : Vm} {i : Instr} (hc : s.Active c) (h : exec i s = .next t) :
    Commits s c i t ∨ (SameMachine s t ∧ t.chans = s.chans ∧ t.ctl.sink = s.ctl.sink ∧
      ∃ status fault, t.Active { c with status := status, fault := fault }) := by
  rcases exec_next hc h with hcommit | ⟨rfl, -⟩ | ⟨r, rfl, -⟩
  · exact .inl hcommit
  · exact .inr ⟨⟨rfl, rfl, rfl, rfl, rfl, fun _ _ => rfl⟩, rfl, rfl, c.status, c.fault, hc⟩
  · have hraised : RaisedIn s c r.code r.param r.addr (s.takeFault c r) := takeFault_raisedIn s c r
    rw [hraised]
    refine .inr ⟨sameMachine_set .., rfl, ?_, _, _, hc.set (c.faultedBy r.code r.param r.addr) ..⟩
    cases s.setting <;> rfl

/-- Settles O33: by the frame of the input port, of the store, and of a block or raise. -/
theorem inFrame : Obligations.InFrame := by
  intro s t c p1 hc h
  rcases exec_commits_or_stops hc h with hcommit | ⟨hsame, hchans, -, status, fault, hd⟩
  · cases hcommit with
    | @inp _ x k hx hk =>
      obtain ⟨q, hvm, hq, hqueue, hother⟩ := inTake_frame hk
      rw [hvm]
      exact ⟨sameMachine_set .., hother, hqueue, Vm.store { c with inQ := q } x k.value 2, hc.set .., ⟨rfl, rfl, rfl⟩,
        rfl, rfl, hq, fun a ha => Vm.read_store_of_ne (ha x hx), .inl ⟨rfl, rfl, rfl, rfl⟩⟩
  · exact ⟨hsame, fun _ _ => by rw [hchans], fun _ => hchans, _, hd, ⟨rfl, rfl, rfl⟩, rfl, rfl, fun _ => rfl,
      fun _ _ => rfl, .inr ⟨rfl, hchans⟩⟩

/-- Settles O34: by the frame of the output port, of the result tap, and of a block or raise. -/
theorem outFrame : Obligations.OutFrame := by
  intro s t c p1 hc h
  rcases exec_commits_or_stops hc h with hcommit | ⟨hsame, hchans, hsink, status, fault, hd⟩
  · cases hcommit with
    | @out _ v e hv he =>
      obtain ⟨log, sink, hvm, hctl, hlog, hqueue, hother, hsink⟩ := outPut_frame he
      rw [hvm, hctl]
      exact ⟨sameMachine_set .., hother, hqueue, hsink, Vm.goto { c with outLog := log } (c.pc + 2), hc.set ..,
        ⟨rfl, rfl, rfl⟩, rfl, rfl, rfl, hlog, .inl ⟨rfl, rfl, rfl, tapped_with_sink s v sink⟩⟩
  · exact ⟨hsame, fun _ _ => by rw [hchans], fun _ => ⟨hchans, hsink⟩, fun _ => hsink, _, hd, ⟨rfl, rfl, rfl⟩, rfl, rfl,
      rfl, fun _ => rfl, .inr ⟨rfl, hchans⟩⟩

end Sys2Proof.Machine
end

section
/-! PROOF. jt and jf complete by their condition, and the frame of jt, jf and halt: the pc, or the status and the done flag
(spec 42_jumps.md R130, R131, 44_halt.md R150, 60_exceptions.md R162). -/

namespace Sys2Proof.Machine

/-! ## Completion -/

/-- A jump whose parameters are read goes to the target when its condition `P` on the first holds, and on to the next
instruction when it does not (R130, R131). -/
theorem conclude_jumpIf_of_reads {taken : Int → Bool} {p1 p2 : Param} {s : State} {c : Vm} {a v : Int} {P : Prop}
    [Decidable P] (hc : s.Active c) (h1 : ReadsAs c p1 a) (h2 : ReadsAs c p2 v) (hP : taken a = decide P) :
    s.conclude (jumpIf taken p1 p2 s) = .next (s.setVm (c.goto (if P then v else c.pc + 3))) := by
  rw [jumpIf_eq_ok.2 ⟨c, a, v, hc, h1, h2, rfl⟩, State.conclude]
  simp only [hP, decide_eq_true_eq]

/-- Settles O21: by the two conditions, `a ≠ 0` and `a = 0`. -/
theorem jumpsGoByTheCondition : Obligations.JumpsGoByTheCondition := by
  intro s c p1 p2 a t hc h1 h2
  exact ⟨conclude_jumpIf_of_reads hc h1 h2 rfl, conclude_jumpIf_of_reads hc h1 h2 rfl⟩

/-- halt always completes (R150). -/
theorem exec_halt {s : State} {c : Vm} (hc : s.Active c) : exec .halt s = .next (s.setVm c.halt) := by
  rw [exec, execHalt, haltEffect_eq_ok.2 ⟨c, hc, rfl⟩, State.conclude]

/-! ## Frame -/

/-- A jump that answers a next state has set the pc or raised: it never blocks. -/
theorem exec_jump_next {s t : State} {c : Vm} {p1 p2 : Param} {i : Instr} (hi : i ∈ [Instr.jt p1 p2, .jf p1 p2])
    (hc : s.Active c) (h : exec i s = .next t) : (∃ x, t = s.setVm (c.goto x)) ∨ ∃ r, t = s.takeFault c r := by
  rcases exec_next hc h with hcommit | ⟨-, ⟨p, rfl⟩ | ⟨p, rfl⟩⟩ | ⟨r, ht, -⟩
  · cases hcommit with
    | jt | jf => exact .inl ⟨_, rfl⟩
    | _ => simp at hi
  · simp at hi
  · simp at hi
  · exact .inr ⟨r, ht⟩

/-- The frame of jt and jf: of the machine only the active core and, after a raise, the controller; of the core only the
pc, or only its status and record (R130, R131, R162). -/
theorem exec_jump_frame {s t : State} {c : Vm} {p1 p2 : Param} {i : Instr} (hi : i ∈ [Instr.jt p1 p2, .jf p1 p2])
    (hc : s.Active c) (h : exec i s = .next t) :
    SameMachine s t ∧ t.chans = s.chans ∧
      ∃ d, t.Active d ∧ ((d = { c with pc := d.pc } ∧ t.ctl = s.ctl) ∨ SameButFault c d) := by
  rcases exec_jump_next hi hc h with ⟨x, rfl⟩ | ⟨r, ht⟩
  · exact ⟨sameMachine_set .., rfl, c.goto x, hc.set .., .inl ⟨rfl, rfl⟩⟩
  · have hraised : RaisedIn s c r.code r.param r.addr t := ht ▸ takeFault_raisedIn s c r
    rw [hraised]
    exact ⟨sameMachine_set .., rfl, c.faultedBy r.code r.param r.addr, hc.set .., .inr rfl⟩

/-- Settles O35: by the frame of the jumps, and by what halt writes back. -/
theorem jumpAndHaltFrame : Obligations.JumpAndHaltFrame := by
  intro s t c p1 p2 i hi hc h
  by_cases hhalt : i = .halt
  · subst hhalt
    obtain rfl : s.setVm c.halt = t := Host.Outcome.next.inj ((exec_halt hc).symm.trans h)
    exact ⟨sameMachine_set .., rfl, c.halt, hc.set .., .inr (.inl ⟨rfl, rfl, rfl⟩)⟩
  · have hjump : i ∈ [Instr.jt p1 p2, .jf p1 p2] := by simpa [hhalt] using hi
    obtain ⟨hsame, hchans, d, hd, ⟨hpc, hctl⟩ | hfault⟩ := exec_jump_frame hjump hc h
    · exact ⟨hsame, hchans, d, hd, .inl ⟨hpc, hctl, hhalt⟩⟩
    · exact ⟨hsame, hchans, d, hd, .inr (.inr ⟨hfault, hhalt⟩)⟩

end Sys2Proof.Machine
end

section
/-! PROOF. lt and eq complete, with exactly 1 or 0 by their condition (spec 43_compare.md R140 to R142). -/

namespace Sys2Proof.Machine

/-- The value written for a condition `P` is 1 when it holds and 0 when it does not (R142). -/
theorem truth_decide (P : Prop) [Decidable P] : truth (decide P) = if P then 1 else 0 := by
  by_cases h : P <;> simp [truth, h]

/-- Settles O22: by what an instruction of the store shape writes, for the conditions `a < b` and `a = b`. -/
theorem comparisonsStoreOneOrZero : Obligations.ComparisonsStoreOneOrZero := by
  intro s c p1 p2 p3 a b d hc h1 h2 hd
  rw [← truth_decide (a < b), ← truth_decide (a = b)]
  exact ⟨conclude_storeBinary_of_ok hc h1 h2 rfl hd, conclude_storeBinary_of_ok hc h1 h2 rfl hd⟩

end Sys2Proof.Machine
end

section
/-! PROOF. halt completes: the active core is Halted and done, and its pc stays (spec 44_halt.md R150). -/

namespace Sys2Proof.Machine

/-- Settles O23: halt always completes, and what it writes back is the core with its status and done flag set. -/
theorem haltStopsTheCore : Obligations.HaltStopsTheCore := by
  intro s c hc
  exact exec_halt hc

end Sys2Proof.Machine
end

section
/-! PROOF. The signals of a channel and the sink of a linear chain (spec 60_exceptions.md R170 to R178). -/

namespace Sys2Proof.Machine

/-! ## Signals -/

theorem avail_eq_true {ch : Channel} : ch.avail = true ↔ ch.buf ≠ [] := by
  simp [Channel.avail]

theorem eos_eq_true {s : State} {ch : Channel} : s.eos ch = true ↔ ch.buf = [] ∧ s.producerLive ch = false := by
  simp [State.eos]

theorem dead_eq_true {s : State} {ch : Channel} : s.dead ch = true ↔ s.space ch = false ∧ s.consumerLive ch = false := by
  simp [State.dead]

/-- A sink always has space, and its reader, the host, is always live (R175, R176). -/
theorem signals_of_sink {s : State} {ch : Channel} (h : ch.consumer = .sink) :
    s.space ch = true ∧ s.dead ch = false ∧ s.consumerLive ch = true := by
  have hspace : s.space ch = true := by rw [State.space, h]
  exact ⟨hspace, by simp [State.dead, hspace], by rw [State.consumerLive, h]⟩

/-- Settles O51: each signal by its definition, the two liveness bits by the status of the core at that end. -/
theorem channelSignals : Obligations.ChannelSignals := by
  intro s ch k hk
  exact ⟨avail_eq_true, fun _ => List.head?_eq_getElem? .., producerLive_eq_true, consumerLive_eq_true_of_core hk,
    eos_eq_true, space_eq_true_of_core hk, dead_eq_true, fun e he => signals_of_sink he⟩

/-! ## The sink -/

/-- The output port of the last core of a linear chain is the sink (R182). -/
theorem outPort_of_linear_last {p : Controller} {k : Nat} (hlast : ¬k + 1 < p.config.n)
    (htop : p.config.topology = .linear) : p.outPort k = .sink := by
  simp [Controller.outPort, hlast, htop]

/-- An output transaction into the sink commits, with no condition: it never blocks (R178). -/
theorem outPut_of_sink {s : State} {c : Vm} (v : Int) (hio : c.io = .channel) (hport : s.ctl.outPort s.active = .sink) :
    outPut s c v = .ok ⟨c, s.chans, { s.tapped v with sink := s.ctl.sink ++ [v] }⟩ := by
  simp [outPut, hio, hport]

/-- Settles O20: by what the output port answers where it leads to the sink, and by the tap of the last core. -/
theorem outOfTheLastCoreGoesToTheSink : Obligations.OutOfTheLastCoreGoesToTheSink := by
  intro s c p1 v hc hv hio hset hlast htop
  have hport : s.ctl.outPort s.active = .sink := outPort_of_linear_last hlast.not_lt htop
  rw [exec_out_of_ok hc hv (outPut_of_sink v hio hport), tapped_eq, if_pos ⟨hset, hlast⟩]
  rfl

end Sys2Proof.Machine
end

section
/-! PROOF. Faults are precise, and in a pipeline the fault of a core aborts the run for good (spec 60_exceptions.md R162,
R163, R188). -/

namespace Sys2Proof.Machine

theorem Commits.active {s t : State} {c : Vm} {i : Instr} (h : Commits s c i t) : t.active = s.active := by
  obtain ⟨d, ht, -⟩ := h.effect
  rw [ht]

/-- A commit faults no core: it leaves the status of its core, or halts it. -/
theorem Commits.not_faulted {s t : State} {c d : Vm} {i : Instr} (hc : s.Active c) (h : Commits s c i t)
    (hd : t.core? s.active = some d) (hst : c.status ≠ .faulted) : d.status ≠ .faulted := by
  obtain ⟨x, ht, -, -, -, -, hstat, -⟩ := h.effect
  rw [ht] at hd
  obtain rfl : d = x := Option.some.inj (hd.symm.trans (hc.set x s.chans s.ctl))
  rcases hstat with ⟨hsame, -⟩ | ⟨-, rfl⟩
  · rwa [hsame]
  · simp

/-- Settles O29: neither a commit nor a block faults the core, and a raise is the fault it takes. -/
theorem faultsArePrecise : Obligations.FaultsArePrecise := by
  intro i s t c d hc hst h hd hf
  rcases exec_next hc h with hcommit | ⟨rfl, -⟩ | ⟨r, rfl, hcode, -⟩
  · rw [State.Active, hcommit.active] at hd
    exact absurd hf (hcommit.not_faulted hc hd hst)
  · exact absurd (hc.unique hd ▸ hf) hst
  · exact ⟨r.code, r.param, r.addr, takeFault_raisedIn s c r, hcode⟩

/-- The step of an active core that leaves it faulted is a raise (R162). -/
theorem runActive_of_faulted {s t : State} {c d : Vm} (hc : s.Active c) (hst : c.status ≠ .faulted)
    (h : s.runActive = .next t) (hd : t.core? s.active = some d) (hf : d.status = .faulted) :
    ∃ r, t = s.takeFault c r := by
  rcases runActive_cases hc h with ⟨i, -, hcommit⟩ | rfl | ⟨r, ht, -⟩
  · exact absurd hf (hcommit.not_faulted hc hd hst)
  · exact absurd (hc.unique hd ▸ hf) hst
  · exact ⟨r, ht⟩

/-- The step that faults core `k` is a step of core `k`, and it is a raise: the controller faults no core (R162). -/
theorem stepWith_of_faulted {choice : Nat} {s t : State} {k : Nat} {c d : Vm} (h : stepWith choice s = .next t)
    (hc : s.core? k = some c) (hst : c.status ≠ .faulted) (hd : t.core? k = some d) (hf : d.status = .faulted) :
    CoreStep s k c d t ∧ t.chans = s.chans := by
  have unchanged {x : Vm} (hx : t.core? k = some x) (hstat : x.status = c.status) : False := by
    obtain rfl : x = d := Option.some.inj (hx.symm.trans hd)
    exact hst (hstat.symm.trans hf)
  rcases stepWith_cases h with ⟨-, rfl⟩ | hctl | ⟨j, c', -, hc', -, hact, hrun⟩
  · exact (unchanged hc rfl).elim
  · obtain ⟨q, hq, -⟩ := hctl.core? hc
    exact (unchanged hq rfl).elim
  · obtain ⟨d', hstep⟩ := coreStep_of_runActive hc' hrun
    by_cases hj : k = j
    · subst hj
      obtain rfl : c' = c := Option.some.inj (hc'.symm.trans hc)
      obtain rfl : d' = d := Option.some.inj ((hstep.core?_same hc).symm.trans hd)
      obtain ⟨r, ht⟩ := runActive_of_faulted hact hst hrun hd hf
      exact ⟨hstep, by rw [ht, State.takeFault_chans, State.select_chans, State.chose_chans]⟩
    · exact (unchanged ((hstep.core?_other hj).trans hc) rfl).elim

/-- A core that ends its step faulted has raised: the run is aborted with its number and its record (R188). -/
theorem CoreStep.ctl_of_faulted {s t : State} {k : Nat} {c d : Vm} (h : CoreStep s k c d t) (hset : s.setting = .pipeline)
    (hst : c.status ≠ .faulted) (hf : d.status = .faulted) : t.ctl = s.ctl.abortBy k d.fault := by
  rcases h.ends with ⟨⟨hsame, -⟩ | ⟨hhalt, -⟩, -⟩ | ⟨-, -, -, -, -, hctl⟩
  · exact absurd (hsame.symm.trans hf) hst
  · rw [hhalt] at hf; cases hf
  · exact hctl hset

/-- A pipeline whose run was aborted takes no step (R188). -/
theorem stepWith_of_aborted {s : State} (hset : s.setting = .pipeline) (hab : s.ctl.pstatus = .aborted) (choice : Nat) :
    stepWith choice s = .next s := by
  simp only [stepWith, State.plan, hset, hab]

/-- Settles O54: the step is a raise of core `k`, which leaves everything else as it was, and an aborted run is idle. -/
theorem faultAbortsThePipeline : Obligations.FaultAbortsThePipeline := by
  intro choice s t k c d hset h hc hst hd hf
  obtain ⟨hstep, hchans⟩ := stepWith_of_faulted h hc hst hd hf
  have hctl := hstep.ctl_of_faulted hset hst hf
  have hab : t.ctl.pstatus = .aborted := by rw [hctl, Controller.abortBy_pstatus]
  refine ⟨hab, ?_, ?_, fun j hj => hstep.core?_other hj, hchans, stepWith_of_aborted (hstep.setting.trans hset) hab⟩
  · rw [hctl, Controller.abortBy_abort]
  · rw [hctl, Controller.abortBy_result]

end Sys2Proof.Machine
end

section
/-! PROOF. Every step of a legally arranged machine answers a next state: the parts of the state that the model's own stops
miss (log entry 10) are all there (spec 60_exceptions.md R160, R162, 10_state.md R36). -/

namespace Sys2Proof.Machine

/-! ## The steps of the instructions -/

theorem fetch_not_fault {c : Vm} {n : Nat} {p : Param} {f : Fault} : fetch c n p ≠ .error (.fault f) := by
  intro h
  obtain ⟨a, -, -, he⟩ := fetch_eq_error.1 h
  cases he

theorem storeTarget_not_fault {c : Vm} {n : Nat} {p : Param} {f : Fault} : storeTarget c n p ≠ .error (.fault f) := by
  intro h
  rcases storeTarget_eq_error.1 h with ⟨v, -, he⟩ | ⟨a, -, -, he⟩ <;> cases he

theorem narrow_not_fault {p : Params} {x : Int} {f : Fault} : narrow p x ≠ .error (.fault f) := by
  intro h
  cases (narrow_eq_error h).1

/-- The channels that core `c`'s two ports lead to are there, if it is Channel-bound (R182, R183). -/
def State.PortsWired (s : State) (c : Vm) : Prop :=
  c.io = .channel → s.chans[s.active]? ≠ none ∧ ∀ j, s.ctl.outPort s.active = .channel j → s.chans[j]? ≠ none

theorem State.PortsWired.inTake_not_fault {s : State} {c : Vm} {f : Fault} (h : s.PortsWired c) :
    inTake s c ≠ .error (.fault f) := by
  intro he
  rcases inTake_eq_error he with ⟨hr, -⟩ | ⟨hb, -⟩ | ⟨-, hio, hnone⟩
  · cases hr
  · cases hb
  · exact (h hio).1 hnone

theorem State.PortsWired.outPut_not_fault {s : State} {c : Vm} {v : Int} {f : Fault} (h : s.PortsWired c) :
    outPut s c v ≠ .error (.fault f) := by
  intro he
  rcases outPut_eq_error he with ⟨hr, -⟩ | ⟨hio, j, hport, ⟨-, hnone⟩ | ⟨ch, -, -, ⟨hr, -⟩ | ⟨hb, -⟩⟩⟩
  · cases hr
  · exact (h hio).2 j hport hnone
  · cases hr
  · cases hb

/-- A step that does not stop for a missing part answers a next state: its commit, a block or a raise (R9, R10, R162). -/
theorem conclude_exists_next {s : State} {c : Vm} {e : Except Stop State} (hc : s.Active c)
    (he : ∀ f, e ≠ .error (.fault f)) : ∃ t, s.conclude e = .next t := by
  cases e with
  | ok t => exact ⟨t, rfl⟩
  | error stop =>
    cases stop with
    | raise r => exact ⟨_, conclude_raise r hc⟩
    | block => exact ⟨s, rfl⟩
    | fault f => exact absurd rfl (he f)

section
variable {s : State} {c : Vm} (hc : s.Active c)
include hc

theorem State.Active.vm_not_error {e : Stop} : s.vm ≠ .error e := by
  rw [vm_eq_ok.2 hc]
  nofun

theorem storeBinary_not_fault {f : Fault} {g : Int → Int → Except Stop Int} {p1 p2 p3 : Param}
    (hg : ∀ a b, g a b ≠ .error (.fault f)) : storeBinary g p1 p2 p3 s ≠ .error (.fault f) := by
  intro he
  rcases storeBinary_eq_error he with he | ⟨c', -, he | ⟨a, -, he | ⟨b, -, he | he⟩⟩⟩
  · exact hc.vm_not_error he
  · exact fetch_not_fault he
  · exact fetch_not_fault he
  · exact hg a b he
  · exact storeTarget_not_fault he

theorem jumpIf_not_fault {f : Fault} {taken : Int → Bool} {p1 p2 : Param} : jumpIf taken p1 p2 s ≠ .error (.fault f) := by
  intro he
  rcases jumpIf_eq_error he with he | ⟨c', -, he | he⟩
  · exact hc.vm_not_error he
  · exact fetch_not_fault he
  · exact fetch_not_fault he

theorem inEffect_not_fault {f : Fault} {p1 : Param} (hports : s.PortsWired c) : inEffect p1 s ≠ .error (.fault f) := by
  intro he
  rcases inEffect_eq_error he with he | ⟨c', hc', he | ⟨d, -, he⟩⟩
  · exact hc.vm_not_error he
  · exact storeTarget_not_fault he
  · exact (hc.unique hc' ▸ hports).inTake_not_fault he

theorem outEffect_not_fault {f : Fault} {p1 : Param} (hports : s.PortsWired c) : outEffect p1 s ≠ .error (.fault f) := by
  intro he
  rcases outEffect_eq_error he with he | ⟨c', hc', he | ⟨v, -, he⟩⟩
  · exact hc.vm_not_error he
  · exact fetch_not_fault he
  · exact (hc.unique hc' ▸ hports).outPut_not_fault he

/-- Every instruction answers a next state when the ports of its core are wired. -/
theorem exec_exists_next (hports : s.PortsWired c) (i : Instr) : ∃ t, exec i s = .next t := by
  cases i with
  | add | mul => exact conclude_exists_next hc fun _ => storeBinary_not_fault hc fun _ _ => narrow_not_fault
  | lt | eq => exact conclude_exists_next hc fun _ => storeBinary_not_fault hc fun _ _ => nofun
  | jt | jf => exact conclude_exists_next hc fun _ => jumpIf_not_fault hc
  | inp p1 => exact conclude_exists_next hc fun _ => inEffect_not_fault hc hports
  | out p1 => exact conclude_exists_next hc fun _ => outEffect_not_fault hc hports
  | halt => exact ⟨_, exec_halt hc⟩

theorem fetchInstr_not_fault {f : Fault} : s.fetchInstr ≠ .error (.fault f) := by
  intro he
  rcases fetchInstr_eq_error.1 he with ⟨hnone, -⟩ | ⟨c', -, ⟨-, hr⟩ | ⟨win, x, -, -, hr⟩⟩
  · rw [hc] at hnone; cases hnone
  · cases hr
  · cases hr

theorem runActive_exists_next (hports : s.PortsWired c) : ∃ t, s.runActive = .next t := by
  unfold State.runActive
  cases hfetch : s.fetchInstr with
  | ok i => exact exec_exists_next hc hports i
  | error e => exact conclude_exists_next hc fun f he => fetchInstr_not_fault hc (f := f) (hfetch.trans (by cases he; rfl))

end

/-! ## The step of the machine -/

theorem getElem?_ne_none {α : Type} {l : List α} {k : Nat} : l[k]? ≠ none ↔ k < l.length := by
  rw [Ne, List.getElem?_eq_none_iff, Nat.not_le]

/-- In a legally arranged machine the ports of every core are wired: it is Queue-bound, or of a concurrent pipeline (R182,
R183, R193). -/
theorem State.ControlOk.portsWired {s : State} (hok : s.ControlOk) {k : Nat} {c : Vm} (hc : s.core? k = some c) :
    (s.chose.select k).PortsWired { c with started := true } := by
  rw [State.PortsWired, State.select_chans, State.select_ctl, State.select_active, State.chose_chans, State.chose_ctl]
  intro hio
  have hqueue (hq : ∀ x ∈ s.cores, x.io = .queue) : False := nomatch hio.symm.trans (hq c (State.core?_mem hc))
  cases hset : s.setting with
  | standalone =>
    obtain ⟨⟨x, hcores, hx⟩, -, -⟩ := hok.standalone hset
    exact (hqueue (by simpa [hcores] using hx)).elim
  | pipeline =>
    have hp := hok.pipeline hset
    cases hmode : s.ctl.config.mode with
    | sync =>
      obtain ⟨-, hq, -⟩ := hp.sync hmode
      exact (hqueue hq).elim
    | concurrent =>
      obtain ⟨hlen, -, -⟩ := hp.concurrent hmode
      have hk : k < s.cores.length := (List.getElem?_eq_some_iff.1 hc).1
      have hcount := hp.count
      refine ⟨getElem?_ne_none.2 (by omega), fun j hj => getElem?_ne_none.2 ?_⟩
      rcases outPort_eq_channel.1 hj with ⟨hlt, rfl⟩ | ⟨-, -, rfl⟩ <;> omega

theorem State.SyncRun.plan_eq {s : State} (h : s.SyncRun) (choice : Nat) : s.plan choice = s.planSync := by
  obtain ⟨hset, hrun, hmode⟩ := h
  simp only [State.plan, hset, hrun, hmode]

theorem State.ConcurrentRun.plan_eq {s : State} (h : s.ConcurrentRun) (choice : Nat) :
    s.plan choice = s.planConcurrent choice := by
  obtain ⟨hset, hrun, hmode⟩ := h
  simp only [State.plan, hset, hrun, hmode]

/-- The core that a sync run hands over to and its phase are there (R180, R190). -/
theorem State.PipelineOk.advanceSync_ok {s : State} (hok : s.PipelineOk) (c : Vm) : ∃ t, s.advanceSync c = .ok t := by
  unfold State.advanceSync
  split
  · exact ⟨_, rfl⟩
  · split
    · rename_i hlt
      obtain ⟨-, hphases, -⟩ := hok.config
      have hcore : s.cores[s.ctl.cur + 1]? ≠ none := getElem?_ne_none.2 (by rw [hok.count]; exact hlt)
      have hphase : s.ctl.config.phases[s.ctl.cur + 1]? ≠ none := getElem?_ne_none.2 (by rw [hphases]; exact hlt)
      split
      · exact absurd ‹_› hcore
      · exact absurd ‹_› hphase
      · exact ⟨_, rfl⟩
    · exact ⟨_, rfl⟩

theorem State.PipelineOk.planSync_not_stuck {s : State} (hok : s.PipelineOk) (hmode : s.ctl.config.mode = .sync)
    (f : Fault) : s.planSync ≠ .stuck f := by
  obtain ⟨-, -, hcur, -⟩ := hok.sync hmode
  have hcore : s.cores[s.ctl.cur]? ≠ none := getElem?_ne_none.2 (by rw [hok.count]; exact hcur)
  unfold State.planSync
  split
  · exact absurd ‹_› hcore
  · split
    · simp
    · simp
    · rename_i c _ _ _
      obtain ⟨t, ht⟩ := hok.advanceSync_ok c
      simp [ht]

theorem State.planConcurrent_not_stuck (s : State) (choice : Nat) (f : Fault) : s.planConcurrent choice ≠ .stuck f := by
  unfold State.planConcurrent
  split <;> simp

/-- The plan of a legally arranged machine misses no part of it. -/
theorem State.ControlOk.plan_not_stuck {s : State} (hok : s.ControlOk) (choice : Nat) (f : Fault) :
    s.plan choice ≠ .stuck f := by
  cases hset : s.setting with
  | standalone =>
    obtain ⟨⟨c, hcores, -⟩, -, -⟩ := hok.standalone hset
    rw [State.plan_of_standalone hset (c := c) (by rw [State.core?, hcores]; rfl)]
    split <;> simp
  | pipeline =>
    have hp := hok.pipeline hset
    cases hrun : s.ctl.pstatus with
    | running =>
      cases hmode : s.ctl.config.mode with
      | sync => rw [State.SyncRun.plan_eq ⟨hset, hrun, hmode⟩]; exact hp.planSync_not_stuck hmode f
      | concurrent => rw [State.ConcurrentRun.plan_eq ⟨hset, hrun, hmode⟩]; exact s.planConcurrent_not_stuck choice f
    | idle | terminated | aborted => simp [State.plan, hset, hrun]

/-- Settles O42: nobody's step is stuck, and a core's step answers since the ports of its core are wired. -/
theorem everyStepAnswersANextState : Obligations.EveryStepAnswersANextState := by
  intro choice s hok
  cases hplan : s.plan choice with
  | idle => exact ⟨s, by rw [stepWith, hplan]⟩
  | control t => exact ⟨t, by rw [stepWith, hplan]⟩
  | stuck f => exact absurd hplan (hok.plan_not_stuck choice f)
  | core k =>
    obtain ⟨c, hc, -⟩ := plan_core_running hplan
    rw [stepWith_of_plan_core hplan]
    exact runActive_exists_next (selected_active hc) (hok.portsWired hc)

end Sys2Proof.Machine
end

section
/-! PROOF. The scheduler of a concurrent run (spec 60_exceptions.md R185 to R189, 10_state.md R34): which cores it may
choose, and what the controller does when there is none to choose. -/

namespace Sys2Proof.Machine

/-! ## The choice -/

/-- Any element of the list is the pick of some choice (R185). -/
theorem exists_pick_eq {k : Nat} {ks : List Nat} (h : k ∈ ks) : ∃ choice, pick choice ks = some k := by
  obtain ⟨i, hi⟩ := List.mem_iff_getElem?.1 h
  refine ⟨i, ?_⟩
  unfold pick
  split
  · cases h
  · rw [List.mem_singleton.1 h]
  · rw [Nat.mod_eq_of_lt (List.getElem?_eq_some_iff.1 hi).1, hi]

theorem mem_enabledCores_of_enabled {s : State} {k : Nat} (h : s.enabled k = true) : k ∈ s.enabledCores := by
  obtain ⟨c, hc, -⟩ := enabled_running h
  exact mem_enabledCores.2 ⟨(List.getElem?_eq_some_iff.1 hc).1, h⟩

theorem enabledCores_eq_nil {s : State} (h : ∀ k, s.enabled k = false) : s.enabledCores = [] := by
  refine List.eq_nil_iff_forall_not_mem.2 fun k hk => ?_
  have henabled := (mem_enabledCores.1 hk).2
  rw [h k] at henabled
  cases henabled

theorem planConcurrent_eq_core {s : State} {choice k : Nat} :
    s.planConcurrent choice = .core k ↔ pick choice s.enabledCores = some k := by
  unfold State.planConcurrent
  split
  · rename_i j hj
    rw [hj, Plan.core.injEq, Option.some_inj]
  · rename_i hnone
    simp [hnone]

/-- Settles O49: a concurrent run plans the pick of its choice, which is one of the enabled cores, and any of them. -/
theorem schedulerMayChooseAnyEnabledCore : Obligations.SchedulerMayChooseAnyEnabledCore := by
  intro s hs
  simp only [hs.plan_eq, planConcurrent_eq_core]
  refine ⟨fun choice k hk => (mem_enabledCores.1 (pick_mem hk)).2,
    fun k hk => exists_pick_eq (mem_enabledCores_of_enabled hk), fun k hk choice => ?_⟩
  refine Option.ne_none_iff_exists'.1 fun hnone => ?_
  exact List.ne_nil_of_mem (mem_enabledCores_of_enabled hk) (pick_eq_none.1 hnone)

/-! ## The controller's step when no core is enabled -/

/-- When no core is enabled the controller ends the run (R187, R189). -/
theorem State.ConcurrentRun.stepWith_of_no_enabled {s : State} (hs : s.ConcurrentRun) (hno : ∀ k, s.enabled k = false)
    (choice : Nat) : stepWith choice s = .next (if s.allHalted then s.terminate else s.deadlock) := by
  have hplan : s.planConcurrent choice = .control (if s.allHalted then s.terminate else s.deadlock) := by
    rw [State.planConcurrent, pick_eq_none.2 (enabledCores_eq_nil hno)]
  rw [stepWith, hs.plan_eq, hplan]

theorem allHalted_eq_true {s : State} : s.allHalted = true ↔ ∀ c ∈ s.cores, c.status = .halted := by
  simp [State.allHalted]

theorem enabled_of_halted {s : State} (h : ∀ c ∈ s.cores, c.status = .halted) (k : Nat) : s.enabled k = false := by
  refine Bool.eq_false_iff.2 fun henabled => ?_
  obtain ⟨c, hc, hrun⟩ := enabled_running henabled
  exact nomatch hrun.symm.trans (h c (State.core?_mem hc))

/-- The search of R187 is for the least channel that is left over. -/
theorem leftover?_eq_find? (s : State) [DecidablePred s.Leftover] :
    s.leftover? = (List.range s.chans.length).find? fun k => decide (s.Leftover k) := by
  unfold State.leftover?
  congr 1
  funext k
  cases hk : s.chans[k]? with
  | none => simp [State.Leftover, hk]
  | some ch =>
    rw [Bool.eq_iff_iff]
    simp [State.Leftover, hk]

theorem State.Leftover.lt {s : State} {k : Nat} (h : s.Leftover k) : k < s.chans.length := by
  obtain ⟨ch, hk, -⟩ := h
  exact (List.getElem?_eq_some_iff.1 hk).1

theorem leftover?_eq_some {s : State} {k : Nat} (hk : s.Leftover k) (hleast : ∀ j, j < k → ¬s.Leftover j) :
    s.leftover? = some k := by
  classical
  rw [leftover?_eq_find?, List.find?_range_eq_some]
  exact ⟨by simpa using hk, List.mem_range.2 hk.lt, fun j hj => by simpa using hleast j hj⟩

theorem leftover?_eq_none {s : State} (h : ∀ k, ¬s.Leftover k) : s.leftover? = none := by
  classical
  rw [leftover?_eq_find?, List.find?_eq_none]
  intro k _
  simpa using h k

/-- Settles O52: no halted core is enabled, so the controller takes the step, by what is left over. -/
theorem concurrentTermination : Obligations.ConcurrentTermination := by
  intro choice s hs hall
  rw [hs.stepWith_of_no_enabled (enabled_of_halted hall), if_pos (allHalted_eq_true.2 hall)]
  refine ⟨fun k hstrict hk hleast => ?_, fun hno => ?_⟩
  · rw [State.terminate, hstrict, leftover?_eq_some hk hleast]
    rfl
  · unfold State.terminate
    split
    · rename_i k hstrict hk
      rcases hno with hno | hno
      · rw [hno] at hstrict; cases hstrict
      · rw [leftover?_eq_none hno] at hk; cases hk
    · rfl

/-- A Running core that is not enabled is blocked (R34). -/
theorem blocked_of_not_enabled {s : State} {k : Nat} {c : Vm} (hc : s.core? k = some c) (hrun : c.status = .running)
    (h : s.enabled k = false) : s.blocked k = true := by
  have hlive : s.isRunning k = true := isRunning_eq_true.2 ⟨c, hc, hrun⟩
  simpa [State.blocked, State.enabled, hlive] using h

/-- Settles O53: the controller takes the step, and the cores of a run that have not halted are Running, none having
faulted. -/
theorem deadlockAborts : Obligations.DeadlockAborts := by
  rintro choice s hok hs hno ⟨c, hc, hst⟩
  refine ⟨?_, fun k d hd hstd => ?_⟩
  · rw [hs.stepWith_of_no_enabled hno, if_neg fun hall => hst (allHalted_eq_true.1 hall c hc)]
    rfl
  · have hnf : d.status ≠ .faulted := (hok.pipeline hs.1).unfaulted (.inr hs.2.1) d (State.core?_mem hd)
    refine blocked_of_not_enabled hd ?_ (hno k)
    cases hstatus : d.status with
    | running => rfl
    | halted => exact absurd hstatus hstd
    | faulted => exact absurd hstatus hnf

end Sys2Proof.Machine
end

section
/-! PROOF. No step of another core blocks one that is enabled (spec 10_state.md R34, 60_exceptions.md R185, R186, R195): each
channel has one reader and one writer, so the other core can only bring a value or make space. -/

namespace Sys2Proof.Machine

/-! ## What a core waits for -/

/-- Core `k`, which is `c`, waits at the instruction: for a value that may still come, or for space that a live reader may
still make (R122, R126). -/
inductive Waits (s : State) (k : Nat) (c : Vm) : Instr → Prop where
  | inp {p : Param} {d : Nat} {ch : Channel} : StoresAt c p d → c.io = .channel → s.chans[k]? = some ch →
      ch.buf = [] → s.producerLive ch = true → Waits s k c (.inp p)
  | out {p : Param} {v : Int} {j : Nat} {ch : Channel} : ReadsAs c p v → c.io = .channel →
      s.ctl.outPort k = .channel j → s.chans[j]? = some ch → s.space ch = false → s.consumerLive ch = true →
      Waits s k c (.out p)

/-- An instruction of the active core blocks exactly when the core waits there (R34, R123). -/
theorem instrBlocks_eq_true {s : State} {c : Vm} (hc : s.Active c) {i : Instr} :
    instrBlocks s i = true ↔ Waits s s.active c i := by
  constructor
  · intro h
    cases i with
    | inp p =>
      rcases inEffect_eq_error (endsInBlock_eq_true.1 h) with he | ⟨c', hc', he | ⟨d, hd, he⟩⟩
      · exact absurd he vm_not_block
      · exact absurd he storeTarget_not_block
      · obtain rfl := hc.unique hc'
        rcases inTake_eq_error he with ⟨he, -⟩ | ⟨-, hio, ch, hch, hbuf, hlive⟩ | ⟨he, -⟩
        · cases he
        · exact .inp hd hio hch hbuf hlive
        · cases he
    | out p =>
      rcases outEffect_eq_error (endsInBlock_eq_true.1 h) with he | ⟨c', hc', he | ⟨v, hv, he⟩⟩
      · exact absurd he vm_not_block
      · exact absurd he fetch_not_block
      · obtain rfl := hc.unique hc'
        rcases outPut_eq_error he with
          ⟨he, -⟩ | ⟨hio, j, hport, ⟨he, -⟩ | ⟨ch, hch, hfull, ⟨he, -⟩ | ⟨-, hlive⟩⟩⟩
        · cases he
        · cases he
        · cases he
        · exact .out hv hio hport hch hfull hlive
    | add | mul | jt | jf | lt | eq | halt => cases h
  · intro h
    cases h with
    | inp hd hio hch hbuf hlive =>
      refine endsInBlock_eq_true.2 (inEffect_of_take_error hc hd ?_)
      rw [inTake_of_channel_nil hio hch hbuf, if_pos hlive]
    | out hv hio hport hch hfull hlive =>
      refine endsInBlock_eq_true.2 (outEffect_of_put_error hc hv ?_)
      rw [outPut_of_channel_full hio hport hch hfull, if_pos hlive]

theorem select_active {s : State} {k : Nat} {c : Vm} (hc : s.core? k = some c) :
    (s.select k).Active { c with started := true } := by
  rw [State.Active, State.select_active, State.core?_select, hc]
  rfl

/-- The step of core `k` would block exactly when its window decodes to an instruction at which it waits (R34). -/
theorem wouldBlock_eq_true {s : State} {k : Nat} {c : Vm} (hc : s.core? k = some c) :
    s.wouldBlock k = true ↔
      ∃ i, (s.select k).fetchInstr = .ok i ∧ Waits (s.select k) k { c with started := true } i := by
  have hact := select_active hc
  unfold State.wouldBlock
  split
  · rename_i i hi
    simpa [hi] using instrBlocks_eq_true hact
  · rename_i e he
    simp [he]

theorem enabled_eq_true {s : State} {k : Nat} : s.enabled k = true ↔ s.isRunning k = true ∧ ¬s.wouldBlock k = true := by
  simp [State.enabled]

/-! ## A step of another core -/

theorem fetchInstr_congr {s t : State} {c : Vm} (hs : s.Active c) (ht : t.Active c) (hparams : t.params = s.params) :
    t.fetchInstr = s.fetchInstr := by
  simp only [State.fetchInstr, vm_eq_ok.2 hs, vm_eq_ok.2 ht, hparams]

theorem outPort_congr {p q : Controller} (h : p.config = q.config) (k : Nat) : p.outPort k = q.outPort k := by
  simp only [Controller.outPort, h]

theorem space_congr {s t : State} (h : t.params = s.params) (ch : Channel) : t.space ch = s.space ch := by
  simp only [State.space, h]

/-- Each channel has one writer: no two cores of a pipeline have their output port at one channel (R182, R183). -/
theorem outPort_injective {p : Controller} {j k i : Nat} (hj : j < p.config.n) (hk : k < p.config.n)
    (hji : p.outPort j = .channel i) (hki : p.outPort k = .channel i) : j = k := by
  rcases outPort_eq_channel.1 hji with ⟨-, hi⟩ | ⟨hlast, -, hi⟩ <;>
    rcases outPort_eq_channel.1 hki with ⟨-, hi'⟩ | ⟨hlast', -, hi'⟩ <;> omega

theorem isRunning_select (s : State) (k j : Nat) : (s.select k).isRunning j = s.isRunning j := by
  by_cases hj : j = k
  · subst hj
    cases hc : s.core? j <;> simp [State.isRunning, State.core?_select, hc]
  · simp only [State.isRunning, State.core?_select_other s hj]

theorem space_pop {s : State} {ch : Channel} (h : s.space ch.pop = false) : s.space ch = false := by
  cases hk : ch.consumer with
  | sink => rw [(signals_of_sink (ch := ch.pop) hk).1] at h; cases h
  | core k =>
    have hlen := (space_eq_false_of_core (ch := ch.pop) hk).1 h
    rw [Channel.pop_buf, List.length_tail] at hlen
    exact (space_eq_false_of_core hk).2 (by omega)

section
variable {s : State} {c : Vm} {l : List Channel} (h : ChansMove s c l) {j : Nat} {ch : Channel} (hch : l[j]? = some ch)
include h hch

/-- A commit of another core takes nothing from a core's own channel: where it is empty after it, it was before it. -/
theorem ChansMove.empty_before (hj : j ≠ s.active) (hempty : ch.buf = []) : s.chans[j]? = some ch := by
  rcases h with rfl | ⟨-, chk, v, rest, -, -, rfl⟩ | ⟨-, i, chi, v, -, hi, -, rfl⟩
  · exact hch
  · rwa [List.getElem?_set_ne hj.symm] at hch
  · by_cases hij : i = j
    · subst hij
      rw [List.getElem?_set_self (List.getElem?_eq_some_iff.1 hi).1] at hch
      cases hch
      simp at hempty
    · rwa [List.getElem?_set_ne hij] at hch

/-- A commit of a core fills no channel but the one at its output port: where another is full after it, it was before it. -/
theorem ChansMove.full_before (hport : s.ctl.outPort s.active ≠ .channel j) (hfull : s.space ch = false) :
    ∃ ch', s.chans[j]? = some ch' ∧ s.space ch' = false ∧ ch'.consumer = ch.consumer := by
  rcases h with rfl | ⟨-, chk, v, rest, hk, -, rfl⟩ | ⟨-, i, chi, v, hi, -, -, rfl⟩
  · exact ⟨ch, hch, hfull, rfl⟩
  · by_cases hkj : s.active = j
    · subst hkj
      rw [List.getElem?_set_self (List.getElem?_eq_some_iff.1 hk).1] at hch
      cases hch
      exact ⟨chk, hk, space_pop hfull, rfl⟩
    · rw [List.getElem?_set_ne hkj] at hch
      exact ⟨ch, hch, hfull, rfl⟩
  · have hij : i ≠ j := by rintro rfl; exact hport hi
    rw [List.getElem?_set_ne hij] at hch
    exact ⟨ch, hch, hfull, rfl⟩

end

theorem ChansMove.congr {s t : State} {c : Vm} {l : List Channel} (h : ChansMove s c l) (hactive : t.active = s.active)
    (hchans : t.chans = s.chans) (hctl : t.ctl = s.ctl) (hparams : t.params = s.params) : ChansMove t c l := by
  simpa only [ChansMove, hactive, hchans, hctl, space_congr hparams] using h

/-- A core that waits after the commit of another core was waiting before it: the other core can only have brought it a
value or made space for it, and no core becomes Running (R35, R172, R173). -/
theorem Waits.before {s t : State} {j k : Nat} {c x : Vm} {i : Instr} (h : Waits t j x i)
    (hmove : ChansMove { s with active := k } c t.chans) (hjk : j ≠ k) (hj : j < s.ctl.config.n) (hk : k < s.ctl.config.n)
    (hconfig : t.ctl.config = s.ctl.config) (hparams : t.params = s.params)
    (hrun : ∀ m, t.isRunning m = true → s.isRunning m = true) : Waits s j x i := by
  cases h with
  | @inp p d ch hd hio hch hbuf hlive =>
    refine .inp hd hio (hmove.empty_before hch hjk hbuf) hbuf ?_
    obtain ⟨m, e, hm, he, hst⟩ := producerLive_eq_true.1 hlive
    obtain ⟨e', he', hst'⟩ := isRunning_eq_true.1 (hrun m (isRunning_eq_true.2 ⟨e, he, hst⟩))
    exact producerLive_eq_true.2 ⟨m, e', hm, he', hst'⟩
  | @out p v i ch hv hio hport hch hfull hlive =>
    rw [outPort_congr hconfig] at hport
    rw [space_congr hparams] at hfull
    have hother : s.ctl.outPort k ≠ .channel i := fun hki => hjk (outPort_injective hj hk hport hki)
    obtain ⟨ch', hch', hfull', hcons⟩ := hmove.full_before hch hother hfull
    refine .out hv hio hport hch' hfull' ?_
    rw [State.consumerLive] at hlive ⊢
    rw [hcons]
    split
    · rename_i m hm
      rw [hm] at hlive
      exact hrun m hlive
    · rfl

/-- No step of a core makes another core Running (R35). -/
theorem CoreStep.running_before {s t : State} {k : Nat} {c d : Vm} (h : CoreStep s k c d t) (hc : s.core? k = some c)
    (hrun : c.status = .running) {m : Nat} (hm : t.isRunning m = true) : s.isRunning m = true := by
  obtain ⟨e, he, hst⟩ := isRunning_eq_true.1 hm
  by_cases hmk : m = k
  · subst hmk
    exact isRunning_eq_true.2 ⟨c, hc, hrun⟩
  · exact isRunning_eq_true.2 ⟨e, (h.core?_other hmk).symm.trans he, hst⟩

/-- In a concurrent pipeline, a core that would block after the step of another core would have blocked before it. -/
theorem wouldBlock_before {s t : State} {j k : Nat} {c d x : Vm} (hcount : s.cores.length = s.ctl.config.n)
    (hc : s.core? k = some c) (hrun : c.status = .running) (hx : s.core? j = some x) (hjk : j ≠ k)
    (hstep : CoreStep s k c d t) (hmove : ChansMove (s.chose.select k) { c with started := true } t.chans)
    (h : t.wouldBlock j = true) : s.wouldBlock j = true := by
  have hx' : t.core? j = some x := (hstep.core?_other hjk).trans hx
  obtain ⟨i, hi, hw⟩ := (wouldBlock_eq_true hx').1 h
  have hmove' : ChansMove { s.select j with active := k } { c with started := true } t.chans :=
    hmove.congr rfl (State.chose_chans s).symm (State.chose_ctl s).symm (State.chose_params s).symm
  have hlive (m : Nat) (hm : (t.select j).isRunning m = true) : (s.select j).isRunning m = true := by
    rw [isRunning_select] at hm ⊢
    exact hstep.running_before hc hrun hm
  rw [fetchInstr_congr (select_active hx) (select_active hx') hstep.params] at hi
  refine (wouldBlock_eq_true hx).2 ⟨i, hi, hw.before hmove' hjk ?_ ?_ hstep.config hstep.params hlive⟩
  · exact hcount ▸ (List.getElem?_eq_some_iff.1 hx).1
  · exact hcount ▸ (List.getElem?_eq_some_iff.1 hc).1

/-- Settles O50: a step of another core leaves the core itself, and cannot make it wait. -/
theorem enabledCoreStaysEnabled : Obligations.EnabledCoreStaysEnabled := by
  intro choice s t j k hok hs hj hplan hkj h _
  obtain ⟨c, hc, hrun⟩ := plan_core_running hplan
  obtain ⟨x, hx, hxrun⟩ := enabled_running hj
  rw [stepWith_of_plan_core hplan] at h
  obtain ⟨d, hstep⟩ := coreStep_of_runActive hc h
  have hmove := runActive_chansMove (selected_active hc) h
  refine enabled_eq_true.2 ⟨isRunning_eq_true.2 ⟨x, (hstep.core?_other hkj.symm).trans hx, hxrun⟩, fun hblock => ?_⟩
  exact (enabled_eq_true.1 hj).2
    (wouldBlock_before (hok.pipeline hs.1).count hc hrun hx hkj.symm hstep hmove hblock)

end Sys2Proof.Machine
end

section
/-! PROOF. The controller's step of a sync run whose current core has halted (spec 60_exceptions.md R190, decisions D25, D33),
and the result tap (R179, R187, R188). -/

namespace Sys2Proof.Machine

/-! ## The hand-over of a sync run -/

/-- The step of a sync run whose current core has halted is the controller's advance (R190). -/
theorem State.SyncRun.stepWith_of_halted {s t : State} (hs : s.SyncRun) {c : Vm} (hc : s.core? s.ctl.cur = some c)
    (hst : c.status = .halted) (h : s.advanceSync c = .ok t) (choice : Nat) : stepWith choice s = .next t := by
  have hplan : s.planSync = .control t := by simp only [State.planSync, hc, hst, h]
  rw [stepWith, hs.plan_eq, hplan]

/-- Point 4 of R190: input left over, under `STRICT_EXCESS`. -/
theorem advanceSync_of_excess {s : State} {c : Vm} (hstrict : s.params.strictExcess = true) (hin : c.inQ ≠ []) :
    s.advanceSync c = .ok { s with ctl := s.ctl.abortWith .excessOutput (some s.ctl.cur) } := by
  simp [State.advanceSync, hstrict, hin]

section
variable {s : State} {c : Vm} (hno : s.params.strictExcess = false ∨ c.inQ = [])
include hno

theorem no_excess : ¬(s.params.strictExcess && !c.inQ.isEmpty) = true := by
  rcases hno with hno | hno <;> simp [hno]

/-- Point 5 of R190: the next core's input is its phase, then the output of the core that halted. -/
theorem advanceSync_of_next {d : Vm} {phase : Int} (hlt : s.ctl.cur + 1 < s.ctl.config.n)
    (hd : s.core? (s.ctl.cur + 1) = some d) (hphase : s.ctl.config.phases[s.ctl.cur + 1]? = some phase) :
    s.advanceSync c = .ok { s with
      cores := s.cores.set (s.ctl.cur + 1) { d with inQ := phase :: c.outLog }
      ctl := { s.ctl with cur := s.ctl.cur + 1 } } := by
  simp only [State.advanceSync, if_neg (no_excess hno), if_pos hlt, hd, hphase]

/-- Point 6 of R190: after the last core the run is Terminated. -/
theorem advanceSync_of_last (hlast : ¬s.ctl.cur + 1 < s.ctl.config.n) :
    s.advanceSync c = .ok { s with ctl := { s.ctl with pstatus := .terminated } } := by
  simp only [State.advanceSync, if_neg (no_excess hno), if_neg hlast]

end

/-- Settles O55: by the three outcomes of the controller's advance. -/
theorem syncHandOver : Obligations.SyncHandOver := by
  intro choice s c hs hc hst
  refine ⟨fun hstrict hin => ?_, fun hno => ⟨fun d phase hlt hd hphase => ?_, fun hlast => ?_⟩⟩
  · exact hs.stepWith_of_halted hc hst (advanceSync_of_excess hstrict hin) choice
  · exact hs.stepWith_of_halted hc hst (advanceSync_of_next hno hlt hd hphase) choice
  · exact hs.stepWith_of_halted hc hst (advanceSync_of_last hno hlast) choice

/-! ## The result tap -/

/-- The controller sets no result: it leaves it, or clears it in an abort (R187 to R190). -/
theorem ControlStep.result {s t : State} (h : ControlStep s t) :
    t.ctl.result = s.ctl.result ∨ (t.ctl.result = none ∧ t.ctl.pstatus = .aborted) := by
  cases h with
  | terminated | handOver | syncEnd => exact .inl rfl
  | excess | deadlock | syncFault | syncExcess => exact .inr ⟨rfl, rfl⟩

/-- A raise sets no result: in a pipeline it clears it, as it aborts the run (R188). -/
theorem takeFault_result (s : State) (c : Vm) (r : Raise) :
    (s.takeFault c r).ctl.result = s.ctl.result ∨
      ((s.takeFault c r).ctl.result = none ∧ (s.takeFault c r).ctl.pstatus = .aborted) := by
  cases hset : s.setting with
  | standalone => exact .inl (by rw [State.takeFault_ctl_standalone s c r hset])
  | pipeline => rw [State.takeFault_ctl_pipeline s c r hset]; exact .inr ⟨rfl, rfl⟩

/-- A commit sets the result only when it is that of out in the last core of a pipeline, to the value emitted (R179). -/
theorem CtlMove.result {s : State} {c : Vm} {i : Instr} {p : Controller} (h : CtlMove s c i p) :
    p.result = s.ctl.result ∨ ∃ q v, i = .out q ∧ ReadsAs c q v ∧ s.setting = .pipeline ∧
      s.active + 1 = s.ctl.config.n ∧ p.result = some v := by
  rcases h with rfl | ⟨q, v, hi, hv, hp⟩
  · exact .inl rfl
  · have hres : p.result = (s.tapped v).result := by rcases hp with rfl | ⟨-, -, rfl⟩ <;> rfl
    rw [tapped_eq] at hres
    by_cases htap : s.setting = .pipeline ∧ s.active + 1 = s.ctl.config.n
    · exact .inr ⟨q, v, hi, hv, htap.1, htap.2, by rw [hres]; exact if_pos htap⟩
    · exact .inl (by rw [hres]; exact if_neg htap)

/-- Settles O56: only a commit can set the result, and its instruction is the one that the core's window decodes to. -/
theorem resultTap : Obligations.ResultTap := by
  intro choice s t h
  rcases stepWith_cases h with ⟨-, rfl⟩ | hctl | ⟨k, c, hplan, hc, -, hact, hrun⟩
  · exact .inl rfl
  · exact hctl.result.imp_right .inl
  · have hctl : (s.chose.select k).ctl = s.ctl := by simp
    rcases runActive_cases hact hrun with ⟨i, hi, hcommit⟩ | rfl | ⟨r, rfl, -⟩
    · obtain ⟨d, -, -, -, -, -, -, -, hmove⟩ := hcommit.effect
      rcases hmove.result with hsame | ⟨q, v, rfl, hv, hset, hlast, hres⟩
      · exact .inl (by rw [hsame, hctl])
      · obtain ⟨c', win, hc', hwin, hdec⟩ := fetchInstr_eq_ok.1 hi
        obtain rfl := hact.unique hc'
        simp only [State.select_params, State.select_setting, State.select_active, State.chose_params,
          State.chose_setting, hctl] at hdec hset hlast
        exact .inr (.inr ⟨k, c, win, q, v, hplan, hc, hwin, hdec, by cases q <;> exact hv, hset, hlast, hres⟩)
    · exact .inl (by rw [hctl])
    · rw [← hctl]
      exact (takeFault_result ..).imp_right .inl

end Sys2Proof.Machine
end

section
/-! PROOF. The loader of program texts and the host's poke (spec 60_exceptions.md R196 to R198). -/

namespace Sys2Proof.Machine

/-! ## Loader -/

theorem fits_of_parseField {w : Nat} {f : List Char} {v : Int} (h : parseField w f = some v) : Fits w v := by
  unfold parseField at h
  split at h
  · split at h
    · cases h; assumption
    · cases h
  · cases h

/-- Fields that all parse give one cell each, in order (R197). -/
theorem parseFields_ok {w n : Nat} {fs : List (List Char)} {vs : List Int} (h : parseFields w n fs = .ok vs) :
    vs.map some = fs.map (parseField w) := by
  induction fs generalizing n vs with
  | nil => cases h; rfl
  | cons f fs ih =>
    unfold parseFields at h
    split at h
    · cases h
    · rename_i v hv
      split at h
      · rename_i vs' hvs
        cases h
        rw [List.map_cons, List.map_cons, hv, ih hvs]
      · cases h

/-- The error is the first field that does not parse, with its index counted from that of the first one (R197). -/
theorem parseFields_error {w n : Nat} {fs : List (List Char)} {e : HostError} (h : parseFields w n fs = .error e) :
    ∃ f i, e = .malformedProgramText f (n + i) ∧ fs[i]? = some f ∧ parseField w f = none ∧
      ∀ j g, j < i → fs[j]? = some g → parseField w g ≠ none := by
  induction fs generalizing n with
  | nil => cases h
  | cons f fs ih =>
    unfold parseFields at h
    split at h
    · rename_i hnone
      cases h
      exact ⟨f, 0, rfl, rfl, hnone, fun j g hj => absurd hj (Nat.not_lt_zero j)⟩
    · rename_i v hv
      split at h
      · cases h
      · rename_i e' he
        cases h
        obtain ⟨g, i, rfl, hi, hnone, hfirst⟩ := ih he
        refine ⟨g, i + 1, by rw [Nat.add_assoc, Nat.add_comm 1], hi, hnone, fun j x hj hx => ?_⟩
        cases j with
        | zero => cases hx; simp [hv]
        | succ j => exact hfirst j x (Nat.lt_of_succ_lt_succ hj) hx

/-- Every cell of a text that parses is the value of a field, so it fits. -/
theorem parseFields_fits {w n : Nat} {fs : List (List Char)} {vs : List Int} (h : parseFields w n fs = .ok vs) :
    ∀ v ∈ vs, Fits w v := by
  intro v hv
  have hmem : some v ∈ fs.map (parseField w) := parseFields_ok h ▸ List.mem_map_of_mem hv
  obtain ⟨f, -, hf⟩ := List.mem_map.1 hmem
  exact fits_of_parseField hf

/-- An image of cells is refused for its length only (R197). -/
theorem checkImage_eq_error_of_fits {p : Params} {image : List Int} {e : HostError} (hfits : ∀ v ∈ image, Fits p.w v)
    (h : checkImage p image = .error e) : e = .imageTooLarge ∧ p.maxMemLen < image.length := by
  have hnone : (image.find? fun v => ¬Fits p.w v) = none := List.find?_eq_none.2 fun v hv => by simpa using hfits v hv
  simp only [checkImage, hnone] at h
  split at h
  · cases h
  · rename_i hlen
    cases h
    exact ⟨rfl, Nat.not_le.1 hlen⟩

theorem parseProgram_eq_ok {p : Params} {text : List Char} {image : List Int} (h : parseProgram p text = .ok image) :
    parseFields p.w 0 (splitAtEvery ',' (dropLineEnds text)) = .ok image ∧ image.length ≤ p.maxMemLen := by
  unfold parseProgram at h
  split at h
  · cases h
  · rename_i image' hfields
    split at h
    · cases h
    · rename_i hcheck
      cases h
      exact ⟨hfields, (checkImage_eq_ok.1 hcheck).2⟩

theorem parseProgram_eq_error {p : Params} {text : List Char} {e : HostError} (h : parseProgram p text = .error e) :
    parseFields p.w 0 (splitAtEvery ',' (dropLineEnds text)) = .error e ∨
      ∃ image, parseFields p.w 0 (splitAtEvery ',' (dropLineEnds text)) = .ok image ∧ checkImage p image = .error e := by
  unfold parseProgram at h
  split at h
  · rename_i e' hfields
    cases h
    exact .inl hfields
  · rename_i image hfields
    split at h
    · rename_i e' hcheck
      cases h
      exact .inr ⟨image, hfields, hcheck⟩
    · cases h

/-- Settles O60: the fields are parsed in order up to the first malformed one, and their cells are checked for number. -/
theorem loaderChecksEveryField : Obligations.LoaderChecksEveryField := by
  intro p text
  refine ⟨fun image h => ?_, fun e h => ?_⟩
  · obtain ⟨hfields, hlen⟩ := parseProgram_eq_ok h
    exact ⟨parseFields_ok hfields, parseFields_fits hfields, hlen⟩
  · rcases parseProgram_eq_error h with hfields | ⟨image, hfields, hcheck⟩
    · obtain ⟨f, i, rfl, hrest⟩ := parseFields_error hfields
      exact .inl ⟨f, i, by rw [Nat.zero_add], hrest⟩
    · obtain ⟨he, hlen⟩ := checkImage_eq_error_of_fits (parseFields_fits hfields) hcheck
      have hcount : image.length = (splitAtEvery ',' (dropLineEnds text)).length := by
        simpa using congrArg List.length (parseFields_ok hfields)
      exact .inr ⟨he, hcount ▸ hlen⟩

/-! ## poke and peek -/

section
variable {s : State} {k : Nat} {c : Vm} (hc : s.core? k = some c)
include hc

theorem poke_of_started {a v : Int} (hst : c.started = true) : poke k a v s = .error .notAllowed := by
  simp [poke, hc, hst]

theorem poke_of_outOfBounds {a v : Int} (hst : c.started = false) (hv : Fits s.params.w v) (ha : ¬c.mem.InBounds a) :
    poke k a v s = .error (.outOfBounds a) := by
  simp only [poke, hc]
  rw [if_neg (by simp [hst]), if_neg (not_not.2 hv), if_neg ha]

theorem poke_of_inBounds {a v : Int} (hst : c.started = false) (hv : Fits s.params.w v) (ha : c.mem.InBounds a) :
    poke k a v s = .ok { s with cores := s.cores.set k { c with mem := c.mem.set a.toNat v } } := by
  simp only [poke, hc]
  rw [if_neg (by simp [hst]), if_neg (not_not.2 hv), if_pos ha]

theorem peek_of_read {a v : Int} (h : c.mem.read a = some v) : peek k a s = .ok v := by
  simp only [peek, hc, h]

theorem peek_congr {t : State} {d : Vm} {a : Int} (hd : t.core? k = some d) (h : d.mem.read a = c.mem.read a) :
    peek k a t = peek k a s := by
  simp only [peek, hc, hd, h]

theorem core?_set_same (d : Vm) : { s with cores := s.cores.set k d }.core? k = some d :=
  List.getElem?_set_self (List.getElem?_eq_some_iff.1 hc).1

end

/-- Settles O59: by the three outcomes of a poke of a cell value, and the set-get law of memory. -/
theorem pokeIsABoundedWriteBeforeTheRun : Obligations.PokeIsABoundedWriteBeforeTheRun := by
  intro s k c a v hc
  refine ⟨poke_of_started hc, poke_of_outOfBounds hc, fun hst hv ha => ?_⟩
  obtain ⟨hsame, hother⟩ := setThenGet c.mem a v ha
  have hd := core?_set_same hc { c with mem := c.mem.set a.toNat v }
  exact ⟨_, _, poke_of_inBounds hc hst hv ha, rfl, rfl, rfl, peek_of_read hd hsame,
    fun b hb => peek_congr hc hd (hother b hb)⟩

end Sys2Proof.Machine
end

section
/-! PROOF. The host's actions (spec 60_exceptions.md R180 to R184, R190, R196 to R198, 70_reset_and_hazards.md R230, R231):
what a configuration leaves, and that every action keeps the invariant. -/

namespace Sys2Proof.Machine

/-! ## A configured pipeline -/

/-- The seeds of core `k`, written out (R184, R190). -/
theorem seeds_eq {config : PipeConfig} {k : Nat} {phase : Int} (h : config.phases[k]? = some phase) :
    seeds config k = if k = 0 then [phase, 0] else [phase] := by
  simp [seeds, h]

theorem seeds_length_le (config : PipeConfig) (k : Nat) : (seeds config k).length ≤ 2 := by
  unfold seeds
  cases config.phases[k]? <;> by_cases hk : k = 0 <;> simp [hk]

/-- The producer of channel `k`, written out (R182, R183). -/
theorem wiredProducer_eq (config : PipeConfig) (k : Nat) :
    wiredProducer config k =
      if k = 0 then (if config.topology = .feedback then some (config.n - 1) else none) else some (k - 1) := by
  unfold wiredProducer
  cases config.topology <;> simp

theorem wiredChannels_of_sync {config : PipeConfig} (h : config.mode = .sync) : wiredChannels config = [] := by
  rw [wiredChannels, h]

theorem wiredChannels_of_concurrent {config : PipeConfig} (h : config.mode = .concurrent) :
    wiredChannels config = (List.range config.n).map fun k => ⟨seeds config k, wiredProducer config k, .core k⟩ := by
  rw [wiredChannels, h]

theorem wiredChannels_getElem? {config : PipeConfig} (h : config.mode = .concurrent) {k : Nat} (hk : k < config.n) :
    (wiredChannels config)[k]? = some ⟨seeds config k, wiredProducer config k, .core k⟩ := by
  simp [wiredChannels_of_concurrent h, hk]

/-- A core of a configured pipeline is a reset core (R181, R231). -/
theorem pipelineCore_eq (config : PipeConfig) (image : List Int) (k : Nat) :
    ∃ io input, pipelineCore config image k = Vm.resetWith io input (Memory.ofImage image) ∧
      (config.mode = .sync → io = .queue ∧ input = if k = 0 then seeds config 0 else []) ∧
      (config.mode = .concurrent → io = .channel ∧ input = []) := by
  unfold pipelineCore
  split
  · rename_i hmode
    exact ⟨_, _, rfl, by simp [hmode], fun _ => ⟨rfl, rfl⟩⟩
  · rename_i hmode
    exact ⟨_, _, rfl, fun _ => ⟨rfl, rfl⟩, by simp [hmode]⟩

theorem Memory.read_ofImage {image : List Int} {a : Nat} {v : Int} (h : image[a]? = some v) :
    (Memory.ofImage image).read a = some v := by
  obtain ⟨hlt, hv⟩ := List.getElem?_eq_some_iff.1 h
  refine Memory.read_eq_some.2 ⟨⟨Int.natCast_nonneg a, ?_⟩, ?_⟩
  · rw [Memory.ofImage_len]; exact_mod_cast hlt
  · rw [Int.toNat_natCast, Memory.get_ofImage image hlt, hv]

/-- Settles O58: by the state that an allowed configuration answers, its cores and its channels. -/
theorem configureResetsThePipeline : Obligations.ConfigureResetsThePipeline := by
  intro s t image config h
  obtain ⟨-, hwf, -, -, rfl⟩ := configurePipeline_ok h
  have ⟨_, hphases, _⟩ := hwf
  refine ⟨hwf, rfl, by simp, rfl, fun k hk => ?_, wiredChannels_of_sync, fun hmode => ?_, fun _ => ⟨?_, ?_⟩⟩
  · obtain ⟨io, input, hcore, hsync, hconc⟩ := pipelineCore_eq config image k
    have hphase : config.phases[k]? = some config.phases[k] := List.getElem?_eq_getElem (hphases ▸ hk)
    refine ⟨Vm.resetWith io input (Memory.ofImage image), _, by simp [State.core?, hk, hcore], hphase,
      Memory.ofImage_len image, fun a v hv => Memory.read_ofImage hv, rfl, rfl, rfl, rfl, rfl, rfl, fun hmode => ?_,
      fun hmode => ?_⟩
    · obtain ⟨hio, hinput⟩ := hsync hmode
      refine ⟨hio, hinput.trans ?_⟩
      by_cases h0 : k = 0
      · subst h0; simp [seeds_eq hphase]
      · simp [h0]
    · obtain ⟨hio, hinput⟩ := hconc hmode
      exact ⟨hio, hinput, _, wiredChannels_getElem? hmode hk, rfl, seeds_eq hphase, wiredProducer_eq config k⟩
  · simp [wiredChannels_of_concurrent hmode]
  · exact fun _ hrun => nomatch hrun
  · exact fun hterm => nomatch hterm

/-! ## The invariant of a reset core -/

theorem Vm.resetWith_dataOk {p : Params} (hp : p.Wf) (io : IoBinding) {input : List Int} {mem : Memory}
    (hin : ∀ v ∈ input, Fits p.w v) (hwf : mem.wf) (hlen : mem.len ≤ p.maxMemLen)
    (hfits : ∀ e ∈ mem.cells, Fits p.w e.2) : (Vm.resetWith io input mem).DataOk p where
  memWf := hwf
  memLen := hlen
  memFits := hfits
  pcFits := fits_of_le_maxMemLen hp (v := 0) (Int.le_refl 0) (by omega)
  inFits := hin
  outFits := nofun
  logCap n _ := Nat.zero_le n
  faultFits := ⟨nofun, nofun, nofun, nofun⟩

/-- A core reset with an image that a core can hold has its data in range (R230). -/
theorem Vm.resetWith_ofImage_dataOk {p : Params} (hp : p.Wf) (io : IoBinding) {input image : List Int}
    (hin : ∀ v ∈ input, Fits p.w v) (himage : ∀ v ∈ image, Fits p.w v) (hlen : image.length ≤ p.maxMemLen) :
    (Vm.resetWith io input (Memory.ofImage image)).DataOk p :=
  Vm.resetWith_dataOk hp io hin (Memory.ofImage_wf image) (by rwa [Memory.ofImage_len])
    fun e he => himage e.2 (Memory.mem_ofImage he)

theorem Vm.resetWith_statusOk (io : IoBinding) (input : List Int) (mem : Memory) :
    (Vm.resetWith io input mem).StatusOk := by
  constructor <;> simp [Vm.resetWith, FaultRecord.empty]

/-! ## load, poke and set_input -/

section
variable {s : State} {k : Nat} {c d : Vm} (hc : s.core? k = some c) (hio : d.io = c.io)
  (hst : d.status = c.status ∨ d.status = .running)
include hc hio hst

/-- A pipeline stays arranged when one of its cores is replaced by one of the same binding, Running or of the same status. -/
theorem State.PipelineOk.setCore (hok : s.PipelineOk) : { s with cores := s.cores.set k d }.PipelineOk := by
  have hmem := State.core?_mem hc
  have hbind {b : IoBinding} (hb : ∀ x ∈ s.cores, x.io = b) : ∀ x ∈ s.cores.set k d, x.io = b :=
    forall_mem_set hb (hio.trans (hb c hmem))
  refine ⟨hok.config, by rw [List.length_set]; exact hok.count, fun hmode => ?sync, fun hmode => ?concurrent,
    fun hp => ?unfaulted, fun hp => ?idle, hok.aborted, hok.notAborted⟩
  case sync =>
    obtain ⟨hchans, hqueue, hcur, hlater⟩ := hok.sync hmode
    refine ⟨hchans, hbind hqueue, hcur, fun hrun j x hj hlt => ?_⟩
    by_cases hjk : j = k
    · subst hjk
      obtain rfl : d = x := Option.some.inj ((core?_set_same hc d).symm.trans hj)
      exact hst.elim (fun hsame => hsame.trans (hlater hrun j c hc hlt)) id
    · rw [State.core?, List.getElem?_set_ne (Ne.symm hjk)] at hj
      exact hlater hrun j x hj hlt
  case concurrent =>
    obtain ⟨hlen, hchannel, hends⟩ := hok.concurrent hmode
    exact ⟨hlen, hbind hchannel, hends⟩
  case unfaulted =>
    have hno := hok.unfaulted hp
    refine forall_mem_set hno ?_
    rcases hst with hsame | hrun
    · exact hsame ▸ hno c hmem
    · simp [hrun]
  case idle =>
    obtain ⟨hcur, hrun⟩ := hok.idle hp
    exact ⟨hcur, forall_mem_set hrun (hst.elim (fun hsame => hsame.trans (hrun c hmem)) id)⟩

theorem State.Ok.setCore (hok : s.Ok) (hdata : d.DataOk s.params) (hstatus : d.StatusOk) :
    { s with cores := s.cores.set k d }.Ok where
  data := { hok.data with cores := forall_mem_set hok.data.cores hdata }
  control :=
    { cores := forall_mem_set hok.control.cores hstatus
      standalone := fun hset => by
        obtain ⟨⟨x, hx, hxio⟩, hrest⟩ := hok.control.standalone hset
        cases k with
        | zero =>
          obtain rfl : x = c := by simpa [State.core?, hx] using hc
          exact ⟨⟨d, by simp [hx], hio.trans hxio⟩, hrest⟩
        | succ k => simp [State.core?, hx] at hc
      pipeline := fun hset => (hok.control.pipeline hset).setCore hc hio hst }

end

section
variable {s t : State} (hok : s.Ok)
include hok

theorem State.Ok.load {k : Nat} {image : List Int} (h : load k image s = .ok t) : t.Ok := by
  obtain ⟨c, hc, -, hfits, hlen, rfl⟩ := load_ok h
  exact hok.setCore hc rfl (.inr rfl) (Vm.resetWith_ofImage_dataOk hok.data.params _ nofun hfits hlen)
    (Vm.resetWith_statusOk ..)

theorem State.Ok.poke {k : Nat} {a v : Int} (h : poke k a v s = .ok t) : t.Ok := by
  obtain ⟨c, hc, -, hv, ha, rfl⟩ := poke_ok h
  have hdata := hok.data.core hc
  have hlt : a.toNat < c.mem.len := by obtain ⟨h0, h1⟩ := ha; omega
  have hstore := hdata.store (n := 0) hlt hv (by rw [Int.add_zero]; exact hdata.pcFits)
  exact hok.setCore hc rfl (.inl rfl) { hstore with pcFits := hdata.pcFits }
    { hok.control.cores c (State.core?_mem hc) with }

theorem State.Ok.setInput {k : Nat} {input : List Int} (h : setInput k input s = .ok t) : t.Ok := by
  obtain ⟨c, hc, -, -, hfits, rfl⟩ := setInput_ok h
  exact hok.setCore hc rfl (.inl rfl) { hok.data.core hc with inFits := hfits }
    ((hok.control.cores c (State.core?_mem hc)).with_inQ input)

/-! ## configure_pipeline and start_pipeline -/

/-- A start leaves a pipeline arranged, as every core of an Idle one is Running (R196). -/
theorem State.Ok.startPipeline (h : startPipeline s = .ok t) : t.Ok := by
  obtain ⟨hset, hidle, rfl⟩ := startPipeline_ok h
  have hp := hok.control.pipeline hset
  obtain ⟨-, hrun⟩ := hp.idle hidle
  refine ⟨{ hok.data with }, hok.control.cores, fun hsa => (nomatch hset.symm.trans hsa), fun _ => ?_⟩
  refine ⟨hp.config, hp.count, fun hmode => ?_, hp.concurrent, fun _ => hp.unfaulted (.inl hidle), nofun, nofun,
    fun _ => hp.notAborted (by simp [hidle])⟩
  obtain ⟨hchans, hqueue, hcur, -⟩ := hp.sync hmode
  exact ⟨hchans, hqueue, hcur, fun _ k c hc _ => hrun c (State.core?_mem hc)⟩

end

section
variable {p : Params} (hp : p.Wf) {config : PipeConfig} (hconfig : config.Wf p.w)
include hp hconfig

/-- The seeds of a core are its phase and, for core 0, the value 0: all of them cells (R184). -/
theorem seeds_fits (k : Nat) : ∀ v ∈ seeds config k, Fits p.w v := by
  obtain ⟨-, -, hphases, -⟩ := hconfig
  have hphase : ∀ x ∈ (config.phases[k]?).toList, Fits p.w x :=
    fun x hx => hphases x (List.mem_of_getElem? (Option.mem_toList.1 hx))
  unfold seeds
  split
  · refine List.forall_mem_append.2 ⟨hphase, List.forall_mem_singleton.2 ?_⟩
    exact fits_of_le_maxMemLen hp (Int.le_refl 0) (by omega)
  · exact hphase

theorem wiredChannels_dataOk : ∀ ch ∈ wiredChannels config, ch.DataOk p := by
  cases hmode : config.mode with
  | sync => rw [wiredChannels_of_sync hmode]; nofun
  | concurrent =>
    rw [wiredChannels_of_concurrent hmode]
    refine List.forall_mem_map.2 fun k _ => ⟨seeds_fits hp hconfig k, fun _ => Nat.le_trans ?_ (Nat.le_max_left ..)⟩
    exact seeds_length_le config k

theorem pipelineCore_dataOk {image : List Int} (himage : ∀ v ∈ image, Fits p.w v) (hlen : image.length ≤ p.maxMemLen)
    (k : Nat) : (pipelineCore config image k).DataOk p := by
  obtain ⟨io, input, hcore, hsync, hconc⟩ := pipelineCore_eq config image k
  rw [hcore]
  refine Vm.resetWith_ofImage_dataOk hp io ?_ himage hlen
  cases hmode : config.mode with
  | sync =>
    rw [(hsync hmode).2]
    split
    · exact seeds_fits hp hconfig 0
    · nofun
  | concurrent => rw [(hconc hmode).2]; nofun

end

/-- A configured pipeline is arranged, and Idle (R180 to R184, R231). -/
theorem configured_pipelineOk {s : State} {config : PipeConfig} (hconfig : config.Wf s.params.w) (image : List Int) :
    { s with
      setting := .pipeline
      cores := (List.range config.n).map (pipelineCore config image)
      chans := wiredChannels config
      ctl := { Controller.reset with config := config }
      active := 0 }.PipelineOk := by
  have hcores {P : Vm → Prop} (h : ∀ k, P (pipelineCore config image k)) :
      ∀ c ∈ (List.range config.n).map (pipelineCore config image), P c := List.forall_mem_map.2 fun k _ => h k
  have hrun (k : Nat) : (pipelineCore config image k).status = .running := by
    obtain ⟨io, input, hcore, -⟩ := pipelineCore_eq config image k
    rw [hcore, Vm.resetWith]
  refine ⟨hconfig, by simp, fun hmode => ⟨wiredChannels_of_sync hmode, hcores fun k => ?_, hconfig.1, nofun⟩,
    fun hmode => ⟨by simp [wiredChannels_of_concurrent hmode], hcores fun k => ?_, fun k ch hch => ?_⟩,
    fun _ => hcores fun k => by simp [hrun k], fun _ => ⟨rfl, hcores hrun⟩, nofun, fun _ => rfl⟩
  · obtain ⟨io, input, hcore, hsync, -⟩ := pipelineCore_eq config image k
    rw [hcore, Vm.resetWith, (hsync hmode).1]
  · obtain ⟨io, input, hcore, -, hconc⟩ := pipelineCore_eq config image k
    rw [hcore, Vm.resetWith, (hconc hmode).1]
  · have hk : k < config.n := by
      simpa [wiredChannels_of_concurrent hmode] using (List.getElem?_eq_some_iff.1 hch).1
    cases (wiredChannels_getElem? hmode hk).symm.trans hch
    exact ⟨rfl, rfl⟩

theorem State.Ok.configurePipeline {s t : State} (hok : s.Ok) {image : List Int} {config : PipeConfig}
    (h : configurePipeline image config s = .ok t) : t.Ok := by
  obtain ⟨-, hconfig, himage, hlen, rfl⟩ := configurePipeline_ok h
  have hp := hok.data.params
  have ⟨_, _, hphases, _⟩ := hconfig
  refine ⟨⟨hp, ?_, wiredChannels_dataOk hp hconfig, nofun, nofun, hphases, fun _ hf => nomatch hf⟩, ?_,
    nofun, fun _ => configured_pipelineOk hconfig image⟩
  · exact List.forall_mem_map.2 fun k _ => pipelineCore_dataOk hp hconfig himage hlen k
  · refine List.forall_mem_map.2 fun k _ => ?_
    obtain ⟨io, input, hcore, -⟩ := pipelineCore_eq config image k
    exact hcore ▸ Vm.resetWith_statusOk io input _

/-! ## Every action -/

/-- Settles O43: by the cases of an action. -/
theorem hostActionsKeepOk : Obligations.HostActionsKeepOk := by
  intro a s t hok h
  cases a with
  | load k image => exact hok.load h
  | loadText k text =>
    obtain ⟨image, -, hload⟩ := action_bind_eq_ok.1 h
    exact hok.load hload
  | poke k a v => exact hok.poke h
  | setInput k input => exact hok.setInput h
  | configurePipeline image config => exact hok.configurePipeline h
  | startPipeline => exact hok.startPipeline h

end Sys2Proof.Machine
end

section
/-! PROOF. Every state that the hardware reaches, by steps under any schedule and by the host's actions, meets the invariant and
can step (spec 10_state.md sections 2 to 4, 60_exceptions.md R185, R196). -/

namespace Sys2Proof.Machine

/-- The machine after reset meets the invariant, under any legal parameters (log entry 5). -/
theorem State.resetFor_ok {p : Params} (hp : p.Wf) : (State.resetFor p).Ok where
  data :=
    { params := hp
      cores := List.forall_mem_singleton.2 (Vm.resetWith_dataOk hp _ nofun ⟨.nil, nofun⟩ (Nat.zero_le _) nofun)
      chans := nofun
      sink := nofun
      result := nofun
      phases := nofun
      abort := fun _ hf => nomatch hf }
  control :=
    { cores := List.forall_mem_singleton.2 (Vm.resetWith_statusOk ..)
      standalone := fun _ => ⟨⟨_, rfl, rfl⟩, rfl, rfl⟩
      pipeline := nofun }

/-- No action of the host changes the parameters (R6). -/
theorem act_params {a : HostAction} {s t : State} (h : act a s = .ok t) : t.params = s.params := by
  have hload {k : Nat} {image : List Int} (h : load k image s = .ok t) : t.params = s.params := by
    obtain ⟨c, -, -, -, -, rfl⟩ := load_ok h
    rfl
  cases a with
  | load k image => exact hload h
  | loadText k text =>
    obtain ⟨image, -, h⟩ := action_bind_eq_ok.1 h
    exact hload h
  | poke k a v => obtain ⟨c, -, -, -, -, rfl⟩ := poke_ok h; rfl
  | setInput k input => obtain ⟨c, -, -, -, -, rfl⟩ := setInput_ok h; rfl
  | configurePipeline image config => obtain ⟨-, -, -, -, rfl⟩ := configurePipeline_ok h; rfl
  | startPipeline => obtain ⟨-, -, rfl⟩ := startPipeline_ok h; rfl

/-- Steps keep the invariant: its data part and its arrangement. -/
theorem State.Ok.stepWith {choice : Nat} {s t : State} (hok : s.Ok) (h : stepWith choice s = .next t) : t.Ok :=
  ⟨stepKeepsDataInRange choice s t hok.data h, (stepKeepsControlConsistent choice s t hok.control h).1⟩

/-- Reset meets the invariant, and steps and host actions keep it and the parameters. -/
theorem Reachable.ok_and_params {p : Params} {s : State} (hp : p.Wf) (h : Reachable p s) : s.Ok ∧ s.params = p := by
  induction h with
  | reset => exact ⟨State.resetFor_ok hp, rfl⟩
  | step choice _ hstep ih =>
    obtain ⟨hok, hparams⟩ := ih
    exact ⟨hok.stepWith hstep, (stepKeepsWhatIsFixed choice _ _ hstep).1.trans hparams⟩
  | act a _ hact ih =>
    obtain ⟨hok, hparams⟩ := ih
    exact ⟨hostActionsKeepOk a _ _ hok hact, (act_params hact).trans hparams⟩

/-- Settles O44: by induction on how the state is reached, and from the invariant every step answers. -/
theorem reachableStatesAreOk : Obligations.ReachableStatesAreOk := by
  intro p s hp h
  obtain ⟨hok, hparams⟩ := h.ok_and_params hp
  exact ⟨hok, hparams, fun choice => everyStepAnswersANextState choice s hok.control⟩

end Sys2Proof.Machine
end

section
/-! PROOF. Reset and `load` (spec 10_state.md sections 2 to 4, 60_exceptions.md R188, R193, R196, 70_reset_and_hazards.md R230):
the machine meets its invariant at reset, and `load` is a core's reset. -/

namespace Sys2Proof.Machine

/-! ## Reset -/

/-- A machine that is not a pipeline owes its cores no order. -/
theorem runOrder_of_standalone {s : State} (h : s.setting = .standalone) : s.RunOrder :=
  fun hpipe => nomatch h.symm.trans hpipe

/-- The defaults are legal: their `MAX_MEM_LEN` is the largest legal one at `W = 64` (R6, log entry 6). -/
theorem Params.default_wf : Params.default.Wf := by decide

/-- Settles O39: reset under any legal parameters has its data in range and is standalone, and the defaults are legal. -/
theorem resetIsOk : Obligations.ResetIsOk := by
  have hreset (p : Params) (hp : p.Wf) : (State.resetFor p).Ok ∧ (State.resetFor p).RunOrder :=
    ⟨State.resetFor_ok hp, runOrder_of_standalone rfl⟩
  exact ⟨hreset, Params.default_wf, hreset Params.default Params.default_wf⟩

/-! ## load -/

section
variable {s : State} {k : Nat} {c : Vm} (hc : s.core? k = some c)
include hc

theorem load_of_not_mayLoad {image : List Int} (h : ¬s.MayLoad c) : load k image s = .error .notAllowed := by
  simp only [load, hc]
  rw [if_neg h]

theorem load_of_mayLoad {image : List Int} (h : s.MayLoad c) (hfits : ∀ v ∈ image, Fits s.params.w v)
    (hlen : image.length ≤ s.params.maxMemLen) :
    load k image s = .ok { s with cores := s.cores.set k (Vm.resetWith c.io [] (Memory.ofImage image)) } := by
  have hcheck : checkImage s.params image = .ok () := checkImage_eq_ok.2 ⟨hfits, hlen⟩
  simp only [load, hc, hcheck]
  rw [if_pos h]

end

/-- Settles O57: a started core that is Running in a run may not be loaded; any other is reset with the image. -/
theorem loadResetsTheCore : Obligations.LoadResetsTheCore := by
  intro s k c image hc
  refine ⟨fun hstarted hrunning hrun => load_of_not_mayLoad hc ?_, fun hmay hfits hlen => ?_⟩
  · rintro (hnot | hstopped | hended)
    · exact absurd (hstarted.symm.trans hnot) (by decide)
    · exact hstopped hrunning
    · exact hrun hended
  · exact ⟨_, load_of_mayLoad hc hmay hfits hlen, Memory.ofImage_len image, fun a v => Memory.read_ofImage,
      rfl, rfl, rfl, rfl, rfl, rfl, rfl, rfl⟩

end Sys2Proof.Machine
end
